-- ==== Sys2Proof/Word.lean ====
section
/-! DEFINITION. The bounded naturals of the machine: no value is a bit vector, every field is decimal (R10, R28, D2). -/

namespace Sys2Proof

/-- A Memory address, and the range of AddressBus and ProgramCounter: 0 to 999 (R21, R28). -/
abbrev Addr := Fin 1000

/-- A Word, and the range of DataBus, Accumulator and InstructionRegister: 0 to 19999 (R21, R28, R91). -/
abbrev Word := Fin 20000

/-- A Microcode address, and the range of MicroCodeCounter: 0 to 199 (R21, R28). -/
abbrev Slot := Fin 200

/-- A macro opcode, 0 to 19 (R91); also a key of the instruction name table (R37). -/
abbrev Opcode := Fin 20

/-- The value of the recorder cursor: a Microcode address or 200, one past the end (R33). -/
abbrev Cursor := Fin 201

/-- A line of text, or an instruction name, as its characters (lengths are counted in characters, R68). -/
abbrev Text := List Char

/-- A store: the elements that differ from the store's filler, each with its address. `Machine.Store.read` says what
an address that is not listed reads as. -/
abbrev Store (α : Type) := List (Nat × α)

end Sys2Proof
end

