-- ==== Sys2Proof/Syntax.lean ====
section
/-! DEFINITION. The two instruction levels: 20 micro-operation ids and 20 macro opcodes, one constructor per row of the
opcode table (R90, R96, R100, R212). -/

namespace Sys2Proof

/-- Every row of the opcode table. The first twenty are the micro-operations (format MICRO, no operand field, R95),
in the order of their ids; the last twenty are the macro instructions (format WORD), each with the operand field of
its Word (R91). -/
inductive Instr where
  | nop0          -- id 0, R190 and R191
  | db2ram        -- id 1, R150
  | ram2db        -- id 2, R151
  | db2ir         -- id 3, R152
  | ir2ab         -- id 4, R153
  | ir2mc         -- id 5, R193
  | reserved6     -- id 6, R192
  | mc0           -- id 7, R194
  | pc2ab         -- id 8, R154
  | pcinc         -- id 9, R196
  | skipz         -- id 10, R197
  | ir2pc         -- id 11, R198
  | acc0          -- id 12, R170
  | plus          -- id 13, R171
  | minus         -- id 14, R172
  | acc2db        -- id 15, R155
  | accinc        -- id 16, R173
  | accdec        -- id 17, R174
  | db2acc        -- id 18, R175
  | halt          -- id 19, R199
  | fetch (a : Nat)   -- opcode 0, R212 and R218
  | take (a : Nat)    -- opcode 1, R219
  | add (a : Nat)     -- opcode 2, R220
  | sub (a : Nat)     -- opcode 3, R221
  | save (a : Nat)    -- opcode 4, R222
  | jmp (a : Nat)     -- opcode 5, R227
  | tst (a : Nat)     -- opcode 6, R223
  | inc (a : Nat)     -- opcode 7, R224
  | dec (a : Nat)     -- opcode 8, R225
  | null (a : Nat)    -- opcode 9, R228
  | hlt (a : Nat)     -- opcode 10, R229
  | op11 (a : Nat)    -- opcodes 11 to 19: user-definable, R230 and R232
  | op12 (a : Nat)
  | op13 (a : Nat)
  | op14 (a : Nat)
  | op15 (a : Nat)
  | op16 (a : Nat)
  | op17 (a : Nat)
  | op18 (a : Nat)
  | op19 (a : Nat)
deriving DecidableEq, Repr

end Sys2Proof
end

