-- ==== Sys2Proof/WellFormed.lean ====
section
/-! DEFINITION. When an instruction of the syntax is one the encoding can hold: the operand field has three decimal
digits (R91). -/

namespace Sys2Proof

/-- The operand of a macro instruction, none for a micro-operation (which has no operand field, R95). -/
def Instr.operand : Instr → Option Nat
  | .nop0 | .db2ram | .ram2db | .db2ir | .ir2ab | .ir2mc | .reserved6 | .mc0 | .pc2ab | .pcinc => none
  | .skipz | .ir2pc | .acc0 | .plus | .minus | .acc2db | .accinc | .accdec | .db2acc | .halt => none
  | .fetch a | .take a | .add a | .sub a | .save a | .jmp a | .tst a | .inc a | .dec a | .null a => some a
  | .hlt a | .op11 a | .op12 a | .op13 a | .op14 a | .op15 a | .op16 a | .op17 a | .op18 a | .op19 a => some a

/-- The operand, where there is one, is a three-digit number 0 to 999 (R91). -/
def Instr.wellFormed (i : Instr) : Bool :=
  match i.operand with
  | none => true
  | some a => decide (a < 1000)

end Sys2Proof
end

