-- ==== Sys2Proof/Decode.lean ====
section
/-! DEFINITION. The pack and unpack unit (R91, R92), the decoder of a Microcode slot value (R95, R96) and of a Word
(R91, R99), and the encoder of both. A slot value and a Word are different things in different stores: no rule tells
them apart by their bits, so `Encoding` says which of the two a number is (R90). -/

namespace Sys2Proof

/-- `opcode(w) = floor(w / 1000)` (R13, R91). -/
def opcodeOf (w : Word) : Opcode := ⟨w.val / 1000, by omega⟩

/-- `operand(w) = w mod 1000` (R13, R91). -/
def operandOf (w : Word) : Addr := ⟨w.val % 1000, by omega⟩

/-- `pack(o, a) = o * 1000 + a` (R13, R92). -/
def packWord (o : Opcode) (a : Addr) : Word := ⟨o.val * 1000 + a.val, by omega⟩

/-- The operand field of a Word from the operand of a macro instruction: its three decimal digits (R91). -/
def operandField (a : Nat) : Addr := ⟨a % 1000, by omega⟩

/-- A number as one of the two stores holds it: a micro-operation id in a Microcode slot, or a Word in Memory (R90). -/
inductive Encoding where
  | slot (id : Nat)
  | word (w : Nat)
deriving DecidableEq, Repr

/-- Why a number is no instruction. -/
inductive DecodeError where
  /-- No row of the dispatch table has this id (R96, R192). -/
  | unknownMicroOp (id : Nat)
  /-- A Word is 0 to 19999 (R91). -/
  | notAWord (w : Nat)
deriving DecidableEq, Repr

/-- The dispatch table's ids (R96). Id 6 has a row of the opcode table, whose meaning is the fault of R192. -/
def decodeSlot : Nat → Except DecodeError Instr
  | 0 => .ok .nop0
  | 1 => .ok .db2ram
  | 2 => .ok .ram2db
  | 3 => .ok .db2ir
  | 4 => .ok .ir2ab
  | 5 => .ok .ir2mc
  | 6 => .ok .reserved6
  | 7 => .ok .mc0
  | 8 => .ok .pc2ab
  | 9 => .ok .pcinc
  | 10 => .ok .skipz
  | 11 => .ok .ir2pc
  | 12 => .ok .acc0
  | 13 => .ok .plus
  | 14 => .ok .minus
  | 15 => .ok .acc2db
  | 16 => .ok .accinc
  | 17 => .ok .accdec
  | 18 => .ok .db2acc
  | 19 => .ok .halt
  | id => .error (.unknownMicroOp id)

/-- The macro instruction of an opcode and an operand (R212, R213; the table's WORD rows). -/
def wordInstr : Opcode → Nat → Instr
  | ⟨0, _⟩, a => .fetch a
  | ⟨1, _⟩, a => .take a
  | ⟨2, _⟩, a => .add a
  | ⟨3, _⟩, a => .sub a
  | ⟨4, _⟩, a => .save a
  | ⟨5, _⟩, a => .jmp a
  | ⟨6, _⟩, a => .tst a
  | ⟨7, _⟩, a => .inc a
  | ⟨8, _⟩, a => .dec a
  | ⟨9, _⟩, a => .null a
  | ⟨10, _⟩, a => .hlt a
  | ⟨11, _⟩, a => .op11 a
  | ⟨12, _⟩, a => .op12 a
  | ⟨13, _⟩, a => .op13 a
  | ⟨14, _⟩, a => .op14 a
  | ⟨15, _⟩, a => .op15 a
  | ⟨16, _⟩, a => .op16 a
  | ⟨17, _⟩, a => .op17 a
  | ⟨18, _⟩, a => .op18 a
  | ⟨19, _⟩, a => .op19 a
  | ⟨n + 20, h⟩, _ => absurd h (by omega)

/-- The macro instruction a Word stands for: every Word decodes (R94). -/
def instrOfWord (w : Word) : Instr := wordInstr (opcodeOf w) (operandOf w).val

/-- The decoder of a number that should be a Word: 20000 and above are none (R91). -/
def decodeWord (w : Nat) : Except DecodeError Instr :=
  if h : w < 20000 then .ok (instrOfWord ⟨w, h⟩) else .error (.notAWord w)

/-- The decoder of both levels. -/
def decode : Encoding → Except DecodeError Instr
  | .slot id => decodeSlot id
  | .word w => decodeWord w

/-- The encoding of an instruction: the id of a micro-operation (R95), `1000 * opcode + operand` of a macro
instruction (R92, R215). -/
def encode : Instr → Encoding
  | .nop0 => .slot 0
  | .db2ram => .slot 1
  | .ram2db => .slot 2
  | .db2ir => .slot 3
  | .ir2ab => .slot 4
  | .ir2mc => .slot 5
  | .reserved6 => .slot 6
  | .mc0 => .slot 7
  | .pc2ab => .slot 8
  | .pcinc => .slot 9
  | .skipz => .slot 10
  | .ir2pc => .slot 11
  | .acc0 => .slot 12
  | .plus => .slot 13
  | .minus => .slot 14
  | .acc2db => .slot 15
  | .accinc => .slot 16
  | .accdec => .slot 17
  | .db2acc => .slot 18
  | .halt => .slot 19
  | .fetch a => .word a
  | .take a => .word (1000 + a)
  | .add a => .word (2000 + a)
  | .sub a => .word (3000 + a)
  | .save a => .word (4000 + a)
  | .jmp a => .word (5000 + a)
  | .tst a => .word (6000 + a)
  | .inc a => .word (7000 + a)
  | .dec a => .word (8000 + a)
  | .null a => .word (9000 + a)
  | .hlt a => .word (10000 + a)
  | .op11 a => .word (11000 + a)
  | .op12 a => .word (12000 + a)
  | .op13 a => .word (13000 + a)
  | .op14 a => .word (14000 + a)
  | .op15 a => .word (15000 + a)
  | .op16 a => .word (16000 + a)
  | .op17 a => .word (17000 + a)
  | .op18 a => .word (18000 + a)
  | .op19 a => .word (19000 + a)

/-- The number a row of the opcode table gives, by its size: a MICRO row has five bits, hence one byte, and is a slot
value; a WORD row has fifteen, hence two bytes, and is a Word (R95, R100). The machine has no bytes, so no byte order
enters (R60). -/
def tableEncoding (nbits w : Nat) : Encoding := if nbits ≤ 8 then .slot w else .word w

/-- The instruction the decoder reads from an instruction of the opcode table whose bits are `w`. -/
def decodeTableWord (nbits w : Nat) : Option Instr := (decode (tableEncoding nbits w)).toOption

end Sys2Proof
end

