-- ==== Sys2Proof/Config.lean ====
section
/-! DEFINITION. The parameters the spec lets a model take as arguments (R9), and the values this hardware takes for
them. The sizes (R7) are fixed: they are the bounds of the types of `Word.lean`. -/

namespace Sys2Proof.Config

/-- `HOST_WRITES_WHILE_RUNNING`: what the three store setters meet while Running is true (R9, R242, D15). -/
inductive HostWrites where
  | reject
  | betweenMacroSteps
deriving DecidableEq, Repr

/-- The open parameters of the machine (R9; D5, D6, D15, D22). -/
structure Params where
  /-- `RAM_INIT`, Memory at construction: the words that are not 0. -/
  ramInit : Store Word
  /-- `MC_DEFAULT`, Microcode at construction and after its reset: the slots that are not 0. -/
  mcDefault : Store Nat
  /-- `NAMES_DEFAULT`, the name table at construction and after the Microcode reset: the opcodes that have a name. -/
  namesDefault : Store (Option Text)
  /-- `HLT_OPCODE`, the opcode the RamEditor fix-up leaves alone. -/
  hltOpcode : Opcode
  /-- `HOST_WRITES_WHILE_RUNNING`. -/
  hostWrites : HostWrites
deriving DecidableEq, Repr

/-- The slots of block `k` whose first ids are `ids`; the block's other slots hold 0 (R97). -/
def block (k : Nat) (ids : List Nat) : Store Nat := ids.zipIdx.map fun x => (10 * k + x.2, x.1)

/-- `REF_MC`, block by block (R216). PRESUMED: the spec supplies it from general knowledge (GK1); see log entry 6. -/
def refMc : Store Nat :=
  block 0 [8, 2, 3, 5] ++
  block 1 [4, 2, 18, 9, 7] ++
  block 2 [4, 2, 13, 9, 7] ++
  block 3 [4, 2, 14, 9, 7] ++
  block 4 [4, 15, 1, 9, 7] ++
  block 5 [11, 7] ++
  block 6 [4, 2, 18, 10, 9, 7] ++
  block 7 [4, 2, 18, 16, 15, 1, 9, 7] ++
  block 8 [4, 2, 18, 17, 15, 1, 9, 7] ++
  block 9 [4, 12, 15, 1, 9, 7] ++
  block 10 [19]

/-- The default name table: opcodes 0 to 10 have a name, 11 to 19 have none (R213). -/
def defaultNames : Store (Option Text) :=
  [(0, some "FETCH".toList), (1, some "TAKE".toList), (2, some "ADD".toList), (3, some "SUB".toList),
   (4, some "SAVE".toList), (5, some "JMP".toList), (6, some "TST".toList), (7, some "INC".toList),
   (8, some "DEC".toList), (9, some "NULL".toList), (10, some "HLT".toList)]

/-- The values this hardware takes: the defaults of R9. -/
def params : Params where
  ramInit := []
  mcDefault := refMc
  namesDefault := defaultNames
  hltOpcode := 10
  hostWrites := .reject

/-- How many micro-steps of a macro step in progress one step of the model performs at most, before the dispatch and
again after it: as many as Microcode has slots. A macro step that has not ended goes on in the next step of the model,
so this bounds no macro step (R127 (e)). DESIGN CHOICE; see log entry 2. -/
def burst : Nat := 200

end Sys2Proof.Config
end

