-- ==== Sys2Proof/Machine/Commands.lean ====
section
/-! DEFINITION. What crosses the host interface: the commands (R240), the faults they can meet (R290), and the
notifications the core emits (R280). All of it is plain data. -/

namespace Sys2Proof.Machine

/-- A number the host presents. The rules name integers of any sign and non-integers too: both are refused alike
where they are outside a range (R62, R63, R67, R192). -/
inductive HostNum where
  | int (n : Int)
  | nonInteger
deriving DecidableEq, Repr

/-- The six registers, identified by name (R11, R23). -/
inductive Reg where
  | ab | db | acc | pc | ir | mc
deriving DecidableEq, Repr

/-- The notifications of R280. They are outputs: no rule reads them. -/
inductive Event where
  | registerChanged (r : Reg)
  | memoryChanged (a : Nat)
  | microcodeChanged (a : Nat)
  | nameChanged (k : Nat)
  | haltChanged (b : Bool)
  | runChanged (b : Bool)
  /-- A register write was clamped (R27). -/
  | normalized (r : Reg)
  /-- A `microStep` met a halted machine (R121). -/
  | haltedNoOp
  /-- A token of a `.ram` file was no Word; the number of its line, the first being 0 (R272). -/
  | importWarning (line : Nat)
  /-- A fix-up would have taken an operand out of 0 to 999 (R254). -/
  | fixUpSkipped (a : Nat)
deriving DecidableEq, Repr

/-- An execution fault, with what its report carries (R290 rows 1 and 2). -/
inductive ExecFault where
  | invalidMicroOp (id : HostNum) (mc : Slot)
  | fetchFault (ir : Word) (pc : Addr) (mc : Slot)
deriving DecidableEq, Repr

/-- How the step that set Halted ended (R340). -/
inductive Ending where
  /-- It was id 19 and returned `Ok`: the normal end. -/
  | halt
  /-- It returned this execution fault. -/
  | fault (f : ExecFault)
  /-- It was id 19 in a `manualStep` whose recording failed, so that it returned a setter fault (R134): neither of the
  two ends of R340. -/
  | recordFailed
deriving DecidableEq, Repr

/-- A setter or tool fault, with what its report carries (R290 rows 3 to 10). It changes no state (R305). -/
inductive HostFault where
  | addressOutOfRange (a : HostNum)
  | valueOutOfRange (v : HostNum)
  | invalidMicroOp (v : HostNum)
  | invalidOpcode (k : HostNum)
  | invalidName (name : Text)
  | memoryFull
  | malformedSnapshot
  | recordingConfigError
deriving DecidableEq, Repr

/-- A snapshot as `export` returns it (R268). -/
structure Snapshot where
  ram : List Word
  microCode : List Nat
  instructionNames : List (Nat × Text)
deriving DecidableEq, Repr

/-- A snapshot as the host presents it to `import`: a field is `none` where it is missing or of the wrong type
(R270). The container's syntax is the host's (R271). -/
structure RawSnapshot where
  ram : Option (List HostNum)
  microCode : Option (List HostNum)
  instructionNames : Option (List (HostNum × Text))
deriving DecidableEq, Repr

/-- The commands of R240, with `readState` of R241. A text file is presented as its lines. -/
inductive Command where
  | microStep
  | macroStep
  | run (delay : HostNum)
  | stop
  | manualStep (id : HostNum)
  | resetMachine
  | memoryRead (a : HostNum)
  | memoryWrite (a v : HostNum)
  | lastUsedAddress
  | memoryReset
  | microcodeRead (a : HostNum)
  | microcodeWrite (a v : HostNum)
  | instructionName (k : HostNum)
  | setInstructionName (k : HostNum) (name : Text)
  | microcodeReset
  | insertRowAbove (selected : HostNum) (fixup : Bool)
  | deleteRow (selected : HostNum) (fixup : Bool)
  | recorderStart (startAddress : HostNum) (name : Text)
  | recorderRecord (id : HostNum)
  | recorderStop
  | exportSnapshot
  | importSnapshot (x : RawSnapshot)
  | importRam (lines : List Text)
  | exportRam
  | importMc (lines : List Text)
  | exportMc
  | readState
deriving DecidableEq, Repr

/-- What the host does before a step of an idle core, or between two ticks of a run: it issues a command, or it lets
the core be (R129, R243). -/
inductive Input where
  | command (c : Command)
  | quiet
deriving DecidableEq, Repr

/-- Whether a command is being executed whose micro-steps have not ended: nothing, a `macroStep` command, or the
macro step of a tick of a run (R34, R126, R129). -/
inductive Progress where
  | idle
  | macroStep
  | tick
deriving DecidableEq, Repr

end Sys2Proof.Machine
end

