-- ==== Sys2Proof/Machine/Store.lean ====
section
/-! DEFINITION. A store as a list of (address, element) pairs in one canonical form: addresses strictly rising, no
element equal to the filler. Memory, Microcode and the name table are three such stores (R35, R36, R37, R38). -/

namespace Sys2Proof.Machine

/-- What an address of the store holds: the listed element, or the filler `d`. -/
def Store.read {α : Type} (d : α) : Store α → Nat → α
  | [], _ => d
  | (k, v) :: rest, a => if k = a then v else Store.read d rest a

/-- Replace the element at an address, keeping the canonical form: writing the filler removes the entry. -/
def Store.write {α : Type} [DecidableEq α] (d : α) : Store α → Nat → α → Store α
  | [], a, v => if v = d then [] else [(a, v)]
  | (k, w) :: rest, a, v =>
    if a < k then (if v = d then (k, w) :: rest else (a, v) :: (k, w) :: rest)
    else if a = k then (if v = d then rest else (a, v) :: rest)
    else (k, w) :: Store.write d rest a v

/-- Every address listed is above `lo`'s predecessor and below `size`, strictly rising, and no element is the
filler. -/
def Store.wfFrom {α : Type} [DecidableEq α] (d : α) (size : Nat) : Nat → Store α → Bool
  | _, [] => true
  | lo, (k, v) :: rest => decide (lo ≤ k) && decide (k < size) && decide (v ≠ d) && Store.wfFrom d size (k + 1) rest

/-- The canonical form of a store with addresses 0 to `size - 1`. -/
def Store.wf {α : Type} [DecidableEq α] (d : α) (size : Nat) (m : Store α) : Bool := Store.wfFrom d size 0 m

/-- The highest address listed, none where nothing is: in a canonical store the highest address whose element is
not the filler (R64). -/
def Store.lastUsed {α : Type} (m : Store α) : Option Nat := m.getLast?.map Prod.fst

/-- The store whose elements are those of a list, address 0 first. -/
def Store.ofList {α : Type} [DecidableEq α] (d : α) (l : List α) : Store α :=
  (l.zipIdx.filter fun x => decide (x.1 ≠ d)).map fun x => (x.2, x.1)

/-- The elements of addresses 0 to `n - 1`, in order. -/
def Store.toList {α : Type} (d : α) (m : Store α) (n : Nat) : List α := (List.range n).map (Store.read d m)

/-- `trim`: the elements up to the last that is not the filler (R268). -/
def Store.trimmed {α : Type} (d : α) (m : Store α) : List α :=
  match Store.lastUsed m with
  | none => []
  | some last => Store.toList d m (last + 1)

end Sys2Proof.Machine
end

