-- ==== Sys2Proof/Machine/State.lean ====
section
/-! DEFINITION. The state of one machine instance (R20), what the model adds to it, the two reasons a step may stop,
and the machine right after construction (R42). -/

namespace Sys2Proof.Machine

/-- The Memory array, filler 0 (R35). -/
abbrev Memory := Store Word

/-- The Microcode array, filler 0, the inert id (R36, R97). -/
abbrev Microcode := Store Nat

/-- The instruction name table, filler "no name" (R37). -/
abbrev NameTable := Store (Option Text)

/-- The complete architectural state, the closed list of R20. -/
structure Arch where
  ab : Addr                     -- AddressBus (R21)
  db : Word                     -- DataBus (R21)
  acc : Word                    -- Accumulator (R21)
  pc : Addr                     -- ProgramCounter (R21, R25)
  ir : Word                     -- InstructionRegister (R21)
  mc : Slot                     -- MicroCodeCounter (R21, R26)
  halted : Bool                 -- Halted (R31)
  running : Bool                -- Running (R32)
  recCursor : Option Cursor     -- RecCursor (R33)
  lastAccessed : Option Addr    -- LastAccessed (R39)
  memory : Memory               -- R35
  microcode : Microcode         -- R36
  names : NameTable             -- R37
deriving DecidableEq, Repr

/-- What a command returns (R240): `Ok`, a value, one fault, or the refusal of R242. -/
inductive Response where
  | ok
  | word (w : Word)
  | slot (id : Nat)
  | address (a : Option Nat)
  | name (n : Option Text)
  | snapshot (x : Snapshot)
  | lines (ls : List Text)
  | arch (x : Arch)
  | execFault (f : ExecFault)
  | failed (f : HostFault)
  | rejectedWhileRunning
deriving DecidableEq, Repr

/-- The state of the model: the machine of R20, the host's inputs not yet taken, a macro step in progress, and the
outputs of the latest step (R41 says that a command's response and the events are no state of the machine). -/
structure State extends Arch where
  /-- What the host will do, the next thing first. -/
  inbox : List Input
  /-- A macro step that has not ended. -/
  progress : Progress
  /-- The response the latest step returned, none where it ended no command. -/
  response : Option Response
  /-- The notifications of the latest step, oldest first (R16, R280). -/
  events : List Event
  /-- The last execution fault since construction or `resetMachine`: the sticky record R297 recommends. -/
  lastFault : Option ExecFault
  /-- How the step that set Halted ended, none while Halted is false: what R340 goes by, since the flags do not record
  it (R131, R297). -/
  ending : Option Ending
deriving DecidableEq, Repr

/-- The reasons a step may stop the machine for good: none. An execution fault is TAKEN, as R296 describes: the step
has a next state, with Halted set and the fault in its response; a setter or tool fault is a response that leaves the
state unchanged (R305); the bounds of the registers leave no access out of range (R70, R71). -/
inductive Fault where
deriving DecidableEq, Repr

/-- The reasons the model may give an instruction no meaning. -/
inductive Refusal where
  /-- Raised by an arm of `exec` whose instruction has no meaning yet; no arm raises it now. Safe: the model says
  nothing about the instruction. -/
  | notModelled (mnemonic : String)
deriving DecidableEq, Repr

/-- The architectural state after construction with the parameters `p` (R42, R331). -/
def Arch.construct (p : Config.Params) : Arch where
  ab := 0
  db := 0
  acc := 0
  pc := 0
  ir := 0
  mc := 0
  halted := false
  running := false
  recCursor := none
  lastAccessed := none
  memory := p.ramInit
  microcode := p.mcDefault
  names := p.namesDefault

/-- The machine right after construction, with nothing asked of it yet (R42). -/
def State.construct (p : Config.Params) : State where
  toArch := Arch.construct p
  inbox := []
  progress := .idle
  response := none
  events := []
  lastFault := none
  ending := none

/-- The machine right after construction with the parameters of this hardware (R9, R42, R331). -/
def State.reset : State := State.construct Config.params

end Sys2Proof.Machine
end

