-- ==== Sys2Proof/Machine/Flags.lean ====
section
/-! DEFINITION. The two execution flags and the conditions of a step. The machine has no condition codes (R30): the
only tests are the zero test of id 10 and the per-step condition `normalized` of R12. -/

namespace Sys2Proof.Machine

/-- `emit`: append a notification to the output of the step (R16). -/
def State.emit (s : State) (e : Event) : State := { s with events := s.events ++ [e] }

/-- Append several notifications. -/
def State.emitAll (s : State) (es : List Event) : State := { s with events := s.events ++ es }

/-- The condition `normalized`: the value is outside `[0, top]` (R12, R27). -/
def normalizes (top v : Int) : Bool := decide (v < 0) || decide (top < v)

/-- `ACC == 0`, the test of id 10: on the value of this moment, stored nowhere (R30, R197). -/
def State.accIsZero (s : State) : Bool := decide (s.acc = 0)

/-- `Halted <- b; emit HaltChanged(b)` (R31, R199, R296, R332). -/
def State.setHalted (s : State) (b : Bool) : State :=
  { s with halted := b, events := s.events ++ [.haltChanged b] }

/-- `Running <- b; emit RunChanged(b)` (R32, R128, R129, R132). -/
def State.setRunning (s : State) (b : Bool) : State :=
  { s with running := b, events := s.events ++ [.runChanged b] }

end Sys2Proof.Machine
end

