-- ==== Sys2Proof/Machine/Ops.lean ====
section
/-! DEFINITION. The named operations over registers and stores, taking an execution fault, and the reset that is the
only way out of the halted state. Each emits the notifications R280 gives it. -/

namespace Sys2Proof.Machine

/-- `clamp(lo, hi, v)` over the unbounded integers (R12). -/
def clamp (lo hi v : Int) : Int := if v < lo then lo else if hi < v then hi else v

/-- A value clamped into the range of AddressBus and ProgramCounter (R21, R27). -/
def clampAddr (v : Int) : Addr := Fin.ofNat 1000 (clamp 0 999 v).toNat

/-- A value clamped into the range of DataBus, Accumulator and InstructionRegister (R21, R27). -/
def clampWord (v : Int) : Word := Fin.ofNat 20000 (clamp 0 19999 v).toNat

/-- A value clamped into the range of MicroCodeCounter (R21, R27). -/
def clampSlot (v : Int) : Slot := Fin.ofNat 200 (clamp 0 199 v).toNat

/-- The notifications of a register write: `RegisterChanged` always, `Normalized` when the value was clamped
(R27, R280). -/
def regEvents (r : Reg) (top v : Int) : List Event :=
  if normalizes top v then [.registerChanged r, .normalized r] else [.registerChanged r]

/-- `AB <- v` (R12, R27). -/
def State.setAb (s : State) (v : Int) : State :=
  { s with ab := clampAddr v, events := s.events ++ regEvents .ab 999 v }

/-- `DB <- v` (R12, R27). -/
def State.setDb (s : State) (v : Int) : State :=
  { s with db := clampWord v, events := s.events ++ regEvents .db 19999 v }

/-- `ACC <- v` (R12, R27). -/
def State.setAcc (s : State) (v : Int) : State :=
  { s with acc := clampWord v, events := s.events ++ regEvents .acc 19999 v }

/-- `PC <- v` (R12, R27). -/
def State.setPc (s : State) (v : Int) : State :=
  { s with pc := clampAddr v, events := s.events ++ regEvents .pc 999 v }

/-- `IR <- v` (R12, R27). -/
def State.setIr (s : State) (v : Int) : State :=
  { s with ir := clampWord v, events := s.events ++ regEvents .ir 19999 v }

/-- `MC <- v` (R12, R27). -/
def State.setMc (s : State) (v : Int) : State :=
  { s with mc := clampSlot v, events := s.events ++ regEvents .mc 199 v }

/-- The state with a Word in `IR` that the fetch has put there already: no write, hence no notification. -/
def State.withIr (s : State) (w : Word) : State := { s with ir := w }

/-- The state with the inputs that are still to come. -/
def State.withInbox (s : State) (l : List Input) : State := { s with inbox := l }

/-- The state with its macro step in progress, or with none. -/
def State.withProgress (s : State) (p : Progress) : State := { s with progress := p }

/-- The state with the recorder cursor at `c`, or inactive (R33). -/
def State.withCursor (s : State) (c : Option Cursor) : State := { s with recCursor := c }

/-- The value of a register, by its name (R11, R23). -/
def State.reg (s : State) : Reg → Nat
  | .ab => s.ab.val
  | .db => s.db.val
  | .acc => s.acc.val
  | .pc => s.pc.val
  | .ir => s.ir.val
  | .mc => s.mc.val

/-- `Memory[a]` (R14, R35). -/
def State.memRead (s : State) (a : Nat) : Word := Store.read 0 s.memory a

/-- `Memory[a] <- v; emit MemoryChanged(a)` (R14, R63). -/
def State.memWrite (s : State) (a : Nat) (v : Word) : State :=
  { s with memory := Store.write 0 s.memory a v, events := s.events ++ [.memoryChanged a] }

/-- `Microcode[a]` (R14, R36). -/
def State.mcRead (s : State) (a : Nat) : Nat := Store.read 0 s.microcode a

/-- `Microcode[a] <- id; emit MicrocodeChanged(a)` (R14, R67). -/
def State.mcWrite (s : State) (a id : Nat) : State :=
  { s with microcode := Store.write 0 s.microcode a id, events := s.events ++ [.microcodeChanged a] }

/-- The name of an opcode, if it has one (R37). -/
def State.nameRead (s : State) (k : Nat) : Option Text := Store.read none s.names k

/-- `names[k] <- n`, with its notification (R68, R280). -/
def State.nameWrite (s : State) (k : Nat) (n : Option Text) : State :=
  { s with names := Store.write none s.names k n, events := s.events ++ [.nameChanged k] }

/-- `LastAccessed <- AB`, the mark of ids 1 and 2 (R39). -/
def State.markAccess (s : State) : State := { s with lastAccessed := some s.ab }

/-- `MemWrite(AB, DB); LastAccessed <- AB`: the core's store (R70, R150). -/
def State.coreStore (s : State) : State := (s.memWrite s.ab.val s.db).markAccess

/-- `DB <- MemRead(AB); LastAccessed <- AB`: the core's load (R70, R151). -/
def State.coreLoad (s : State) : State := (s.setDb (s.memRead s.ab.val).val).markAccess

/-- The micro-operation id in the slot `MC` addresses (R71, R122). -/
def State.slotId (s : State) : Nat := s.mcRead s.mc.val

/-- `MC <- MC + 1`, clamped at 199: the auto-increment of R124. -/
def State.autoIncrement (s : State) : State := s.setMc (s.mc.val + 1)

/-- Return a value, `Ok` or a fault as the response of the command (R240). -/
def State.answer (s : State) (r : Response) : State := { s with response := some r }

/-- Setting Halted, with the record of how the step that set it ended: a machine already halted keeps its record
(R340). -/
def State.halt (s : State) (e : Ending) : State :=
  { s.setHalted true with ending := if s.halted then s.ending else some e }

/-- Taking an execution fault (R296): Halted is set, the fault is returned, and nothing else changes: no register is
saved or written, `MC` keeps the address of the faulting slot (R125). The record of R297 is kept. -/
def State.takeFault (s : State) (f : ExecFault) : State :=
  { s.halt (.fault f) with response := some (.execFault f), lastFault := some f }

/-- The effect of `resetMachine`, the only return from the halted state (R299, R332): the six registers 0, Halted
false, LastAccessed none; stores, names and RecCursor stay. The model's records of faults and of the end start anew.
DESIGN CHOICE: `HaltChanged(false)` is emitted on a machine that was not halted too; see log entry 10. -/
def State.resetRegisters (s : State) : State :=
  { ((((((s.setAb 0).setDb 0).setAcc 0).setPc 0).setIr 0).setMc 0).setHalted false with
    lastAccessed := none, lastFault := none, ending := none }

/-- The number R290 offers for a fault of an execution. -/
def ExecFault.number : ExecFault → Nat
  | .invalidMicroOp _ _ => 1
  | .fetchFault _ _ _ => 2

/-- The number R290 offers for a setter or tool fault. -/
def HostFault.number : HostFault → Nat
  | .addressOutOfRange _ => 3
  | .valueOutOfRange _ => 4
  | .invalidMicroOp _ => 5
  | .invalidOpcode _ => 6
  | .invalidName _ => 7
  | .memoryFull => 8
  | .malformedSnapshot => 9
  | .recordingConfigError => 10

/-- Run `f` on the next state; a fault or a refusal stays. -/
def andThen (o : Host.Outcome State Fault Refusal) (f : State → Host.Outcome State Fault Refusal) :
    Host.Outcome State Fault Refusal :=
  match o with
  | .next s => f s
  | .fault r => .fault r
  | .refused r => .refused r

end Sys2Proof.Machine
end

