-- ==== Sys2Proof/Machine/Operands.lean ====
section
/-! DEFINITION. Where the operands of a micro-operation come from: the fields of InstructionRegister, and nothing
else but the registers each id names (R93, R157). -/

namespace Sys2Proof.Machine

/-- `operand(IR)`: the value id 4 puts into `AB` and id 11 into `PC` (R93). -/
def State.irOperand (s : State) : Addr := operandOf s.ir

/-- `opcode(IR)`: the field id 5 dispatches on (R93, R193). -/
def State.irOpcode (s : State) : Opcode := opcodeOf s.ir

/-- `opcode(IR) * 10`, the first slot of the opcode's block (R97, R193). -/
def State.dispatchTarget (s : State) : Nat := s.irOpcode.val * 10

/-- The ids of the dispatch table: 0 to 5 and 7 to 19 (R95, R96); also the values a slot may hold (R36, R67). -/
def legalId (id : Nat) : Bool := decide (id < 20) && decide (id ≠ 6)

/-- The ids whose dispatch-table row says `increment: true` (R96, R124). -/
def increments (id : Nat) : Bool :=
  legalId id && !(decide (id = 0) || decide (id = 5) || decide (id = 7) || decide (id = 19))

end Sys2Proof.Machine
end

