-- ==== Sys2Proof/Machine/Alu.lean ====
section
/-! DEFINITION. The micro-operations of the accumulator ALU, ids 12, 13, 14, 16, 17 and 18 (R170 to R178). The result
is computed over the integers and the register write clamps it (R177). Effects and meanings as in `Transfer.lean`. -/

namespace Sys2Proof.Machine

/-- Id 12: `ACC := 0` (R170). -/
def effAcc0 (s : State) : State := s.setAcc 0

/-- Id 13: `ACC := ACC + DB`, saturating at 19999 (R171). -/
def effPlus (s : State) : State := s.setAcc ((s.acc.val : Int) + (s.db.val : Int))

/-- Id 14: `ACC := ACC - DB`, saturating at 0 (R172). -/
def effMinus (s : State) : State := s.setAcc ((s.acc.val : Int) - (s.db.val : Int))

/-- Id 16: `ACC := ACC + 1`, saturating at 19999 (R173). -/
def effAccinc (s : State) : State := s.setAcc ((s.acc.val : Int) + 1)

/-- Id 17: `ACC := ACC - 1`, saturating at 0 (R174). -/
def effAccdec (s : State) : State := s.setAcc ((s.acc.val : Int) - 1)

/-- Id 18: `ACC := DB` (R175). -/
def effDb2acc (s : State) : State := s.setAcc s.db.val

/-- Id 12 under `microStep` (R170, R124). -/
def execAcc0 (s : State) : Host.Outcome State Fault Refusal := .next (effAcc0 s).autoIncrement

/-- Id 13 under `microStep` (R171, R124). -/
def execPlus (s : State) : Host.Outcome State Fault Refusal := .next (effPlus s).autoIncrement

/-- Id 14 under `microStep` (R172, R124). -/
def execMinus (s : State) : Host.Outcome State Fault Refusal := .next (effMinus s).autoIncrement

/-- Id 16 under `microStep` (R173, R124). -/
def execAccinc (s : State) : Host.Outcome State Fault Refusal := .next (effAccinc s).autoIncrement

/-- Id 17 under `microStep` (R174, R124). -/
def execAccdec (s : State) : Host.Outcome State Fault Refusal := .next (effAccdec s).autoIncrement

/-- Id 18 under `microStep` (R175, R124). -/
def execDb2acc (s : State) : Host.Outcome State Fault Refusal := .next (effDb2acc s).autoIncrement

end Sys2Proof.Machine
end

