-- ==== Sys2Proof/Machine/Control.lean ====
section
/-! DEFINITION. The micro-operations of sequencing and control, ids 0, 5, 6, 7, 9, 10, 11 and 19 (R190 to R201).
Effects and meanings as in `Transfer.lean`; ids 0, 5, 7 and 19 do not auto-increment (R124). -/

namespace Sys2Proof.Machine

/-- Id 0 as an effect, reached by `manualStep(0)` only: nothing (R190). -/
def effNop0 (s : State) : State := s

/-- Id 5: `MC := opcode(IR) * 10`, or FetchFault when that opcode is 0, and then `MC` is not written
(R193, R125). -/
def effIr2mc (s : State) : State :=
  if s.irOpcode = 0 then s.takeFault (.fetchFault s.ir s.pc s.mc) else s.setMc s.dispatchTarget

/-- Id 6: never an effect, always InvalidMicroOp (R192). -/
def effReserved6 (s : State) : State := s.takeFault (.invalidMicroOp (.int 6) s.mc)

/-- Id 7: `MC := 0` (R194). -/
def effMc0 (s : State) : State := s.setMc 0

/-- Id 9: `PC := PC + 1`, staying at 999 (R196). -/
def effPcinc (s : State) : State := s.setPc ((s.pc.val : Int) + 1)

/-- Id 10: `if ACC == 0: PC := PC + 1`; otherwise nothing is written (R197). -/
def effSkipz (s : State) : State := if s.accIsZero then s.setPc ((s.pc.val : Int) + 1) else s

/-- Id 11: `PC := operand(IR)` (R198). -/
def effIr2pc (s : State) : State := s.setPc s.irOperand.val

/-- Id 19: `Halted := true` (R199). -/
def effHalt (s : State) : State := s.halt .halt

/-- Id 0 met by `microStep`: InvalidMicroOp, `MC` keeps the address of the empty slot (R191). -/
def execNop0 (s : State) : Host.Outcome State Fault Refusal := .next (s.takeFault (.invalidMicroOp (.int 0) s.mc))

/-- Id 5 under `microStep` (R193). -/
def execIr2mc (s : State) : Host.Outcome State Fault Refusal := .next (effIr2mc s)

/-- Id 6 under `microStep` (R192). -/
def execReserved6 (s : State) : Host.Outcome State Fault Refusal := .next (effReserved6 s)

/-- Id 7 under `microStep` (R194). -/
def execMc0 (s : State) : Host.Outcome State Fault Refusal := .next (effMc0 s)

/-- Id 9 under `microStep` (R196, R124). -/
def execPcinc (s : State) : Host.Outcome State Fault Refusal := .next (effPcinc s).autoIncrement

/-- Id 10 under `microStep`: the increment of `MC` happens in both cases (R197, R124). -/
def execSkipz (s : State) : Host.Outcome State Fault Refusal := .next (effSkipz s).autoIncrement

/-- Id 11 under `microStep` (R198, R124). -/
def execIr2pc (s : State) : Host.Outcome State Fault Refusal := .next (effIr2pc s).autoIncrement

/-- Id 19 under `microStep` (R199). -/
def execHalt (s : State) : Host.Outcome State Fault Refusal := .next (effHalt s)

end Sys2Proof.Machine
end

