-- ==== Sys2Proof/Machine/Transfer.lean ====
section
/-! DEFINITION. The transfer micro-operations, ids 1, 2, 3, 4, 8 and 15 (R150 to R157). Of each id: its effect, which
`manualStep` performs alone (R133), and its meaning under `microStep`, the effect and then the auto-increment
(R124). -/

namespace Sys2Proof.Machine

/-- Id 1: `Memory[AB] := DB` (R150). -/
def effDb2ram (s : State) : State := s.coreStore

/-- Id 2: `DB := Memory[AB]` (R151). -/
def effRam2db (s : State) : State := s.coreLoad

/-- Id 3: `IR := DB` (R152). -/
def effDb2ir (s : State) : State := s.setIr s.db.val

/-- Id 4: `AB := operand(IR)` (R153). -/
def effIr2ab (s : State) : State := s.setAb s.irOperand.val

/-- Id 8: `AB := PC` (R154). -/
def effPc2ab (s : State) : State := s.setAb s.pc.val

/-- Id 15: `DB := ACC` (R155). -/
def effAcc2db (s : State) : State := s.setDb s.acc.val

/-- Id 1 under `microStep` (R150, R124). -/
def execDb2ram (s : State) : Host.Outcome State Fault Refusal := .next (effDb2ram s).autoIncrement

/-- Id 2 under `microStep` (R151, R124). -/
def execRam2db (s : State) : Host.Outcome State Fault Refusal := .next (effRam2db s).autoIncrement

/-- Id 3 under `microStep` (R152, R124). -/
def execDb2ir (s : State) : Host.Outcome State Fault Refusal := .next (effDb2ir s).autoIncrement

/-- Id 4 under `microStep` (R153, R124). -/
def execIr2ab (s : State) : Host.Outcome State Fault Refusal := .next (effIr2ab s).autoIncrement

/-- Id 8 under `microStep` (R154, R124). -/
def execPc2ab (s : State) : Host.Outcome State Fault Refusal := .next (effPc2ab s).autoIncrement

/-- Id 15 under `microStep` (R155, R124). -/
def execAcc2db (s : State) : Host.Outcome State Fault Refusal := .next (effAcc2db s).autoIncrement

end Sys2Proof.Machine
end

