-- ==== Sys2Proof/Machine/Sequencer.lean ====
section
/-! DEFINITION. The microcode sequencer: `effect(id)`, `microStep` and the loop of `macroStep`, as R123 and R126 write
them. -/

namespace Sys2Proof.Machine

/-- `effect(id)`: the dispatch table of R96. An id outside it has no effect; the callers check first. -/
def effect (id : Nat) (s : State) : State :=
  match id with
  | 0 => effNop0 s
  | 1 => effDb2ram s
  | 2 => effRam2db s
  | 3 => effDb2ir s
  | 4 => effIr2ab s
  | 5 => effIr2mc s
  | 7 => effMc0 s
  | 8 => effPc2ab s
  | 9 => effPcinc s
  | 10 => effSkipz s
  | 11 => effIr2pc s
  | 12 => effAcc0 s
  | 13 => effPlus s
  | 14 => effMinus s
  | 15 => effAcc2db s
  | 16 => effAccinc s
  | 17 => effAccdec s
  | 18 => effDb2acc s
  | 19 => effHalt s
  | _ => s

/-- `microStep()`, the checks in the order R123 and R298 fix. The response of a step without a fault is the
caller's. -/
def microStep (s : State) : State :=
  if s.halted then s.emit .haltedNoOp
  else if !legalId s.slotId then s.takeFault (.invalidMicroOp (.int s.slotId) s.mc)
  else if s.slotId = 0 then s.takeFault (.invalidMicroOp (.int 0) s.mc)
  else if s.slotId = 5 ∧ s.irOpcode = 0 then s.takeFault (.fetchFault s.ir s.pc s.mc)
  else if increments s.slotId then (effect s.slotId s).autoIncrement
  else effect s.slotId s

/-- The loop of `macroStep` ends: `MC == 0 or Halted`, tested after a step (R126). -/
def State.macroEnded (s : State) : Bool := decide (s.mc = 0) || s.halted

/-- At most `n` micro-steps of a `macroStep`, the test following each step (R126): the rest of the loop, where it has
not ended by then, is left to be done. -/
def runMicro : Nat → State → State
  | 0, s => s
  | n + 1, s => if (microStep s).macroEnded then microStep s else runMicro n (microStep s)

end Sys2Proof.Machine
end

