-- ==== Sys2Proof/Machine/Macro.lean ====
section
/-! DEFINITION. The macro instructions (R210 to R233). The hardware fixes only what R210 says: id 5 passes control to
slot `10 * opcode(IR)`, or raises FetchFault when that opcode is 0, and the instruction is what the block's
micro-operations do, up to the end of the macro step. The content of the blocks is state: under the reference
microcode of R216 it gives each instruction the effect its rule states. -/

namespace Sys2Proof.Machine

/-- A macro instruction from the dispatch of its Word on (R210 (b) and (c)): its Word is the one in `IR`, where the
fetch has put it; id 5 dispatches on it (R193); the block's micro-steps follow until the macro step ends (R126), at
most `Config.burst` of them in one step of the model. -/
def dispatchWord (k : Opcode) (a : Nat) (s : State) : State :=
  let s1 := effIr2mc (s.withIr (packWord k (operandField a)))
  if s1.macroEnded then s1 else runMicro Config.burst s1

/-- Opcode 0 is no instruction: FetchFault, whatever block 0 holds (R99, R193, R218). -/
def execFetch (a : Nat) (s : State) : Host.Outcome State Fault Refusal := .next (dispatchWord 0 a s)

/-- TAKE a: under the reference block 1, `ACC <- M[a]; PC <- p1` (R219). -/
def execTake (a : Nat) (s : State) : Host.Outcome State Fault Refusal := .next (dispatchWord 1 a s)

/-- ADD a: under the reference block 2, `ACC <- min(A + M[a], 19999); PC <- p1` (R220). -/
def execAdd (a : Nat) (s : State) : Host.Outcome State Fault Refusal := .next (dispatchWord 2 a s)

/-- SUB a: under the reference block 3, `ACC <- max(A - M[a], 0); PC <- p1` (R221). -/
def execSub (a : Nat) (s : State) : Host.Outcome State Fault Refusal := .next (dispatchWord 3 a s)

/-- SAVE a: under the reference block 4, `MemWrite(a, A); PC <- p1` (R222). -/
def execSave (a : Nat) (s : State) : Host.Outcome State Fault Refusal := .next (dispatchWord 4 a s)

/-- JMP a: under the reference block 5, `PC <- a` (R227). -/
def execJmp (a : Nat) (s : State) : Host.Outcome State Fault Refusal := .next (dispatchWord 5 a s)

/-- TST a: under the reference block 6, `ACC <- M[a]`, and the next instruction is skipped if that is 0 (R223). -/
def execTst (a : Nat) (s : State) : Host.Outcome State Fault Refusal := .next (dispatchWord 6 a s)

/-- INC a: under the reference block 7, `M[a]` and `ACC` become `min(M[a] + 1, 19999)`; `PC <- p1` (R224). -/
def execInc (a : Nat) (s : State) : Host.Outcome State Fault Refusal := .next (dispatchWord 7 a s)

/-- DEC a: under the reference block 8, `M[a]` and `ACC` become `max(M[a] - 1, 0)`; `PC <- p1` (R225). -/
def execDec (a : Nat) (s : State) : Host.Outcome State Fault Refusal := .next (dispatchWord 8 a s)

/-- NULL a: under the reference block 9, `M[a]` and `ACC` become 0; `PC <- p1` (R228). -/
def execNull (a : Nat) (s : State) : Host.Outcome State Fault Refusal := .next (dispatchWord 9 a s)

/-- HLT: under the reference block 10, `Halted <- true`; the operand is ignored (R229). -/
def execHlt (a : Nat) (s : State) : Host.Outcome State Fault Refusal := .next (dispatchWord 10 a s)

/-- Opcode 11: what the host has put into block 11 (R232); under the reference microcode the block is empty and its
first slot raises InvalidMicroOp (R230). -/
def execOp11 (a : Nat) (s : State) : Host.Outcome State Fault Refusal := .next (dispatchWord 11 a s)

/-- Opcode 12: what the host has put into block 12 (R232); under the reference microcode the block is empty and its
first slot raises InvalidMicroOp (R230). -/
def execOp12 (a : Nat) (s : State) : Host.Outcome State Fault Refusal := .next (dispatchWord 12 a s)

/-- Opcode 13: what the host has put into block 13 (R232); under the reference microcode the block is empty and its
first slot raises InvalidMicroOp (R230). -/
def execOp13 (a : Nat) (s : State) : Host.Outcome State Fault Refusal := .next (dispatchWord 13 a s)

/-- Opcode 14: what the host has put into block 14 (R232); under the reference microcode the block is empty and its
first slot raises InvalidMicroOp (R230). -/
def execOp14 (a : Nat) (s : State) : Host.Outcome State Fault Refusal := .next (dispatchWord 14 a s)

/-- Opcode 15: what the host has put into block 15 (R232); under the reference microcode the block is empty and its
first slot raises InvalidMicroOp (R230). -/
def execOp15 (a : Nat) (s : State) : Host.Outcome State Fault Refusal := .next (dispatchWord 15 a s)

/-- Opcode 16: what the host has put into block 16 (R232); under the reference microcode the block is empty and its
first slot raises InvalidMicroOp (R230). -/
def execOp16 (a : Nat) (s : State) : Host.Outcome State Fault Refusal := .next (dispatchWord 16 a s)

/-- Opcode 17: what the host has put into block 17 (R232); under the reference microcode the block is empty and its
first slot raises InvalidMicroOp (R230). -/
def execOp17 (a : Nat) (s : State) : Host.Outcome State Fault Refusal := .next (dispatchWord 17 a s)

/-- Opcode 18: what the host has put into block 18 (R232); under the reference microcode the block is empty and its
first slot raises InvalidMicroOp (R230). -/
def execOp18 (a : Nat) (s : State) : Host.Outcome State Fault Refusal := .next (dispatchWord 18 a s)

/-- Opcode 19: what the host has put into block 19 (R232); under the reference microcode the block is empty and its
first slot raises InvalidMicroOp (R230). -/
def execOp19 (a : Nat) (s : State) : Host.Outcome State Fault Refusal := .next (dispatchWord 19 a s)

end Sys2Proof.Machine
end

