-- ==== Sys2Proof/Machine/Dispatch.lean ====
section
/-! DEFINITION. The dispatch of an instruction to its meaning: one arm per row of the opcode table. -/

namespace Sys2Proof.Machine

/-- What an instruction does: a micro-operation under `microStep` on a machine that is not halted (R123), a macro
instruction from its dispatch on (R210). -/
def exec (i : Instr) (s : State) : Host.Outcome State Fault Refusal :=
  match i with
  | .nop0 => Sys2Proof.Machine.execNop0 s
  | .db2ram => Sys2Proof.Machine.execDb2ram s
  | .ram2db => Sys2Proof.Machine.execRam2db s
  | .db2ir => Sys2Proof.Machine.execDb2ir s
  | .ir2ab => Sys2Proof.Machine.execIr2ab s
  | .ir2mc => Sys2Proof.Machine.execIr2mc s
  | .reserved6 => Sys2Proof.Machine.execReserved6 s
  | .mc0 => Sys2Proof.Machine.execMc0 s
  | .pc2ab => Sys2Proof.Machine.execPc2ab s
  | .pcinc => Sys2Proof.Machine.execPcinc s
  | .skipz => Sys2Proof.Machine.execSkipz s
  | .ir2pc => Sys2Proof.Machine.execIr2pc s
  | .acc0 => Sys2Proof.Machine.execAcc0 s
  | .plus => Sys2Proof.Machine.execPlus s
  | .minus => Sys2Proof.Machine.execMinus s
  | .acc2db => Sys2Proof.Machine.execAcc2db s
  | .accinc => Sys2Proof.Machine.execAccinc s
  | .accdec => Sys2Proof.Machine.execAccdec s
  | .db2acc => Sys2Proof.Machine.execDb2acc s
  | .halt => Sys2Proof.Machine.execHalt s
  | .fetch a => Sys2Proof.Machine.execFetch a s
  | .take a => Sys2Proof.Machine.execTake a s
  | .add a => Sys2Proof.Machine.execAdd a s
  | .sub a => Sys2Proof.Machine.execSub a s
  | .save a => Sys2Proof.Machine.execSave a s
  | .jmp a => Sys2Proof.Machine.execJmp a s
  | .tst a => Sys2Proof.Machine.execTst a s
  | .inc a => Sys2Proof.Machine.execInc a s
  | .dec a => Sys2Proof.Machine.execDec a s
  | .null a => Sys2Proof.Machine.execNull a s
  | .hlt a => Sys2Proof.Machine.execHlt a s
  | .op11 a => Sys2Proof.Machine.execOp11 a s
  | .op12 a => Sys2Proof.Machine.execOp12 a s
  | .op13 a => Sys2Proof.Machine.execOp13 a s
  | .op14 a => Sys2Proof.Machine.execOp14 a s
  | .op15 a => Sys2Proof.Machine.execOp15 a s
  | .op16 a => Sys2Proof.Machine.execOp16 a s
  | .op17 a => Sys2Proof.Machine.execOp17 a s
  | .op18 a => Sys2Proof.Machine.execOp18 a s
  | .op19 a => Sys2Proof.Machine.execOp19 a s

end Sys2Proof.Machine
end

