-- ==== Sys2Proof/Machine/HostPorts.lean ====
section
/-! DEFINITION. The host's store ports (R62 to R69), `stop`, `resetMachine` and `readState` (R132, R332, R241). A port
that fails returns its fault and changes nothing else (R305). -/

namespace Sys2Proof.Machine

/-- The natural number the host presents, if it is an integer in 0 to `top`. -/
def HostNum.upTo (x : HostNum) (top : Nat) : Option Nat :=
  match x with
  | .int n => if 0 ≤ n ∧ n ≤ (top : Int) then some n.toNat else none
  | .nonInteger => none

/-- The Word the host presents, if it is one (R63). -/
def HostNum.word (x : HostNum) : Option Word := (x.upTo 19999).map (Fin.ofNat 20000)

/-- The micro-operation id the host presents, if a slot may hold it (R67). -/
def HostNum.microId (x : HostNum) : Option Nat := (x.upTo 19).filter legalId

/-- An instruction name has 1 to 5 characters (R37, R68). -/
def validName (n : Text) : Bool := decide (1 ≤ n.length) && decide (n.length ≤ 5)

/-- The change notifications of a store all of whose `n` elements are written at once. -/
def bulkEvents (f : Nat → Event) (n : Nat) : List Event := (List.range n).map f

/-- `Memory.read(a)` (R62). -/
def hostMemoryRead (a : HostNum) (s : State) : State :=
  match a.upTo 999 with
  | none => s.answer (.failed (.addressOutOfRange a))
  | some n => s.answer (.word (s.memRead n))

/-- `Memory.write(a, v)`: the address is checked before the value; the value is checked, not clamped (R63). -/
def hostMemoryWrite (a v : HostNum) (s : State) : State :=
  match a.upTo 999 with
  | none => s.answer (.failed (.addressOutOfRange a))
  | some n =>
    match v.word with
    | none => s.answer (.failed (.valueOutOfRange v))
    | some w => (s.memWrite n w).answer .ok

/-- `Memory.lastUsedAddress()`: the highest address holding a nonzero word (R64). -/
def State.lastUsedAddress (s : State) : Option Nat := Store.lastUsed s.memory

/-- `Memory.lastUsedAddress()` as a command. -/
def hostLastUsedAddress (s : State) : State := s.answer (.address s.lastUsedAddress)

/-- Replace the whole of Memory. -/
def State.setMemory (s : State) (m : Memory) : State :=
  { s with memory := m, events := s.events ++ bulkEvents .memoryChanged 1000 }

/-- Replace the whole of Microcode. -/
def State.setMicrocode (s : State) (m : Microcode) : State :=
  { s with microcode := m, events := s.events ++ bulkEvents .microcodeChanged 200 }

/-- Replace the whole name table. -/
def State.setNames (s : State) (m : NameTable) : State :=
  { s with names := m, events := s.events ++ bulkEvents .nameChanged 20 }

/-- `Memory.reset()`: fill with 0, whatever `RAM_INIT` is (R65). -/
def hostMemoryReset (s : State) : State := (s.setMemory []).answer .ok

/-- `MicrocodeProgram.read(a)` (R66). -/
def hostMicrocodeRead (a : HostNum) (s : State) : State :=
  match a.upTo 199 with
  | none => s.answer (.failed (.addressOutOfRange a))
  | some n => s.answer (.slot (s.mcRead n))

/-- The write of a slot through the port: the fault it meets, the address before the value, or the state after
(R67). -/
def State.portMicrocodeWrite (s : State) (a v : HostNum) : Except HostFault State :=
  match a.upTo 199 with
  | none => .error (.addressOutOfRange a)
  | some n =>
    match v.microId with
    | none => .error (.invalidMicroOp v)
    | some id => .ok (s.mcWrite n id)

/-- Answer with the fault, or with `Ok` in the state after. -/
def State.conclude (s : State) (r : Except HostFault State) : State :=
  match r with
  | .error f => s.answer (.failed f)
  | .ok t => t.answer .ok

/-- `MicrocodeProgram.write(a, v)` (R67). -/
def hostMicrocodeWrite (a v : HostNum) (s : State) : State := s.conclude (s.portMicrocodeWrite a v)

/-- `instructionName(k)`: none for an opcode out of range (R68, D18). -/
def hostInstructionName (k : HostNum) (s : State) : State :=
  match k.upTo 19 with
  | none => s.answer (.name none)
  | some n => s.answer (.name (s.nameRead n))

/-- `setInstructionName(k, name)`: the opcode is checked before the name (R68). -/
def hostSetInstructionName (k : HostNum) (name : Text) (s : State) : State :=
  match k.upTo 19 with
  | none => s.answer (.failed (.invalidOpcode k))
  | some n => if validName name then (s.nameWrite n (some name)).answer .ok else s.answer (.failed (.invalidName name))

/-- `MicrocodeProgram.reset()`: the default program and the default names (R69). -/
def hostMicrocodeReset (p : Config.Params) (s : State) : State :=
  ((s.setMicrocode p.mcDefault).setNames p.namesDefault).answer .ok

/-- `stop()`: accepted at any time; it touches nothing but Running (R132). -/
def hostStop (s : State) : State := (if s.running then s.setRunning false else s).answer .ok

/-- `run(delay)`: Running is set and the ticks become enabled; the delay is timing and has no effect (R128, R351). -/
def hostRun (_delay : HostNum) (s : State) : State := (s.setRunning true).answer .ok

/-- `resetMachine()` (R332). -/
def hostResetMachine (s : State) : State := s.resetRegisters.answer .ok

/-- `readState()`: the whole state of R20 (R241). -/
def hostReadState (s : State) : State := s.answer (.arch s.toArch)

end Sys2Proof.Machine
end

