-- ==== Sys2Proof/Machine/ProjectStore.lean ====
section
/-! DEFINITION. The ProjectStore: snapshots (R268 to R271) and the legacy `.ram` and `.mc` texts (R272 to R278). A
text is presented as its lines. Imports replace stores and touch no register or flag (R333). -/

namespace Sys2Proof.Machine

/-- The named opcodes and their names, lowest first. -/
def NameTable.entries (m : NameTable) : List (Nat × Text) :=
  (List.range 20).filterMap fun k => (Store.read none m k).map fun n => (k, n)

/-- The snapshot of the three stores, trailing zeros trimmed (R268). -/
def State.snapshot (s : State) : Snapshot where
  ram := Store.trimmed 0 s.memory
  microCode := Store.trimmed 0 s.microcode
  instructionNames := NameTable.entries s.names

/-- `export()` (R268). -/
def hostExport (s : State) : State := s.answer (.snapshot s.snapshot)

/-- A snapshot as it would be presented to `import`. -/
def Snapshot.toRaw (x : Snapshot) : RawSnapshot where
  ram := some (x.ram.map fun w => .int w.val)
  microCode := some (x.microCode.map fun n => .int n)
  instructionNames := some (x.instructionNames.map fun e => (.int e.1, e.2))

/-- A key and a name of a snapshot, checked (R270). -/
def checkName (e : HostNum × Text) : Option (Nat × Text) :=
  match e.1.upTo 19 with
  | none => none
  | some k => if validName e.2 then some (k, e.2) else none

/-- The name table of a list of keys and names; of two entries with one key the later stands. -/
def NameTable.ofEntries (es : List (Nat × Text)) : NameTable :=
  es.foldl (fun m e => Store.write none m e.1 (some e.2)) []

/-- The three stores of a snapshot, none where any check fails (R270). The padding with zeros is the filler's. -/
def RawSnapshot.check (x : RawSnapshot) : Option (Memory × Microcode × NameTable) :=
  match x.ram, x.microCode, x.instructionNames with
  | some ram, some mc, some names =>
    if ram.length ≤ 1000 ∧ mc.length ≤ 200 then
      match ram.mapM HostNum.word, mc.mapM HostNum.microId, names.mapM checkName with
      | some ws, some ids, some es => some (Store.ofList 0 ws, Store.ofList 0 ids, NameTable.ofEntries es)
      | _, _, _ => none
    else none
  | _, _, _ => none

/-- `import(snapshot)`: all or nothing (R270). -/
def hostImport (x : RawSnapshot) (s : State) : State :=
  match x.check with
  | none => s.answer (.failed .malformedSnapshot)
  | some (m, mc, names) => (((s.setMemory m).setMicrocode mc).setNames names).answer .ok

/-- A line without its comment and the spaces around it (R272). -/
def stripLine (l : Text) : Text :=
  let cut := l.takeWhile (fun c => c != '#')
  ((cut.dropWhile (fun c => c == ' ')).reverse.dropWhile (fun c => c == ' ')).reverse

/-- The value of a decimal digit. -/
def digitValue (c : Char) : Option Nat :=
  if '0'.toNat ≤ c.toNat ∧ c.toNat ≤ '9'.toNat then some (c.toNat - '0'.toNat) else none

/-- The number a text of decimal digits stands for; none for any other text, the empty one included. -/
def parseDecimal (t : Text) : Option Nat :=
  match t with
  | [] => none
  | c :: rest => ((c :: rest).mapM digitValue).map fun ds => ds.foldl (fun n d => 10 * n + d) 0

/-- A number in decimal, without leading zeros. -/
def decimalText (n : Nat) : Text := Nat.toDigits 10 n

/-- The lines that hold something, each with the number of its line in the text, the first being 0 (R272). -/
def dataLines (lines : List Text) : List (Nat × Text) :=
  (lines.zipIdx.map fun x => (x.2, stripLine x.1)).filter fun x => !x.2.isEmpty

/-- The Word of a data line of a `.ram` text, none where it is an invalid token (R272). -/
def ramToken (t : Text) : Option Word :=
  match parseDecimal t with
  | none => none
  | some n => if n ≤ 19999 then some (Fin.ofNat 20000 n) else none

/-- Import of a `.ram` text: an invalid token becomes 0 with a warning, a longer text is truncated, a shorter one
padded; it never fails (R272). -/
def hostImportRam (lines : List Text) (s : State) : State :=
  let ds := dataLines lines
  let warnings := (ds.filter fun x => (ramToken x.2).isNone).map fun x => Event.importWarning x.1
  let words := (ds.map fun x => (ramToken x.2).getD 0).take 1000
  ((s.emitAll warnings).setMemory (Store.ofList 0 words)).answer .ok

/-- Export of a `.ram` text: all 1000 words, one a line (R273). -/
def hostExportRam (s : State) : State :=
  s.answer (.lines ((Store.toList 0 s.memory 1000).map fun w => decimalText w.val))

/-- The id of a data line of a `.mc` text (R275). -/
def mcToken (t : Text) : Option Nat := (parseDecimal t).filter legalId

/-- The stores of a `.mc` text: 200 lines of ids, then names from opcode 0 on, at most 20 of them; none where a check
fails (R275, R276). -/
def checkMc (lines : List Text) : Option (Microcode × NameTable) :=
  let ls := (dataLines lines).map Prod.snd
  let names := (ls.drop 200).take 20
  if ls.length < 200 then none
  else
    match (ls.take 200).mapM mcToken with
    | none => none
    | some ids =>
      if names.all fun n => decide (n.length ≤ 5) then
        some (Store.ofList 0 ids, Store.ofList none (names.map some))
      else none

/-- Import of a `.mc` text: all or nothing (R275). -/
def hostImportMc (lines : List Text) (s : State) : State :=
  match checkMc lines with
  | none => s.answer (.failed .malformedSnapshot)
  | some (mc, names) => ((s.setMicrocode mc).setNames names).answer .ok

/-- Export of a `.mc` text: 200 ids, then the names up to the highest named opcode, `-` for an unnamed one below it
(R277). -/
def hostExportMc (s : State) : State :=
  s.answer (.lines ((Store.toList 0 s.microcode 200).map decimalText ++
    (Store.trimmed none s.names).map fun n => n.getD ['-']))

end Sys2Proof.Machine
end

