-- ==== Sys2Proof/Machine/RamEditor.lean ====
section
/-! DEFINITION. The RamEditor: inserting and deleting a row of Memory, with the fix-up of operands (R250 to R256). -/

namespace Sys2Proof.Machine

/-- `for i from sel + n down to sel + 1: Memory[i] <- Memory[i - 1]` (R250). -/
def shiftRowsUp (sel : Nat) : Nat → State → State
  | 0, s => s
  | n + 1, s => shiftRowsUp sel n (s.memWrite (sel + n + 1) (s.memRead (sel + n)))

/-- `for i from sel up to sel + n - 1: Memory[i] <- Memory[i + 1]` (R252). -/
def shiftRowsDown : Nat → Nat → State → State
  | _, 0, s => s
  | sel, n + 1, s => shiftRowsDown (sel + 1) n (s.memWrite sel (s.memRead (sel + 1)))

/-- The word a fix-up puts in place of `w`: none where it leaves the word, an error where the operand would leave
0 to 999 (R254). -/
def fixedWord (hlt : Opcode) (sel : Nat) (delta : Int) (w : Word) : Except Unit (Option Word) :=
  if opcodeOf w ≠ 0 ∧ opcodeOf w ≠ hlt ∧ sel ≤ (operandOf w).val then
    if 0 ≤ ((operandOf w).val : Int) + delta ∧ ((operandOf w).val : Int) + delta ≤ 999 then
      .ok (some (packWord (opcodeOf w) (clampAddr ((operandOf w).val + delta))))
    else .error ()
  else .ok none

/-- The fix-up of one address (R254). -/
def fixUpAt (hlt : Opcode) (sel : Nat) (delta : Int) (s : State) (x : Nat) : State :=
  match fixedWord hlt sel delta (s.memRead x) with
  | .ok none => s
  | .ok (some w) => s.memWrite x w
  | .error () => s.emit (.fixUpSkipped x)

/-- `FixUp(selected, delta)`: every address from 0 to 999 (R254). -/
def fixUp (hlt : Opcode) (sel : Nat) (delta : Int) (s : State) : State :=
  (List.range 1000).foldl (fixUpAt hlt sel delta) s

/-- `insertRowAbove(selected, fixup)` (R250). -/
def hostInsertRowAbove (p : Config.Params) (selected : HostNum) (fixup : Bool) (s : State) : State :=
  match selected.upTo 999 with
  | none => s.answer (.failed (.addressOutOfRange selected))
  | some sel =>
    match s.lastUsedAddress with
    | none => s.answer .ok
    | some last =>
      if last = 999 then s.answer (.failed .memoryFull)
      else
        let t := (shiftRowsUp sel (last + 1 - sel) s).memWrite sel 0
        (if fixup then fixUp p.hltOpcode sel 1 t else t).answer .ok

/-- `deleteRow(selected, fixup)`, with the guard of conflict C3 (R252). -/
def hostDeleteRow (p : Config.Params) (selected : HostNum) (fixup : Bool) (s : State) : State :=
  match selected.upTo 999 with
  | none => s.answer (.failed (.addressOutOfRange selected))
  | some sel =>
    match s.lastUsedAddress with
    | none => s.answer .ok
    | some last =>
      if last < sel then s.answer .ok
      else
        let t := (shiftRowsDown sel (last - sel) s).memWrite last 0
        (if fixup then fixUp p.hltOpcode sel (-1) t else t).answer .ok

end Sys2Proof.Machine
end

