-- ==== Sys2Proof/Machine/Recorder.lean ====
section
/-! DEFINITION. The Recorder (R260 to R264) and `manualStep`, which records (R133 to R135). -/

namespace Sys2Proof.Machine

/-- `Recorder.start(startAddress, name)` (R260). The block's slots are not cleared. -/
def hostRecorderStart (startAddress : HostNum) (name : Text) (s : State) : State :=
  match startAddress.upTo 190 with
  | none => s.answer (.failed .recordingConfigError)
  | some n =>
    if n % 10 = 0 ∧ validName name then
      ((s.nameWrite (n / 10) (some name)).withCursor (some (Fin.ofNat 201 n))).answer .ok
    else s.answer (.failed .recordingConfigError)

/-- `Recorder.record(id)`: nothing while not active; the slot at the cursor is written through the port, whose
fault leaves the cursor where it is; no block boundary is checked (R261, R262). -/
def State.record (s : State) (id : HostNum) : Except HostFault State :=
  match s.recCursor with
  | none => .ok s
  | some c =>
    match s.portMicrocodeWrite (.int c.val) id with
    | .error f => .error f
    | .ok t => .ok (t.withCursor (some (Fin.ofNat 201 (c.val + 1))))

/-- `Recorder.record(id)` as a command (R261). -/
def hostRecorderRecord (id : HostNum) (s : State) : State := s.conclude (s.record id)

/-- `Recorder.stop()` (R263). -/
def hostRecorderStop (s : State) : State := (s.withCursor none).answer .ok

/-- The id of the dispatch table the host presents, if it is one (R133). -/
def HostNum.dispatchId (x : HostNum) : Option Nat := (x.upTo 19).filter legalId

/-- The end of a step whose recording failed: where the step set Halted, the record says that it did not return `Ok`
(R134, R340). -/
def State.recordFailed (before after : State) : State :=
  { after with ending := if before.halted then after.ending else after.ending.map fun _ => .recordFailed }

/-- `manualStep(id)`: the effect without the auto-increment, whether or not the machine is halted; an unknown id and
a dispatch on opcode 0 are execution faults and are not recorded; a step without a fault is recorded, after its
effect (R133, R134, R135). The gate while Running is the command loop's. -/
def hostManualStep (id : HostNum) (s : State) : State :=
  match id.dispatchId with
  | none => s.takeFault (.invalidMicroOp id s.mc)
  | some n =>
    if n = 5 ∧ s.irOpcode = 0 then s.takeFault (.fetchFault s.ir s.pc s.mc)
    else
      match (effect n s).record id with
      | .error f => (s.recordFailed (effect n s)).answer (.failed f)
      | .ok t => t.answer .ok

end Sys2Proof.Machine
end

