-- ==== Sys2Proof/Machine/CommandLoop.lean ====
section
/-! DEFINITION. How a step of the model runs: the decoded micro-operation of a `microStep`, the macro step with its
dispatch to the decoded macro instruction, the ticks of a run, and the commands of the host with the gate of R242. -/

namespace Sys2Proof.Machine

/-- One micro-step by the decoder and `exec`: nothing on a halted machine (R121), else the instruction the slot at
`MC` holds, or InvalidMicroOp where it holds none (R122, R123, R192). -/
def microStepExec (s : State) : Host.Outcome State Fault Refusal :=
  if s.halted then .next (s.emit .haltedNoOp)
  else
    match decodeSlot s.slotId with
    | .ok i => exec i s
    | .error _ => .next (s.takeFault (.invalidMicroOp (.int s.slotId) s.mc))

/-- The next micro-step is the dispatch of a macro instruction: a machine that is not halted, id 5 in the slot at
`MC` (R193, R210). -/
def State.atDispatch (s : State) : Bool := !s.halted && decide (s.slotId = 5)

/-- The micro-steps of a `macroStep`: at a dispatch the decoded Word of `IR` is executed, which carries the macro step
on; every other slot is one micro-step, with the test of R126 after it. -/
def runMacro : Nat → State → Host.Outcome State Fault Refusal
  | 0, s => .next s
  | n + 1, s =>
    if s.atDispatch then exec (instrOfWord s.ir) s
    else andThen (microStepExec s) fun t => if t.macroEnded then .next t else runMacro n t

/-- Respond `Ok`, unless the step has already answered with a fault. -/
def State.answerOk (s : State) : State :=
  match s.response with
  | none => s.answer .ok
  | some _ => s

/-- The end of a `macroStep` command: `Ok`, or the fault of its last micro-step (R126). Where the macro step has not
ended it stays in progress. -/
def settleMacro (s : State) : State :=
  if s.macroEnded then (s.withProgress .idle).answerOk else s.withProgress .macroStep

/-- The end of a tick: a halted machine ends the run and clears Running, and a fault is the run's report; otherwise
the next tick is scheduled (R129, R131). -/
def settleTick (s : State) : State :=
  if s.macroEnded then
    if s.halted then (s.withProgress .idle).setRunning false else s.withProgress .idle
  else s.withProgress .tick

/-- `microStep()` as a command (R122). -/
def doMicroStep (s : State) : Host.Outcome State Fault Refusal :=
  andThen (microStepExec s) fun t => .next t.answerOk

/-- `macroStep()` as a command, or the rest of one in progress (R126). -/
def doMacroStep (s : State) : Host.Outcome State Fault Refusal :=
  andThen (runMacro Config.burst s) fun t => .next (settleMacro t)

/-- `tick()` of a run, or the rest of one in progress (R129). -/
def doTick (s : State) : Host.Outcome State Fault Refusal :=
  andThen (runMacro Config.burst s) fun t => .next (settleTick t)

/-- The commands accepted while Running: `stop`, the pure reads, and the three store setters where the parameter
admits them (R242). -/
def acceptedWhileRunning (p : Config.Params) : Command → Bool
  | .stop => true
  | .memoryRead _ | .microcodeRead _ | .instructionName _ | .lastUsedAddress | .readState => true
  | .exportSnapshot | .exportRam | .exportMc => true
  | .memoryWrite _ _ | .microcodeWrite _ _ | .setInstructionName _ _ => p.hostWrites == .betweenMacroSteps
  | .microStep | .macroStep | .run _ | .manualStep _ | .resetMachine => false
  | .memoryReset | .microcodeReset => false
  | .insertRowAbove _ _ | .deleteRow _ _ => false
  | .recorderStart _ _ | .recorderRecord _ | .recorderStop => false
  | .importSnapshot _ | .importRam _ | .importMc _ => false

/-- An accepted command (R240). -/
def perform (p : Config.Params) (c : Command) (s : State) : Host.Outcome State Fault Refusal :=
  match c with
  | .microStep => doMicroStep s
  | .macroStep => doMacroStep s
  | .run delay => .next (hostRun delay s)
  | .stop => .next (hostStop s)
  | .manualStep id => .next (hostManualStep id s)
  | .resetMachine => .next (hostResetMachine s)
  | .memoryRead a => .next (hostMemoryRead a s)
  | .memoryWrite a v => .next (hostMemoryWrite a v s)
  | .lastUsedAddress => .next (hostLastUsedAddress s)
  | .memoryReset => .next (hostMemoryReset s)
  | .microcodeRead a => .next (hostMicrocodeRead a s)
  | .microcodeWrite a v => .next (hostMicrocodeWrite a v s)
  | .instructionName k => .next (hostInstructionName k s)
  | .setInstructionName k name => .next (hostSetInstructionName k name s)
  | .microcodeReset => .next (hostMicrocodeReset p s)
  | .insertRowAbove selected fixup => .next (hostInsertRowAbove p selected fixup s)
  | .deleteRow selected fixup => .next (hostDeleteRow p selected fixup s)
  | .recorderStart startAddress name => .next (hostRecorderStart startAddress name s)
  | .recorderRecord id => .next (hostRecorderRecord id s)
  | .recorderStop => .next (hostRecorderStop s)
  | .exportSnapshot => .next (hostExport s)
  | .importSnapshot x => .next (hostImport x s)
  | .importRam lines => .next (hostImportRam lines s)
  | .exportRam => .next (hostExportRam s)
  | .importMc lines => .next (hostImportMc lines s)
  | .exportMc => .next (hostExportMc s)
  | .readState => .next (hostReadState s)

/-- A command the host issues: refused while Running unless the gate lets it pass (R242). -/
def issue (p : Config.Params) (c : Command) (s : State) : Host.Outcome State Fault Refusal :=
  if s.running && !acceptedWhileRunning p c then .next (s.answer .rejectedWhileRunning) else perform p c s

/-- The outputs of the step before are gone (R41). -/
def State.clearOutputs (s : State) : State := { s with response := none, events := [] }

/-- What an idle core does when the host issues no command: the next tick while Running (R129), otherwise nothing
(R243). -/
def doQuiet (s : State) : Host.Outcome State Fault Refusal := if s.running then doTick s else .next s

/-- One step of an idle core, by what the host does first. With nothing in the inbox the step itself is the host's
`microStep()` (R17), or the next tick of a run. -/
def stepIdle (p : Config.Params) (s : State) : Host.Outcome State Fault Refusal :=
  match s.inbox with
  | [] => if s.running then doTick s else doMicroStep s
  | .quiet :: rest => doQuiet (s.withInbox rest)
  | .command c :: rest => issue p c (s.withInbox rest)

/-- One step with the parameters `p`: a macro step in progress goes on, and no command comes between (R75). -/
def stepWith (p : Config.Params) (s : State) : Host.Outcome State Fault Refusal :=
  match s.progress with
  | .idle => stepIdle p s.clearOutputs
  | .macroStep => doMacroStep s.clearOutputs
  | .tick => doTick s.clearOutputs

/-- Store an encoding where the next instruction of its level is fetched, and make the host's next command run it:
a micro-operation in the slot at `MC`, with `microStep`; a Word at `PC`, with `macroStep` and the reference fetch
sequence in the first slots of block 0. A number that is no Word cannot be stored. -/
def State.withEncoding (s : State) (e : Encoding) : State :=
  match e with
  | .slot id =>
    { s with
      microcode := Store.write 0 s.microcode s.mc.val id
      halted := false, ending := none, lastFault := none, running := false, progress := .idle
      inbox := .command .microStep :: s.inbox }
  | .word w =>
    if h : w < 20000 then
      { s with
        memory := Store.write 0 s.memory s.pc.val ⟨w, h⟩
        microcode := Store.write 0 (Store.write 0 (Store.write 0 (Store.write 0 s.microcode 0 8) 1 2) 2 3) 3 5
        mc := 0, halted := false, ending := none, lastFault := none, running := false, progress := .idle
        inbox := .command .macroStep :: s.inbox }
    else s

end Sys2Proof.Machine
end

