-- ==== Sys2Proof/Machine/Step.lean ====
section
/-! DEFINITION. The machine's step and the placement of an instruction for the host's probe; both only call the
command loop. -/

namespace Sys2Proof.Machine

/-- One step of the machine with the parameters of this hardware. -/
def step (s : State) : Host.Outcome State Fault Refusal := stepWith Config.params s

/-- The state with an instruction of the opcode table stored where the very next step fetches and runs it. -/
def State.withFetchWord (s : State) (nbits w : Nat) : State := s.withEncoding (tableEncoding nbits w)

end Sys2Proof.Machine
end

