-- ==== Sys2Proof/Safety.lean ====
section
/-! DEFINITION. What claims about the machine speak of: the invariants of R40, how a run stands and ends (R34, R340),
what a block of Microcode holds (R97), and what a step leaves alone. -/

namespace Sys2Proof.Machine

/-- Memory is in canonical form: addresses 0 to 999 rising, no zero word listed. -/
def Memory.wf (m : Memory) : Bool := Store.wf 0 1000 m

/-- Microcode is in canonical form and holds ids of {0..5, 7..19} only (R36, R40). -/
def Microcode.wf (m : Microcode) : Bool := Store.wf 0 200 m && m.all fun e => legalId e.2

/-- The name table is in canonical form and every name has 1 to 5 characters (R37, R40). -/
def NameTable.wf (m : NameTable) : Bool := Store.wf none 20 m && m.all fun e => e.2.all validName

/-- The three stores of the parameters meet the invariants of R40. -/
def paramsWf (p : Config.Params) : Bool :=
  Memory.wf p.ramInit && Microcode.wf p.mcDefault && NameTable.wf p.namesDefault

/-- A macro step in progress has not ended, and belongs to a `macroStep` command or to a run (R34, R126, R129). -/
def State.progressOk (s : State) : Bool :=
  match s.progress with
  | .idle => true
  | .macroStep => !s.running && !s.macroEnded
  | .tick => s.running && !s.macroEnded

/-- The invariants of R40, with those of the model's own fields: the progress, that a machine with an execution fault
on record is halted (R296, R299), and that the machine is halted exactly if it has a record of its end (R340). The
bounds of the registers are those of their types. -/
def State.inv (s : State) : Bool :=
  Memory.wf s.memory && Microcode.wf s.microcode && NameTable.wf s.names && s.progressOk &&
    (s.lastFault.isNone || s.halted) && s.ending.isSome == s.halted

/-- The sequencer's states, derived from the flags and from a command in progress (R34). -/
inductive Phase where
  | idle
  | stepping
  | halted
deriving DecidableEq, Repr

/-- The phase a state is in (R34). DESIGN CHOICE: R34 gives Halted by its flag and Stepping while Running is true, with
no priority between them; a machine that is both (a run just issued on a halted machine, R130) is Halted here. See log
entry 21. -/
def State.phase (s : State) : Phase :=
  if s.halted then .halted else if s.running || decide (s.progress ≠ .idle) then .stepping else .idle

/-- A run has ended (R340). -/
def State.ended (s : State) : Bool := s.halted

/-- It ended normally: the step that set Halted was id 19 and returned `Ok` (R306, R340). -/
def State.endedNormally (s : State) : Bool := s.halted && decide (s.ending = some .halt)

/-- It ended by a fault: the step that set Halted returned an execution fault (R306, R340). -/
def State.endedByFault (s : State) : Bool :=
  s.halted &&
    match s.ending with
    | some (.fault _) => true
    | _ => false

/-- Block `k` of Microcode holds the ids listed and then zeros (R97). -/
abbrev State.blockIs (s : State) (k : Nat) (ids : List Nat) : Prop :=
  ∀ i, i < 10 → s.mcRead (10 * k + i) = ids.getD i 0

/-- Every register but those listed is as before. -/
abbrev KeepsRegsBut (written : List Reg) (s t : State) : Prop :=
  (written.contains .ab = false → t.ab = s.ab) ∧ (written.contains .db = false → t.db = s.db) ∧
  (written.contains .acc = false → t.acc = s.acc) ∧ (written.contains .pc = false → t.pc = s.pc) ∧
  (written.contains .ir = false → t.ir = s.ir) ∧ (written.contains .mc = false → t.mc = s.mc)

/-- Every word of Memory is as before. -/
abbrev KeepsMemory (s t : State) : Prop := ∀ a, t.memRead a = s.memRead a

/-- What no instruction touches: Running, RecCursor, Microcode and the name table (R201, R302), and the model's own
inbox and progress. -/
abbrev KeepsHostState (s t : State) : Prop :=
  t.running = s.running ∧ t.recCursor = s.recCursor ∧ t.microcode = s.microcode ∧ t.names = s.names ∧
  t.inbox = s.inbox ∧ t.progress = s.progress

/-- No halt and no fault: Halted, the response and the records of faults and of the end are as before. -/
abbrev KeepsOutcome (s t : State) : Prop :=
  t.halted = s.halted ∧ t.response = s.response ∧ t.lastFault = s.lastFault ∧ t.ending = s.ending

/-- The machine is idle, and the host's next input is the command `c`. -/
abbrev State.asks (s : State) (c : Command) : Prop :=
  s.progress = .idle ∧ s.inbox.head? = some (.command c)

/-- `MC` advances by one, and stays at 199 (R27). -/
abbrev AdvancesMc (s t : State) : Prop := t.mc.val = min (s.mc.val + 1) 199

/-- What the step added to the notifications, in no stated order. -/
abbrev Emits (s t : State) (P : List Event → Prop) : Prop := ∃ es, t.events = s.events ++ es ∧ P es

/-- The instruction completes: `exec` answers a next state that meets `P`, in which every register but those listed,
all of Memory, LastAccessed, the host's state, Halted and the fault record are as before. -/
abbrev CompletesWith (i : Instr) (s : State) (written : List Reg) (P : State → Prop) : Prop :=
  ∃ t, exec i s = .next t ∧ P t ∧ KeepsRegsBut written s t ∧ KeepsMemory s t ∧ t.lastAccessed = s.lastAccessed ∧
    KeepsHostState s t ∧ KeepsOutcome s t

/-- Halted is set: a machine that was not halted has `e` on record as its end, one that was keeps its record (R340). -/
abbrev Halts (e : Ending) (s t : State) : Prop :=
  t.halted = true ∧ t.ending = if s.halted then s.ending else some e

/-- A fault is taken: Halted is set, the fault is the response and is kept on record, and nothing else changes
(R125, R296). -/
abbrev TakesFault (f : ExecFault) (s t : State) : Prop :=
  Halts (.fault f) s t ∧ t.response = some (.execFault f) ∧ t.lastFault = some f ∧ KeepsRegsBut [] s t ∧
  t.memory = s.memory ∧ t.lastAccessed = s.lastAccessed ∧ KeepsHostState s t

/-- What the step that performs micro-steps of a `macroStep` command makes of the state `u` they leave: the command
ends, with `Ok` or the fault, if the loop's test holds (R126), and otherwise stays in progress (log entry 2). -/
abbrev EndsMacroStep (u t : State) : Prop :=
  t.toArch = u.toArch ∧ t.inbox = u.inbox ∧ t.events = u.events ∧ t.lastFault = u.lastFault ∧ t.ending = u.ending ∧
  (u.macroEnded = true → t.progress = .idle ∧ t.response = some (u.response.getD .ok)) ∧
  (u.macroEnded = false → t.progress = .macroStep ∧ t.response = u.response)

/-- What the step that performs micro-steps of a tick makes of the state `u` they leave: where the loop's test holds
the tick ends, and the run with it exactly if the machine is halted (R129); otherwise the tick stays in progress (log
entry 2). -/
abbrev EndsTick (u t : State) : Prop :=
  t.toArch = { u.toArch with running := t.running } ∧ t.inbox = u.inbox ∧ t.response = u.response ∧
  t.lastFault = u.lastFault ∧ t.ending = u.ending ∧
  (u.macroEnded = true → t.progress = .idle ∧ t.running = !u.halted) ∧
  (u.macroEnded = false → t.progress = .tick ∧ t.running = true) ∧
  t.events = u.events ++ if u.halted then [.runChanged false] else []

/-- A fix-up looks at the operand of the word `w` (R254): its opcode is neither 0 nor `HLT_OPCODE`, and its operand is
at least the selected row. -/
abbrev fixUpSelects (hlt : Opcode) (sel w : Nat) : Prop := w / 1000 ≠ 0 ∧ w / 1000 ≠ hlt.val ∧ sel ≤ w % 1000

/-- The operand of `w`, moved by `delta`, is an address (R254). -/
abbrev fixUpFits (delta : Int) (w : Nat) : Prop :=
  0 ≤ ((w % 1000 : Nat) : Int) + delta ∧ ((w % 1000 : Nat) : Int) + delta ≤ 999

/-- The word a fix-up leaves where `w` stood (R254). -/
def fixedUp (hlt : Opcode) (sel : Nat) (delta : Int) (w : Nat) : Nat :=
  if fixUpSelects hlt sel w ∧ fixUpFits delta w then w / 1000 * 1000 + (((w % 1000 : Nat) : Int) + delta).toNat else w

/-- The word at `x` after a row is opened at `sel` (R250). -/
def State.rowInserted (s : State) (sel x : Nat) : Word :=
  if x < sel then s.memRead x else if x = sel then 0 else s.memRead (x - 1)

/-- The word at `x` after the row at `sel` is removed (R252). -/
def State.rowDeleted (s : State) (sel x : Nat) : Word := if x < sel then s.memRead x else s.memRead (x + 1)

/-- The memory of `t` is the words `word`, with the fix-up applied to each if it is enabled; the addresses whose operand
would leave 0 to 999 are notified, and no others (R254). -/
abbrev HoldsRows (fixup : Bool) (hlt : Opcode) (sel : Nat) (delta : Int) (word : Nat → Word) (t : State) : Prop :=
  ∀ x, (t.memRead x).val = (if fixup then fixedUp hlt sel delta (word x).val else (word x).val) ∧
    (Event.fixUpSkipped x ∈ t.events ↔
      fixup = true ∧ fixUpSelects hlt sel (word x).val ∧ ¬ fixUpFits delta (word x).val)

/-- The command is refused by the gate (R242): `RejectedWhileRunning`, with nothing changed and nothing notified. -/
abbrev IsRejected (p : Config.Params) (s : State) : Prop :=
  ∃ t, stepWith p s = .next t ∧ t.toArch = s.toArch ∧ t.response = some .rejectedWhileRunning ∧ t.events = [] ∧
    t.lastFault = s.lastFault ∧ t.ending = s.ending ∧ t.inbox = s.inbox.tail ∧ t.progress = .idle

/-- The registers an id writes under `microStep` (the matrix of R24, with the auto-increment). -/
def writtenBy : Nat → List Reg
  | 2 | 15 => [.db, .mc]
  | 3 => [.ir, .mc]
  | 4 | 8 => [.ab, .mc]
  | 9 | 10 | 11 => [.pc, .mc]
  | 12 | 13 | 14 | 16 | 17 | 18 => [.acc, .mc]
  | 1 | 5 | 7 => [.mc]
  | _ => []

/-- The ids of the reference blocks 0 to 10 (the table of R216), for use as a premise: no claim rests on what
`Config` holds. -/
def referenceBlock : Nat → List Nat
  | 0 => [8, 2, 3, 5]
  | 1 => [4, 2, 18, 9, 7]
  | 2 => [4, 2, 13, 9, 7]
  | 3 => [4, 2, 14, 9, 7]
  | 4 => [4, 15, 1, 9, 7]
  | 5 => [11, 7]
  | 6 => [4, 2, 18, 10, 9, 7]
  | 7 => [4, 2, 18, 16, 15, 1, 9, 7]
  | 8 => [4, 2, 18, 17, 15, 1, 9, 7]
  | 9 => [4, 12, 15, 1, 9, 7]
  | 10 => [19]
  | _ => []

/-- The micro-steps of one macro step under the reference blocks, the fetch included (R231). -/
def referenceSteps : Nat → Nat
  | 1 | 2 | 3 | 4 => 9
  | 5 => 6
  | 6 | 9 => 10
  | 7 | 8 => 12
  | 10 => 5
  | _ => 0

/-- `min(p + 1, 999)` (the `p1` of R233). -/
def nextPc (p : Nat) : Nat := min (p + 1) 999

/-- Every word of Memory but that of one address is as before, and that one is `v`. -/
abbrev StoresOnly (a : Nat) (v : Nat) (s t : State) : Prop :=
  (t.memRead a).val = v ∧ ∀ x, x ≠ a → t.memRead x = s.memRead x

/-- The net effect of the macro instruction with opcode `k` and operand `a`, from `s` to `t`, as R219 to R229 state
it for the reference blocks. -/
def NetEffect (k : Nat) (a : Addr) (s t : State) : Prop :=
  let m := (s.memRead a.val).val
  let p1 := nextPc s.pc.val
  t.ir.val = 1000 * k + a.val ∧
  match k with
  | 1 => t.acc.val = m ∧ t.pc.val = p1 ∧ t.ab = a ∧ t.db.val = m ∧ t.mc = 0 ∧ t.halted = false ∧ KeepsMemory s t
  | 2 => t.acc.val = min (s.acc.val + m) 19999 ∧ t.pc.val = p1 ∧ t.ab = a ∧ t.db.val = m ∧ t.mc = 0 ∧
      t.halted = false ∧ KeepsMemory s t
  | 3 => t.acc.val = s.acc.val - m ∧ t.pc.val = p1 ∧ t.ab = a ∧ t.db.val = m ∧ t.mc = 0 ∧ t.halted = false ∧
      KeepsMemory s t
  | 4 => t.acc = s.acc ∧ t.pc.val = p1 ∧ t.ab = a ∧ t.db = s.acc ∧ t.mc = 0 ∧ t.halted = false ∧
      t.lastAccessed = some a ∧ StoresOnly a.val s.acc.val s t
  | 5 => t.acc = s.acc ∧ t.pc = a ∧ t.ab = s.pc ∧ t.db.val = 5000 + a.val ∧ t.mc = 0 ∧ t.halted = false ∧
      KeepsMemory s t
  | 6 => t.acc.val = m ∧ t.pc.val = (if m = 0 then nextPc p1 else p1) ∧ t.ab = a ∧ t.db.val = m ∧ t.mc = 0 ∧
      t.halted = false ∧ KeepsMemory s t
  | 7 => t.acc.val = min (m + 1) 19999 ∧ t.pc.val = p1 ∧ t.ab = a ∧ t.db = t.acc ∧ t.mc = 0 ∧ t.halted = false ∧
      t.lastAccessed = some a ∧ StoresOnly a.val (min (m + 1) 19999) s t
  | 8 => t.acc.val = m - 1 ∧ t.pc.val = p1 ∧ t.ab = a ∧ t.db = t.acc ∧ t.mc = 0 ∧ t.halted = false ∧
      t.lastAccessed = some a ∧ StoresOnly a.val (m - 1) s t
  | 9 => t.acc = 0 ∧ t.pc.val = p1 ∧ t.ab = a ∧ t.db = 0 ∧ t.mc = 0 ∧ t.halted = false ∧
      t.lastAccessed = some a ∧ StoresOnly a.val 0 s t
  | _ => t.acc = s.acc ∧ t.pc = s.pc ∧ t.ab = s.pc ∧ t.db.val = 1000 * k + a.val ∧ t.mc.val = 10 * k ∧
      t.halted = true ∧ KeepsMemory s t

/-- The state after the reference fetch sequence's slots 0 to 2 (8, 2, 3), at the dispatch in slot 3 (R218). -/
def State.fetched (s : State) : State :=
  (effDb2ir (effRam2db (effPc2ab s).autoIncrement).autoIncrement).autoIncrement

end Sys2Proof.Machine
end

