-- ==== Sys2Proof/Certificates/Slice0/Obligations.lean ====
section
/-! DEFINITION. The statements for the provers. A rule of the spec that carries a mark [decision] or [derived] is the
spec's own inference: a statement that rests on one says so, and its basis is 'derived'. -/

open Sys2Proof Sys2Proof.Machine

/-! ## Encoding -/

/-- Decoding the encoding of a well-formed instruction gives the instruction back, for all 40 rows of the table with
every operand the encoding admits (R91, R92, R95, R96, R100). -/
def Obligations.DecodeOfEncodeIsIdentity : Prop :=
  ∀ i : Instr, i.wellFormed = true → decode (encode i) = .ok i

/-- What decodes is the encoding of one well-formed instruction only, so that no two instructions share a slot value or
a Word; and the decoder refuses exactly what the opcode table does not hold: ids of 20 and more, and numbers above 19999
(R90, R91, R96). That id 6 decodes, to an instruction that only faults, rests on the row R100 gives it and is the
model's reading (DEDUCED, log entry 12): R96 calls it reserved and gives it no effect. -/
def Obligations.DecodingIsUnambiguousAndTotal : Prop :=
  (∀ (e : Encoding) (i : Instr), decode e = .ok i → i.wellFormed = true ∧ encode i = e) ∧
  (∀ id, (∃ i, decode (.slot id) = .ok i) ↔ id < 20) ∧ (∀ w, (∃ i, decode (.word w) = .ok i) ↔ w < 20000)

/-- The pack identity (R92), for every Word, opcode and operand. -/
def Obligations.PackOfUnpackIsIdentity : Prop :=
  (∀ w : Word, (opcodeOf w).val = w.val / 1000 ∧ (operandOf w).val = w.val % 1000 ∧
    (opcodeOf w).val * 1000 + (operandOf w).val = w.val ∧ packWord (opcodeOf w) (operandOf w) = w) ∧
  (∀ (o : Opcode) (a : Addr), (packWord o a).val = o.val * 1000 + a.val ∧ opcodeOf (packWord o a) = o ∧
    operandOf (packWord o a) = a)

/-- Words and ids written out from the spec's tables (R96, and the table of vectors 2.1) decode to the instructions
they stand for. -/
def Obligations.DecoderReadsTheSpecsWords : Prop :=
  decode (.word 1010) = .ok (.take 10) ∧ decode (.word 2011) = .ok (.add 11) ∧ decode (.word 4012) = .ok (.save 12) ∧
  decode (.word 5999) = .ok (.jmp 999) ∧ decode (.word 9006) = .ok (.null 6) ∧
  decode (.word 10999) = .ok (.hlt 999) ∧ decode (.word 999) = .ok (.fetch 999) ∧
  decode (.word 19999) = .ok (.op19 999) ∧ decode (.slot 2) = .ok .ram2db ∧ decode (.slot 5) = .ok .ir2mc ∧
  decode (.slot 13) = .ok .plus ∧ decode (.slot 19) = .ok .halt

/-! ## Micro-operations under microStep -/

/-- Id 1 (R150): the word at `AB` becomes `DB`, every other word stays; `LastAccessed` is `AB`, `MemoryChanged(AB)` is
emitted, `MC` advances, and nothing else changes. -/
def Obligations.StoreWritesDataBusAtAddressBus : Prop :=
  ∀ s : State, Memory.wf s.memory = true →
    ∃ t, exec .db2ram s = .next t ∧ StoresOnly s.ab.val s.db.val s t ∧ t.lastAccessed = some s.ab ∧ AdvancesMc s t ∧
      Emits s t (fun es => Event.memoryChanged s.ab.val ∈ es) ∧ KeepsRegsBut [.mc] s t ∧ KeepsHostState s t ∧
      KeepsOutcome s t

/-- Id 2 (R151): `DB` becomes the word at `AB`; Memory is unchanged, `LastAccessed` is `AB`, `MC` advances. -/
def Obligations.LoadReadsMemoryAtAddressBus : Prop :=
  ∀ s : State, ∃ t, exec .ram2db s = .next t ∧ t.db = s.memRead s.ab.val ∧ t.lastAccessed = some s.ab ∧
    AdvancesMc s t ∧ KeepsRegsBut [.db, .mc] s t ∧ KeepsMemory s t ∧ KeepsHostState s t ∧ KeepsOutcome s t

/-- Ids 3, 4, 8 and 15 (R152 to R155): the destination takes its source's value, `MC` advances, and nothing else
changes. -/
def Obligations.RegisterTransfersCopyTheirSource : Prop :=
  ∀ s : State,
    CompletesWith .db2ir s [.ir, .mc] (fun t => t.ir = s.db ∧ AdvancesMc s t) ∧
    CompletesWith .ir2ab s [.ab, .mc] (fun t => t.ab.val = s.ir.val % 1000 ∧ AdvancesMc s t) ∧
    CompletesWith .pc2ab s [.ab, .mc] (fun t => t.ab = s.pc ∧ AdvancesMc s t) ∧
    CompletesWith .acc2db s [.db, .mc] (fun t => t.db = s.acc ∧ AdvancesMc s t)

/-- Ids 12, 13, 14, 16, 17 and 18 (R170 to R175): exact results, saturating at 19999 and at 0, with `Normalized(ACC)`
emitted exactly when the value was clamped; `MC` advances and nothing else changes. -/
def Obligations.AccumulatorArithmeticSaturates : Prop :=
  ∀ s : State,
    CompletesWith .acc0 s [.acc, .mc] (fun t => t.acc = 0 ∧ AdvancesMc s t ∧
      Emits s t (fun es => Event.normalized .acc ∉ es)) ∧
    CompletesWith .plus s [.acc, .mc] (fun t => t.acc.val = min (s.acc.val + s.db.val) 19999 ∧ AdvancesMc s t ∧
      Emits s t (fun es => Event.normalized .acc ∈ es ↔ 19999 < s.acc.val + s.db.val)) ∧
    CompletesWith .minus s [.acc, .mc] (fun t => (t.acc.val : Int) = max ((s.acc.val : Int) - s.db.val) 0 ∧
      AdvancesMc s t ∧ Emits s t (fun es => Event.normalized .acc ∈ es ↔ s.acc.val < s.db.val)) ∧
    CompletesWith .accinc s [.acc, .mc] (fun t => t.acc.val = min (s.acc.val + 1) 19999 ∧ AdvancesMc s t ∧
      Emits s t (fun es => Event.normalized .acc ∈ es ↔ s.acc.val = 19999)) ∧
    CompletesWith .accdec s [.acc, .mc] (fun t => (t.acc.val : Int) = max ((s.acc.val : Int) - 1) 0 ∧ AdvancesMc s t ∧
      Emits s t (fun es => Event.normalized .acc ∈ es ↔ s.acc.val = 0)) ∧
    CompletesWith .db2acc s [.acc, .mc] (fun t => t.acc = s.db ∧ AdvancesMc s t ∧
      Emits s t (fun es => Event.normalized .acc ∉ es))

/-- Ids 9, 10 and 11 (R196 to R198): `PC` counts up and stays at 999, id 10 only when `ACC` is 0; id 11 takes the
operand of `IR`. `Normalized(PC)` is emitted exactly when the count met 999; `MC` advances in every case. -/
def Obligations.ProgramCounterMovesAsStated : Prop :=
  ∀ s : State,
    CompletesWith .pcinc s [.pc, .mc] (fun t => t.pc.val = min (s.pc.val + 1) 999 ∧ AdvancesMc s t ∧
      Emits s t (fun es => Event.normalized .pc ∈ es ↔ s.pc.val = 999)) ∧
    CompletesWith .skipz s [.pc, .mc] (fun t =>
      t.pc.val = (if s.acc.val = 0 then min (s.pc.val + 1) 999 else s.pc.val) ∧ AdvancesMc s t ∧
      Emits s t (fun es => Event.normalized .pc ∈ es ↔ s.acc.val = 0 ∧ s.pc.val = 999)) ∧
    CompletesWith .ir2pc s [.pc, .mc] (fun t => t.pc.val = s.ir.val % 1000 ∧ AdvancesMc s t)

/-- Id 7 (R194): `MC` is exactly 0 and nothing else changes. -/
def Obligations.EndOfInstructionClearsMicroCodeCounter : Prop :=
  ∀ s : State, CompletesWith .mc0 s [.mc] (fun t => t.mc = 0)

/-- Id 5 (R193): with an opcode of 1 or more `MC` is ten times the opcode and nothing else changes; with opcode 0,
that is with `IR` below 1000, FetchFault is taken and `MC` keeps its value (what a faulting step leaves is the spec's
decision D9). That the fault is a next state, with the fault and the end on record, is the model's choice, log entry
5. -/
def Obligations.DispatchJumpsToTheOpcodesBlock : Prop :=
  ∀ s : State,
    (1000 ≤ s.ir.val → CompletesWith .ir2mc s [.mc] (fun t => t.mc.val = s.ir.val / 1000 * 10)) ∧
    (s.ir.val < 1000 → ∃ t, exec .ir2mc s = .next t ∧ TakesFault (.fetchFault s.ir s.pc s.mc) s t)

/-- Id 19 (R199): Halted is set and `HaltChanged(true)` emitted; `MC` is neither incremented nor reset, and nothing
else changes, the response and the fault record included. A machine that was not halted has this halt on record as its
end (the model's record, log entry 5). -/
def Obligations.HaltSetsHaltedAndNothingElse : Prop :=
  ∀ s : State, ∃ t, exec .halt s = .next t ∧ Halts .halt s t ∧ Emits s t (fun es => Event.haltChanged true ∈ es) ∧
    t.response = s.response ∧ t.lastFault = s.lastFault ∧ KeepsRegsBut [] s t ∧ KeepsMemory s t ∧
    t.lastAccessed = s.lastAccessed ∧ KeepsHostState s t

/-- The matrix of R24 (derived there from the dispatch table), for a step that takes no fault: a `microStep` writes no
register but those its id's row lists and `MC`, and no word of Memory unless the id is 1. -/
def Obligations.MicroStepWritesOnlyTheRegistersOfItsRow : Prop :=
  ∀ s : State, s.halted = false →
    KeepsRegsBut (writtenBy s.slotId) s (microStep s) ∧ (s.slotId ≠ 1 → (microStep s).memory = s.memory) ∧
    (s.slotId ≠ 1 → s.slotId ≠ 2 → (microStep s).lastAccessed = s.lastAccessed) ∧ KeepsHostState s (microStep s)

/-- `Normalized(MC)` is emitted by the auto-increment exactly at slot 199, where `MC` stays (R27; R124, the spec's
decision D30). -/
def Obligations.AutoIncrementNormalizesOnlyAtTheTop : Prop :=
  ∀ s : State, s.halted = false → increments s.slotId = true →
    AdvancesMc s (microStep s) ∧
    Emits s (microStep s) (fun es => (Event.normalized .mc ∈ es ↔ s.mc.val = 199) ∧ Event.registerChanged .mc ∈ es)

/-! ## The sequencer -/

/-- The micro-step of the machine, which decodes the slot and runs `exec`, is the `microStep` of R123 (whose order of
checks is the spec's decision D18), in every state. -/
def Obligations.MicroStepIsTheSpecsProcedure : Prop :=
  ∀ s : State, microStepExec s = .next (microStep s)

/-- A `microStep` on a halted machine (R121): no state changes, HaltedNoOp is emitted, and the command returns Ok. -/
def Obligations.MicroStepOnHaltedMachineIsNoOp : Prop :=
  ∀ s : State, s.asks .microStep → s.halted = true → s.running = false →
    ∃ t, step s = .next t ∧ t.toArch = s.toArch ∧ t.events = [.haltedNoOp] ∧ t.response = some .ok ∧
      t.lastFault = s.lastFault ∧ t.inbox = s.inbox.tail ∧ t.progress = .idle

/-- A step runs the decoded micro-operation: on an idle machine that is neither halted nor running, with `microStep`
asked for, or with nothing asked for (the model's convention, log entry 1), a slot that decodes to `i` makes the step
`exec i` on the state without the outputs of the step before and without the command, and then Ok is the response
unless a fault is. -/
def Obligations.StepRunsTheDecodedMicroOp : Prop :=
  ∀ (s : State) (i : Instr), (s.asks .microStep ∨ s.progress = .idle ∧ s.inbox = []) → s.halted = false →
    s.running = false → decodeSlot s.slotId = .ok i →
    ∃ t, exec i (s.clearOutputs.withInbox s.inbox.tail) = .next t ∧ step s = .next t.answerOk

/-- A step runs the decoded macro instruction: with `macroStep` asked for at `MC = 0` and the reference fetch sequence
in block 0, a word at `PC` that decodes to `i` makes the step the fetch (R218), then `exec i`, then the end of the
macro step (R126, the spec's decision D13). How `exec` of a macro instruction starts is the model's choice, log entry
3. -/
def Obligations.StepRunsTheDecodedWord : Prop :=
  ∀ (s : State) (i : Instr), s.asks .macroStep → s.halted = false → s.running = false → s.mc = 0 →
    s.blockIs 0 (referenceBlock 0) → decode (.word (s.memRead s.pc.val).val) = .ok i →
    ∃ t, exec i (s.clearOutputs.withInbox s.inbox.tail).fetched = .next t ∧ step s = .next (settleMacro t)

/-- The loop of `macroStep` (R126, the spec's decision D13) is `microStep` iterated: at most `Config.burst` micro-steps
before the dispatch and again after it are done at once, `n >= 1` in all; the loop's test holds after none but the last,
and it holds after the last unless at least `Config.burst` were performed. The step on a `macroStep` command does this
and ends the command, with `Ok` or the fault, if the test holds; if not, the macro step stays in progress, and the next
step goes on with it and takes no command (R75; R127 (e), derived there). That it is done in bursts, with a macro step
in progress between them, is the model's choice, log entry 2. -/
def Obligations.MacroStepIteratesMicroStep : Prop :=
  ∀ s : State,
    (∃ (t : State) (n : Nat), runMacro Config.burst s = .next t ∧ 1 ≤ n ∧ t = microStep^[n] s ∧
      (∀ j, 1 ≤ j → j < n → (microStep^[j] s).macroEnded = false) ∧ (t.macroEnded = true ∨ Config.burst ≤ n)) ∧
    (s.asks .macroStep → s.running = false →
      ∃ u t, runMacro Config.burst (s.clearOutputs.withInbox s.inbox.tail) = .next u ∧ step s = .next t ∧
        EndsMacroStep u t ∧ t.inbox = s.inbox.tail) ∧
    (s.progress = .macroStep →
      ∃ u t, runMacro Config.burst s.clearOutputs = .next u ∧ step s = .next t ∧ EndsMacroStep u t ∧ t.inbox = s.inbox)

/-- Only id 7 brings `MC` back to 0 (R127 (c), derived there). -/
def Obligations.OnlyIdSevenReturnsToSlotZero : Prop :=
  ∀ s : State, s.mc ≠ 0 → (microStep s).mc = 0 → s.slotId = 7 ∧ s.halted = false

/-- Microcode that never returns hangs, and is not bounded (R127 (e), R343, R345, derived there and from the spec's
decision D30): with id 5 in the first slot of the block of the opcode in `IR`, every number of micro-steps leaves the
machine where it was; with an incrementing id in slot 199, every number of them leaves `MC` at 199 and the machine not
halted. -/
def Obligations.NonReturningMicrocodeHangs : Prop :=
  (∀ (s : State) (n : Nat), s.halted = false → 1000 ≤ s.ir.val → s.mc.val = s.ir.val / 1000 * 10 → s.slotId = 5 →
    (microStep^[n] s).toArch = s.toArch) ∧
  (∀ (s : State) (n : Nat), s.halted = false → s.mc.val = 199 → increments s.slotId = true →
    (microStep^[n] s).mc.val = 199 ∧ (microStep^[n] s).halted = false)

/-! ## Macro instructions: `exec` from the dispatch on, under the reference blocks -/

/-- A Word of opcode 0 is no instruction (R99, R212, R218): its dispatch takes FetchFault, whatever Microcode holds;
`IR` holds the Word. That `exec` starts at the dispatch is the model's choice, log entry 3; that the fault is a next
state, with the fault and the end on record, is the model's choice, log entry 5. -/
def Obligations.OpcodeZeroTakesFetchFault : Prop :=
  ∀ (s : State) (a : Nat), a < 1000 →
    ∃ t, exec (.fetch a) s = .next t ∧ t.ir.val = a ∧
      TakesFault (.fetchFault t.ir s.pc s.mc) (s.withIr t.ir) t

/-- TAKE, ADD and SUB (R219 to R221, derived there from R216) with their reference blocks: the accumulator takes the
loaded, the saturated sum or the saturated difference; `PC` advances; `AB`, `DB`, `IR` and `MC` end as stated; Memory
is unchanged. -/
def Obligations.TakeAddSubLoadAndCompute : Prop :=
  ∀ (s : State) (a : Nat), a < 1000 → s.halted = false →
    (s.blockIs 1 [4, 2, 18, 9, 7] → ∃ t, exec (.take a) s = .next t ∧ t.acc = s.memRead a ∧
      t.pc.val = min (s.pc.val + 1) 999 ∧ t.ab.val = a ∧ t.db = s.memRead a ∧ t.ir.val = 1000 + a ∧ t.mc = 0 ∧
      KeepsMemory s t ∧ t.lastAccessed = some t.ab ∧ KeepsHostState s t ∧ KeepsOutcome s t) ∧
    (s.blockIs 2 [4, 2, 13, 9, 7] → ∃ t, exec (.add a) s = .next t ∧
      t.acc.val = min (s.acc.val + (s.memRead a).val) 19999 ∧
      t.pc.val = min (s.pc.val + 1) 999 ∧ t.ab.val = a ∧ t.db = s.memRead a ∧ t.ir.val = 2000 + a ∧ t.mc = 0 ∧
      KeepsMemory s t ∧ t.lastAccessed = some t.ab ∧ KeepsHostState s t ∧ KeepsOutcome s t) ∧
    (s.blockIs 3 [4, 2, 14, 9, 7] → ∃ t, exec (.sub a) s = .next t ∧
      (t.acc.val : Int) = max ((s.acc.val : Int) - (s.memRead a).val) 0 ∧
      t.pc.val = min (s.pc.val + 1) 999 ∧ t.ab.val = a ∧ t.db = s.memRead a ∧ t.ir.val = 3000 + a ∧ t.mc = 0 ∧
      KeepsMemory s t ∧ t.lastAccessed = some t.ab ∧ KeepsHostState s t ∧ KeepsOutcome s t)

/-- SAVE (R222, derived there from R216) with its reference block: the accumulator is stored at the operand, and no
other word changes. -/
def Obligations.SaveStoresTheAccumulator : Prop :=
  ∀ (s : State) (a : Nat), a < 1000 → s.halted = false → Memory.wf s.memory = true →
    s.blockIs 4 [4, 15, 1, 9, 7] → ∃ t, exec (.save a) s = .next t ∧ StoresOnly a s.acc.val s t ∧ t.acc = s.acc ∧
      t.pc.val = min (s.pc.val + 1) 999 ∧ t.ab.val = a ∧ t.db = s.acc ∧ t.ir.val = 4000 + a ∧ t.mc = 0 ∧
      t.lastAccessed = some t.ab ∧ KeepsHostState s t ∧ KeepsOutcome s t

/-- JMP and TST (R227 and R223, derived there from R216) with their reference blocks. JMP: `PC` is the operand, and
`AB`, `DB`, `ACC` and Memory are as the fetch left them. TST: the word at the operand goes through `ACC`, and the next
instruction is skipped exactly when it is 0; `PC` stays within 999. -/
def Obligations.JumpAndTestMoveTheProgramCounter : Prop :=
  ∀ (s : State) (a : Nat), a < 1000 → s.halted = false →
    (s.blockIs 5 [11, 7] →
      CompletesWith (.jmp a) s [.pc, .ir, .mc] (fun t => t.pc.val = a ∧ t.ir.val = 5000 + a ∧ t.mc = 0)) ∧
    (s.blockIs 6 [4, 2, 18, 10, 9, 7] →
      ∃ t, exec (.tst a) s = .next t ∧ t.acc = s.memRead a ∧
        t.pc.val = (if (s.memRead a).val = 0 then min (s.pc.val + 2) 999 else min (s.pc.val + 1) 999) ∧
        t.ab.val = a ∧ t.db = s.memRead a ∧ t.ir.val = 6000 + a ∧ t.mc = 0 ∧ KeepsMemory s t ∧
        t.lastAccessed = some t.ab ∧ KeepsHostState s t ∧ KeepsOutcome s t)

/-- INC, DEC and NULL (R224, R225, R228, derived there from R216) with their reference blocks: the word at the operand
and the accumulator both become the saturated successor, the saturated predecessor or 0, and no other word changes. -/
def Obligations.IncDecNullRewriteTheirWord : Prop :=
  ∀ (s : State) (a : Nat), a < 1000 → s.halted = false → Memory.wf s.memory = true →
    (s.blockIs 7 [4, 2, 18, 16, 15, 1, 9, 7] → ∃ t, exec (.inc a) s = .next t ∧
      StoresOnly a (min ((s.memRead a).val + 1) 19999) s t ∧ t.acc = t.memRead a ∧ t.db = t.memRead a ∧
      t.pc.val = min (s.pc.val + 1) 999 ∧ t.ab.val = a ∧ t.ir.val = 7000 + a ∧ t.mc = 0 ∧
      t.lastAccessed = some t.ab ∧ KeepsHostState s t ∧ KeepsOutcome s t) ∧
    (s.blockIs 8 [4, 2, 18, 17, 15, 1, 9, 7] → ∃ t, exec (.dec a) s = .next t ∧
      StoresOnly a ((s.memRead a).val - 1) s t ∧ t.acc = t.memRead a ∧ t.db = t.memRead a ∧
      t.pc.val = min (s.pc.val + 1) 999 ∧ t.ab.val = a ∧ t.ir.val = 8000 + a ∧ t.mc = 0 ∧
      t.lastAccessed = some t.ab ∧ KeepsHostState s t ∧ KeepsOutcome s t) ∧
    (s.blockIs 9 [4, 12, 15, 1, 9, 7] → ∃ t, exec (.null a) s = .next t ∧
      StoresOnly a 0 s t ∧ t.acc = 0 ∧ t.db = 0 ∧
      t.pc.val = min (s.pc.val + 1) 999 ∧ t.ab.val = a ∧ t.ir.val = 9000 + a ∧ t.mc = 0 ∧
      t.lastAccessed = some t.ab ∧ KeepsHostState s t ∧ KeepsOutcome s t)

/-- HLT (R229, derived there from R216) with its reference block: Halted is set with no fault, whatever the operand;
`PC` is not advanced and `MC` is left at 100. The record of this end is the model's, log entry 5. -/
def Obligations.HltHaltsWithItsOperandIgnored : Prop :=
  ∀ (s : State) (a : Nat), a < 1000 → s.halted = false → s.blockIs 10 [19] →
    ∃ t, exec (.hlt a) s = .next t ∧ Halts .halt s t ∧ t.mc.val = 100 ∧ t.ir.val = 10000 + a ∧
      t.response = s.response ∧ t.lastFault = s.lastFault ∧ KeepsRegsBut [.ir, .mc] s t ∧ KeepsMemory s t ∧
      t.lastAccessed = s.lastAccessed ∧ KeepsHostState s t

/-- Opcodes 11 to 19 with an unprogrammed block (R230, derived there): the first slot of the block, where the dispatch
leads, raises InvalidMicroOp, which is the response and on record. `exec` starts at the dispatch (the model's choice, log
entry 3), so AB and DB are those before it, and not yet the fetch's as in R230; the record of the fault is the model's,
log entry 5. -/
def Obligations.UnprogrammedOpcodesFaultAtTheirBlock : Prop :=
  ∀ (s : State) (a : Nat) (i : Instr) (k : Nat), a < 1000 → s.halted = false →
    (i, k) ∈ [(Instr.op11 a, 11), (.op12 a, 12), (.op13 a, 13), (.op14 a, 14), (.op15 a, 15), (.op16 a, 16),
      (.op17 a, 17), (.op18 a, 18), (.op19 a, 19)] → s.blockIs k [] →
    ∃ t, exec i s = .next t ∧ t.ir.val = 1000 * k + a ∧ t.mc.val = 10 * k ∧
      TakesFault (.invalidMicroOp (.int 0) t.mc) { s with ir := t.ir, mc := t.mc } t

/-- Opcodes 11 to 19 programmed by the host with the example of R232 (derived there; 15, 13, 9, 7, which doubles the
accumulator): the instruction completes with `ACC = min(2 * ACC, 19999)`, `DB` the old accumulator, `PC` advanced.
`exec` starts at the dispatch (the model's choice, log entry 3), so AB is the one before it. -/
def Obligations.UserDefinedOpcodesRunTheirBlock : Prop :=
  ∀ (s : State) (a : Nat) (i : Instr) (k : Nat), a < 1000 → s.halted = false →
    (i, k) ∈ [(Instr.op11 a, 11), (.op12 a, 12), (.op13 a, 13), (.op14 a, 14), (.op15 a, 15), (.op16 a, 16),
      (.op17 a, 17), (.op18 a, 18), (.op19 a, 19)] → s.blockIs k [15, 13, 9, 7] →
    CompletesWith i s [.acc, .db, .pc, .ir, .mc] (fun t => t.acc.val = min (2 * s.acc.val) 19999 ∧ t.db = s.acc ∧
      t.pc.val = min (s.pc.val + 1) 999 ∧ t.ir.val = 1000 * k + a ∧ t.mc = 0)

/-! ## Macro instructions: the whole macro step of the machine -/

/-- The reference instruction set on the machine: with the reference fetch and the reference block of opcode `k` in
Microcode, one step on a `macroStep` asked for at `MC = 0` has the net effect R219 to R229 state (derived there from
R216), returns Ok, and leaves the host's state alone; a machine it halts has ended normally (R340, the spec's
decision D29, read off the model's record of the end, log entry 5). -/
def Obligations.ReferenceInstructionSetOnTheMachine : Prop :=
  ∀ (s : State) (k : Nat) (a : Addr), s.asks .macroStep → s.halted = false → s.running = false → s.mc = 0 →
    Memory.wf s.memory = true → 1 ≤ k → k ≤ 10 → s.blockIs 0 (referenceBlock 0) → s.blockIs k (referenceBlock k) →
    (s.memRead s.pc.val).val = 1000 * k + a.val →
    ∃ t, step s = .next t ∧ NetEffect k a s t ∧ t.response = some .ok ∧ t.lastFault = s.lastFault ∧
      t.endedNormally = t.halted ∧
      t.progress = .idle ∧ t.inbox = s.inbox.tail ∧ t.running = false ∧ t.recCursor = s.recCursor ∧
      t.microcode = s.microcode ∧ t.names = s.names

/-- The micro-step counts of R231 (derived there from R216): under the reference blocks the macro step ends with
exactly the micro-step the count says, and with no earlier one. -/
def Obligations.ReferenceMicroStepCounts : Prop :=
  ∀ (s : State) (k : Nat) (a : Addr), s.halted = false → s.mc = 0 → 1 ≤ k → k ≤ 10 →
    s.blockIs 0 (referenceBlock 0) → s.blockIs k (referenceBlock k) →
    (s.memRead s.pc.val).val = 1000 * k + a.val →
    (microStep^[referenceSteps k] s).macroEnded = true ∧
    ∀ j, 1 ≤ j → j < referenceSteps k → (microStep^[j] s).macroEnded = false

/-- A missing halt (the source's scenario, R218; derived there): with the reference fetch in block 0 a word below 1000
at `PC` ends the macro step in FetchFault, with `AB = PC`, `DB = IR` the word, and `MC = 3` (the spec's decision
D9), and the run has ended by fault (R340, the spec's decision D29, read off the model's record of the end, log entry
5). -/
def Obligations.FetchingAWordBelowThousandFaults : Prop :=
  ∀ s : State, s.asks .macroStep → s.halted = false → s.running = false → s.mc = 0 →
    s.blockIs 0 (referenceBlock 0) → (s.memRead s.pc.val).val < 1000 →
    ∃ t, step s = .next t ∧ t.halted = true ∧ t.ab = s.pc ∧ t.db = s.memRead s.pc.val ∧
      t.ir = s.memRead s.pc.val ∧ t.mc.val = 3 ∧ t.pc = s.pc ∧ t.acc = s.acc ∧ KeepsMemory s t ∧
      t.response = some (.execFault (.fetchFault t.ir s.pc t.mc)) ∧ t.endedByFault = true ∧ t.progress = .idle

/-! ## Faults, halting, and what a program cannot touch -/

/-- Ids 0 and 6 raise InvalidMicroOp (R191, the spec's decision D8; R192), and a micro-step that meets a fault changes
nothing of the machine but Halted (R125 and R296, the spec's decision D9), for each of its three causes in the order of
R298. That the fault is a next state, with the fault and the end on record besides, is the model's choice, log entry
5. -/
def Obligations.FaultingMicroStepIsPrecise : Prop :=
  ∀ s : State,
    (∃ t, exec .nop0 s = .next t ∧ TakesFault (.invalidMicroOp (.int 0) s.mc) s t) ∧
    (∃ t, exec .reserved6 s = .next t ∧ TakesFault (.invalidMicroOp (.int 6) s.mc) s t) ∧
    (s.halted = false →
      (legalId s.slotId = false → TakesFault (.invalidMicroOp (.int s.slotId) s.mc) s (microStep s)) ∧
      (s.slotId = 0 → TakesFault (.invalidMicroOp (.int 0) s.mc) s (microStep s)) ∧
      (s.slotId = 5 → s.ir.val < 1000 → TakesFault (.fetchFault s.ir s.pc s.mc) s (microStep s)))

/-- Nothing but `resetMachine` leaves the halted state (R31 and R332, the spec's decision D7), and until then the record
of how the step that set Halted ended stays as it is (R340, the spec's decision D29; the record is the model's, log
entry 5). -/
def Obligations.OnlyResetMachineClearsHalted : Prop :=
  ∀ s t : State, s.halted = true → step s = .next t →
    (t.halted = false → s.asks .resetMachine ∧ s.running = false) ∧ (t.halted = true → t.ending = s.ending)

/-- No instruction, micro-operation or macro instruction, writes Microcode, the name table, Running or RecCursor, and
none clears Halted (R201 and R302, derived there). -/
def Obligations.NoInstructionTouchesTheHostsState : Prop :=
  ∀ (i : Instr) (s t : State), exec i s = .next t → KeepsHostState s t ∧ (s.halted = true → t.halted = true)

/-- Every step of the machine answers a next state: no fault and no refusal stops it (a fault is taken,
R296; that it is a next state is the model's choice, log entry 5). -/
def Obligations.EveryStepHasANextState : Prop :=
  ∀ s : State, ∃ t, step s = .next t

/-- The invariants of R40, with those of the model's own fields (the model's choice, log entries 2, 5 and 16), are kept
by every step, whatever the host asks. -/
def Obligations.EveryStepKeepsTheInvariant : Prop :=
  ∀ s t : State, s.inv = true → step s = .next t → t.inv = true

/-- The machine right after construction (R42, the spec's decisions D4 to D6; log entries 6, 7, 8 and
16) meets the invariants of R40 and those of the model's own fields. -/
def Obligations.ResetMeetsTheInvariant : Prop := State.reset.inv = true

/-- `resetMachine` (R332, the spec's decision D7) on a machine that is not running: six registers 0, Halted false,
LastAccessed none; stores, names and RecCursor stay. -/
def Obligations.ResetMachineRestoresRegistersOnly : Prop :=
  ∀ s : State, s.asks .resetMachine → s.running = false →
    ∃ t, step s = .next t ∧ t.ab = 0 ∧ t.db = 0 ∧ t.acc = 0 ∧ t.pc = 0 ∧ t.ir = 0 ∧ t.mc = 0 ∧ t.halted = false ∧
      t.lastAccessed = none ∧ t.memory = s.memory ∧ t.microcode = s.microcode ∧ t.names = s.names ∧
      t.recCursor = s.recCursor ∧ t.running = false ∧ t.response = some .ok

/-! ## Manual steps, runs and the gate -/

/-- `manualStep` (R133, the spec's decisions D10 and D11), halted or not. With the recorder off: for an id of the table
that increments, the micro-operation's effect without the auto-increment, everything as `exec` leaves it, but `MC` as it
was; `manualStep(0)` changes nothing (R190); for ids 7 and 19, and for 5 with an opcode of 1 or more, everything is as
`exec` leaves it, the write of `MC` included. With the recorder on or off, `manualStep(5)` with `IR` below 1000 takes
FetchFault: nothing of the machine changes but Halted, and the step is not recorded (R134, the spec's decision D12). The
record of the end it leaves is the model's, log entry 5. -/
def Obligations.ManualStepIsTheEffectWithoutIncrement : Prop :=
  ∀ (s u : State) (id : Nat) (i : Instr), s.asks (.manualStep (.int id)) → s.running = false →
    decodeSlot id = .ok i → exec i s = .next u →
    ∃ t, step s = .next t ∧
      (s.recCursor = none →
        (increments id = true → t.toArch = { u.toArch with mc := s.mc } ∧ t.response = some .ok) ∧
        (id = 0 → t.toArch = s.toArch ∧ t.response = some .ok) ∧
        (id = 7 ∨ id = 19 ∨ id = 5 ∧ 1000 ≤ s.ir.val → t.toArch = u.toArch ∧ t.response = some .ok)) ∧
      (id = 5 → s.ir.val < 1000 → t.toArch = { s.toArch with halted := true } ∧
        t.response = some (.execFault (.fetchFault s.ir s.pc s.mc)) ∧ Halts (.fault (.fetchFault s.ir s.pc s.mc)) s t)

/-- A `manualStep` of id 6 or of any number outside 0 to 19, negative and non-integer ones included, always halts and
raises InvalidMicroOp, and changes and records nothing else (R192), but for the record of the end, which is the model's
(log entry 5). -/
def Obligations.ManualStepOfUnknownIdHalts : Prop :=
  ∀ (s : State) (x : HostNum), s.asks (.manualStep x) → s.running = false →
    (∀ id : Nat, legalId id = true → x ≠ .int id) →
    ∃ t, step s = .next t ∧ t.toArch = { s.toArch with halted := true } ∧
      t.response = some (.execFault (.invalidMicroOp x s.mc)) ∧ Halts (.fault (.invalidMicroOp x s.mc)) s t

/-- A manual step without a fault is recorded after its effect (R134, the spec's decision D12): the id goes into the
slot at the cursor, the cursor advances; at cursor 200 the effect stays and AddressOutOfRange is returned. A halt whose
step returned that fault is neither of the two ends of R340 (log entry 5). -/
def Obligations.ManualStepIsRecordedAfterItsEffect : Prop :=
  ∀ (s : State) (id : Nat) (c : Cursor), s.asks (.manualStep (.int id)) → s.running = false →
    Microcode.wf s.microcode = true → s.recCursor = some c → legalId id = true → ¬ (id = 5 ∧ s.ir.val < 1000) →
    ∃ t, step s = .next t ∧ (∀ r : Reg, t.reg r = (effect id s).reg r) ∧ t.memory = (effect id s).memory ∧
      t.halted = (effect id s).halted ∧
      (c.val < 200 → t.response = some .ok ∧ t.recCursor.map Fin.val = some (c.val + 1) ∧
        ∀ x, t.mcRead x = if x = c.val then id else s.mcRead x) ∧
      (c.val = 200 → t.response = some (.failed (.addressOutOfRange (.int 200))) ∧ t.recCursor = some c ∧
        t.microcode = s.microcode ∧
        (id = 19 → s.halted = false → t.endedNormally = false ∧ t.endedByFault = false))

/-- The gate (R242, the spec's decision D15), command by command. While Running, `microStep`, `macroStep`, `run`,
`manualStep`, `resetMachine`, both store resets, both row commands, the Recorder's commands and every import are refused
and change nothing, for either value of `HOST_WRITES_WHILE_RUNNING`; so are the three setters under `reject`; under
`between_macro_steps` a setter does what it does on a machine that is not running. -/
def Obligations.GateRefusesWhileRunning : Prop :=
  ∀ (p : Config.Params) (s : State) (c : Command), s.asks c → s.running = true →
    (c ∈ [.microStep, .macroStep, .resetMachine, .memoryReset, .microcodeReset, .recorderStop] → IsRejected p s) ∧
    (∀ (x : HostNum) (b : Bool) (n : Text) (y : RawSnapshot) (ls : List Text),
      c ∈ [.run x, .manualStep x, .insertRowAbove x b, .deleteRow x b, .recorderStart x n, .recorderRecord x,
        .importSnapshot y, .importRam ls, .importMc ls] → IsRejected p s) ∧
    (∀ (a v : HostNum) (n : Text),
      c ∈ [.memoryWrite a v, .microcodeWrite a v, .setInstructionName a n] →
      (p.hostWrites = .reject → IsRejected p s) ∧
      (p.hostWrites = .betweenMacroSteps →
        ∃ t, stepWith p s = .next t ∧ t.response ≠ some .rejectedWhileRunning ∧ t.running = true ∧
          stepWith p { s with running := false } = .next { t with running := false }))

/-- The pure reads change nothing of the machine (R62, R64, R66, R68, R241, R268), and are accepted while Running
(R242, the spec's decision D15). That the legacy exports are accepted like `export`, the only export R242 lists, is the
model's reading (DEDUCED, log entry 9). -/
def Obligations.ReadsChangeNothing : Prop :=
  ∀ (s : State) (c : Command) (a : HostNum), s.asks c →
    c ∈ [.memoryRead a, .microcodeRead a, .instructionName a, .lastUsedAddress, .readState, .exportSnapshot, .exportRam,
      .exportMc] →
    ∃ t, step s = .next t ∧ t.toArch = s.toArch ∧ t.events = [] ∧ t.response.isSome = true ∧
      t.response ≠ some .rejectedWhileRunning

/-- `run` sets Running and enables the ticks (R128, the spec's decision D14), `stop` clears it and touches nothing else
(R132, derived there). -/
def Obligations.RunAndStopSwitchRunning : Prop :=
  (∀ (s : State) (d : HostNum), s.asks (.run d) → s.running = false →
    ∃ t, step s = .next t ∧ t.toArch = { s.toArch with running := true } ∧ t.events = [.runChanged true] ∧
      t.response = some .ok) ∧
  (∀ s : State, s.asks .stop →
    ∃ t, step s = .next t ∧ t.toArch = { s.toArch with running := false } ∧
      t.events = (if s.running then [.runChanged false] else []) ∧ t.response = some .ok)

/-- A tick (R129 and R131, the spec's decision D14): where the host lets a running machine be, the step is the
micro-steps of one macro step; when they have ended, Running is cleared exactly if the machine is halted, and otherwise
the next tick is due; no command comes between them. The host lets the machine be with an empty inbox, or with the input
`quiet`, after which the inputs behind it are still to come (log entry 1); it does nothing to an idle machine that is not
running. A tick that has not ended after the micro-steps of one step of the model stays in progress, and the next step
goes on with it: the model's choice, log entry 2. -/
def Obligations.TickRunsOneMacroStep : Prop :=
  (∀ s : State, s.progress = .idle → s.running = true → s.inbox = [] ∨ s.inbox.head? = some .quiet →
    ∃ u t, runMacro Config.burst (s.clearOutputs.withInbox s.inbox.tail) = .next u ∧ step s = .next t ∧ EndsTick u t ∧
      t.inbox = s.inbox.tail) ∧
  (∀ s : State, s.progress = .tick → s.running = true →
    ∃ u t, runMacro Config.burst s.clearOutputs = .next u ∧ step s = .next t ∧ EndsTick u t ∧ t.inbox = s.inbox) ∧
  (∀ s : State, s.progress = .idle → s.running = false → s.inbox.head? = some .quiet →
    ∃ t, step s = .next t ∧ t.toArch = s.toArch ∧ t.response = none ∧ t.events = [] ∧ t.inbox = s.inbox.tail)

/-- `run` on a halted machine (R130, derived there): after the command and one tick nothing of the machine has
changed, with the notifications RunChanged(true), HaltedNoOp, RunChanged(false). -/
def Obligations.RunOnHaltedMachineChangesNothing : Prop :=
  ∀ (s : State) (d : HostNum), s.progress = .idle → s.inbox = [.command (.run d)] → s.halted = true →
    s.running = false →
    ∃ t u, step s = .next t ∧ step t = .next u ∧ u.toArch = s.toArch ∧ t.events = [.runChanged true] ∧
      u.events = [.haltedNoOp, .runChanged false]

/-! ## Store ports and tools -/

/-- The Memory port (R62, R63). A read of an address of Memory returns its word, any other read fails, and no read
changes anything. A write of a Word at an address of Memory is read back, with `MemoryChanged` emitted, and every other
word stays; any other write fails, the address fault before the value fault (an order that is the spec's decision D18,
log entry 13), and nothing changes. -/
def Obligations.MemoryPortReadsWritesOrFails : Prop :=
  (∀ (s : State) (a : HostNum), s.asks (.memoryRead a) →
    ∃ t, step s = .next t ∧ t.toArch = s.toArch ∧
      (∀ n : Nat, n < 1000 → a = .int n → t.response = some (.word (s.memRead n))) ∧
      ((∀ n : Nat, n < 1000 → a ≠ .int n) → t.response = some (.failed (.addressOutOfRange a)))) ∧
  (∀ (s : State) (a v : HostNum), s.asks (.memoryWrite a v) → s.running = false → Memory.wf s.memory = true →
    ∃ t, step s = .next t ∧
      (∀ n w : Nat, a = .int n → v = .int w → n < 1000 → w < 20000 →
        t.response = some .ok ∧ StoresOnly n w s t ∧ { t.toArch with memory := s.memory } = s.toArch ∧
        t.events = [.memoryChanged n]) ∧
      ((∀ n : Nat, n < 1000 → a ≠ .int n) →
        t.response = some (.failed (.addressOutOfRange a)) ∧ t.toArch = s.toArch) ∧
      ((∃ n : Nat, n < 1000 ∧ a = .int n) → (∀ w : Nat, w < 20000 → v ≠ .int w) →
        t.response = some (.failed (.valueOutOfRange v)) ∧ t.toArch = s.toArch))

/-- The Microcode port (R66, R67). A read of an address of Microcode returns its slot, any other read fails, and no
read changes anything. A write of an id of {0..5, 7..19}, the inert 0 included, is read back, with `MicrocodeChanged`
emitted; 6 and every other value is refused, after the check of the address (an order that is the spec's decision D18,
log entry 13), and then nothing changes. -/
def Obligations.MicrocodePortReadsWritesOrFails : Prop :=
  (∀ (s : State) (a : HostNum), s.asks (.microcodeRead a) →
    ∃ t, step s = .next t ∧ t.toArch = s.toArch ∧
      (∀ n : Nat, n < 200 → a = .int n → t.response = some (.slot (s.mcRead n))) ∧
      ((∀ n : Nat, n < 200 → a ≠ .int n) → t.response = some (.failed (.addressOutOfRange a)))) ∧
  (∀ (s : State) (a v : HostNum), s.asks (.microcodeWrite a v) → s.running = false →
    Microcode.wf s.microcode = true →
    ∃ t, step s = .next t ∧
      (∀ n id : Nat, a = .int n → v = .int id → n < 200 → legalId id = true →
        t.response = some .ok ∧ (∀ x, t.mcRead x = if x = n then id else s.mcRead x) ∧
        { t.toArch with microcode := s.microcode } = s.toArch ∧ t.events = [.microcodeChanged n]) ∧
      ((∀ n : Nat, n < 200 → a ≠ .int n) →
        t.response = some (.failed (.addressOutOfRange a)) ∧ t.toArch = s.toArch) ∧
      ((∃ n : Nat, n < 200 ∧ a = .int n) → (∀ id : Nat, legalId id = true → v ≠ .int id) →
        t.response = some (.failed (.invalidMicroOp v)) ∧ t.toArch = s.toArch))

/-- `Memory.lastUsedAddress()` (R64): the highest address holding a nonzero word, none if all are zero; the command
returns it and changes nothing. -/
def Obligations.LastUsedAddressIsTheHighestNonzero : Prop :=
  ∀ s : State, Memory.wf s.memory = true →
    (s.lastUsedAddress = none ↔ ∀ a, s.memRead a = 0) ∧
    (∀ a, s.lastUsedAddress = some a ↔ s.memRead a ≠ 0 ∧ ∀ b, a < b → s.memRead b = 0) ∧
    (s.asks .lastUsedAddress → ∃ t, step s = .next t ∧ t.response = some (.address s.lastUsedAddress) ∧
      t.toArch = s.toArch)

/-- The names (R68). `instructionName` returns the name of an opcode, and none for any other number (the spec's
decision D18, log entry 13). A name of 1 to 5 characters for an opcode 0 to 19 is stored, other names stay; a bad
opcode fails, before a bad name (also D18), and then nothing changes. -/
def Obligations.NamePortReadsWritesOrFails : Prop :=
  (∀ (s : State) (k : HostNum), s.asks (.instructionName k) →
    ∃ t, step s = .next t ∧ t.toArch = s.toArch ∧
      (∀ n : Nat, n < 20 → k = .int n → t.response = some (.name (s.nameRead n))) ∧
      ((∀ n : Nat, n < 20 → k ≠ .int n) → t.response = some (.name none))) ∧
  (∀ (s : State) (k : HostNum) (n : Text), s.asks (.setInstructionName k n) → s.running = false →
    NameTable.wf s.names = true →
    ∃ t, step s = .next t ∧
      (∀ o : Nat, k = .int o → o < 20 → 1 ≤ n.length → n.length ≤ 5 → t.response = some .ok ∧
        (∀ x, t.nameRead x = if x = o then some n else s.nameRead x) ∧ { t.toArch with names := s.names } = s.toArch) ∧
      ((∀ o : Nat, o < 20 → k ≠ .int o) → t.response = some (.failed (.invalidOpcode k)) ∧ t.toArch = s.toArch) ∧
      ((∃ o : Nat, o < 20 ∧ k = .int o) → n.length = 0 ∨ 5 < n.length →
        t.response = some (.failed (.invalidName n)) ∧ t.toArch = s.toArch))

/-- The resets of the stores (R65; R69, for any default program and names): Memory becomes all zero, whatever
`RAM_INIT` is; Microcode and the names become the defaults; nothing else of the machine changes (the spec's decision
D27, log entry 14). -/
def Obligations.StoreResetsRestoreTheirDefaults : Prop :=
  ∀ (p : Config.Params) (s : State), s.running = false →
    (s.asks .memoryReset → ∃ t, stepWith p s = .next t ∧ t.response = some .ok ∧ (∀ a, t.memRead a = 0) ∧
      { t.toArch with memory := s.memory } = s.toArch) ∧
    (s.asks .microcodeReset → ∃ t, stepWith p s = .next t ∧ t.response = some .ok ∧
      t.toArch = { s.toArch with microcode := p.mcDefault, names := p.namesDefault })

/-- The rows `insertRowAbove` (R250) and `deleteRow` (R252) leave, with and without fix-up (R254; all three the spec's
decision D22, log entry 14), for every value of `HLT_OPCODE`. Insert: the words from the selected row up move one
address up, the selected word is 0, the words below stay; where the word at 999 is not 0 it is MemoryFull and nothing
changes. Delete: the words above the selected row move one address down, the words below it stay; where no word from the
selected row up is in use nothing changes, with or without fix-up. The fix-up then moves the operands by 1 or by -1, and
notifies exactly the addresses it has to skip. A selected row outside 0 to 999 is AddressOutOfRange and nothing
changes. -/
def Obligations.RowCommandsShiftTheUsedRows : Prop :=
  ∀ (p : Config.Params) (s : State) (fixup : Bool), s.running = false → Memory.wf s.memory = true →
    (∀ sel : Nat, sel < 1000 →
      (s.asks (.insertRowAbove (.int sel) fixup) → s.memRead 999 = 0 →
        ∃ t, stepWith p s = .next t ∧ t.response = some .ok ∧ { t.toArch with memory := s.memory } = s.toArch ∧
          HoldsRows fixup p.hltOpcode sel 1 (s.rowInserted sel) t) ∧
      (s.asks (.insertRowAbove (.int sel) fixup) → s.memRead 999 ≠ 0 →
        ∃ t, stepWith p s = .next t ∧ t.response = some (.failed .memoryFull) ∧ t.toArch = s.toArch) ∧
      (s.asks (.deleteRow (.int sel) fixup) → (∃ y, sel ≤ y ∧ s.memRead y ≠ 0) →
        ∃ t, stepWith p s = .next t ∧ t.response = some .ok ∧ { t.toArch with memory := s.memory } = s.toArch ∧
          HoldsRows fixup p.hltOpcode sel (-1) (s.rowDeleted sel) t) ∧
      (s.asks (.deleteRow (.int sel) fixup) → (∀ y, sel ≤ y → s.memRead y = 0) →
        ∃ t, stepWith p s = .next t ∧ t.response = some .ok ∧ t.toArch = s.toArch)) ∧
    (∀ a : HostNum, (∀ n : Nat, n < 1000 → a ≠ .int n) →
      s.asks (.insertRowAbove a fixup) ∨ s.asks (.deleteRow a fixup) →
        ∃ t, stepWith p s = .next t ∧ t.response = some (.failed (.addressOutOfRange a)) ∧ t.toArch = s.toArch)

/-- The round trip of R255: where the insert does not fail with MemoryFull, `insertRowAbove` and then `deleteRow` at
the same address, without fix-up, restore Memory (by R250 and R252, the spec's decision D22), and the whole machine with
it (R256, derived there). -/
def Obligations.InsertThenDeleteRestoresMemory : Prop :=
  ∀ (s : State) (sel : Nat), sel < 1000 → Memory.wf s.memory = true → s.memRead 999 = 0 → s.progress = .idle →
    s.running = false →
    s.inbox = [.command (.insertRowAbove (.int sel) false), .command (.deleteRow (.int sel) false)] →
    ∃ t u, step s = .next t ∧ step t = .next u ∧ t.response = some .ok ∧ u.response = some .ok ∧ u.toArch = s.toArch

/-- The fix-up (R254, the spec's decision D22), word by word: a word whose opcode is neither 0 nor `HLT_OPCODE` and
whose operand is at least the selected row has its operand moved by the delta, unless that leaves 0 to 999; every
other word stays. -/
def Obligations.FixUpMovesOperandsFromTheRowOn : Prop :=
  ∀ (s : State) (hlt : Opcode) (sel : Nat) (delta : Int) (x : Nat), Memory.wf s.memory = true → x < 1000 →
    delta = 1 ∨ delta = -1 →
    ((fixUp hlt sel delta s).memRead x).val =
      (let w := (s.memRead x).val
       let o := w / 1000
       let a := w % 1000
       if o ≠ 0 ∧ o ≠ hlt.val ∧ sel ≤ a ∧ 0 ≤ (a : Int) + delta ∧ (a : Int) + delta ≤ 999
       then o * 1000 + ((a : Int) + delta).toNat else w)

/-- `Recorder.record` (R261): while active it writes the id at the cursor and advances the cursor by 1; an id no slot
may hold is refused, at cursor 200 AddressOutOfRange is returned, and then nothing changes; while not active it does
nothing and returns Ok. What happens at cursor 200 and while not active is the spec's decision D21, log entry 14. -/
def Obligations.RecorderWritesAtItsCursor : Prop :=
  ∀ (s : State) (x : HostNum), s.asks (.recorderRecord x) → s.running = false → Microcode.wf s.microcode = true →
    ∃ t, step s = .next t ∧
      (∀ (c : Cursor) (id : Nat), s.recCursor = some c → c.val < 200 → x = .int id → legalId id = true →
        t.response = some .ok ∧ t.recCursor.map Fin.val = some (c.val + 1) ∧
        (∀ y, t.mcRead y = if y = c.val then id else s.mcRead y) ∧
        { t.toArch with microcode := s.microcode, recCursor := s.recCursor } = s.toArch) ∧
      (∀ c : Cursor, s.recCursor = some c → c.val < 200 → (∀ id : Nat, legalId id = true → x ≠ .int id) →
        t.response = some (.failed (.invalidMicroOp x)) ∧ t.toArch = s.toArch) ∧
      (∀ c : Cursor, s.recCursor = some c → c.val = 200 →
        t.response = some (.failed (.addressOutOfRange (.int 200))) ∧ t.toArch = s.toArch) ∧
      (s.recCursor = none → t.response = some .ok ∧ t.toArch = s.toArch)

/-- `Recorder.start` (R260, the spec's decision D21) and `Recorder.stop` (R263). A start at a multiple of 10 in 0 to
190, with a name of 1 to 5 characters, names the block's opcode, puts the cursor at the block and touches no slot; any
other start fails and changes nothing. A stop clears the cursor and touches nothing else. -/
def Obligations.RecorderStartsAndStops : Prop :=
  (∀ (s : State) (a : HostNum) (n : Text), s.asks (.recorderStart a n) → s.running = false →
    NameTable.wf s.names = true →
    ∃ t, step s = .next t ∧
      (∀ k : Nat, k < 20 → a = .int (10 * k : Nat) → 1 ≤ n.length → n.length ≤ 5 →
        t.response = some .ok ∧ t.recCursor.map Fin.val = some (10 * k) ∧
        (∀ x, t.nameRead x = if x = k then some n else s.nameRead x) ∧
        { t.toArch with names := s.names, recCursor := s.recCursor } = s.toArch) ∧
      ((∀ k : Nat, k < 20 → a ≠ .int (10 * k : Nat)) ∨ n.length = 0 ∨ 5 < n.length →
        t.response = some (.failed .recordingConfigError) ∧ t.toArch = s.toArch)) ∧
  (∀ s : State, s.asks .recorderStop → s.running = false →
    ∃ t, step s = .next t ∧ t.response = some .ok ∧ t.toArch = { s.toArch with recCursor := none })

/-- Export and import agree (R268; R270, the spec's decisions D23 and D27, log entry 14). The snapshot the `export`
command returns holds the three stores, its two arrays without trailing zeros, and exporting changes nothing; importing
it into any machine that is not running gives that machine the three stores, and leaves its registers, flags and cursor
alone. -/
def Obligations.ImportOfExportCopiesTheStores : Prop :=
  ∀ s : State, Memory.wf s.memory = true → Microcode.wf s.microcode = true → NameTable.wf s.names = true →
    s.asks .exportSnapshot →
    ∃ (v : State) (x : Snapshot), step s = .next v ∧ v.response = some (.snapshot x) ∧ v.toArch = s.toArch ∧
      (∀ a, x.ram.getD a 0 = s.memRead a) ∧ x.ram.getLast? ≠ some 0 ∧
      (∀ a, x.microCode.getD a 0 = s.mcRead a) ∧ x.microCode.getLast? ≠ some 0 ∧
      (∀ k n, (k, n) ∈ x.instructionNames ↔ s.nameRead k = some n) ∧
      ∀ u : State, u.asks (.importSnapshot x.toRaw) → u.running = false →
        ∃ t, step u = .next t ∧ t.response = some .ok ∧
          t.toArch = { u.toArch with memory := s.memory, microcode := s.microcode, names := s.names }

/-- A `.ram` text exported by one machine (R273) and imported into another (R272; both the spec's decision D23) gives
the other the first one's Memory, with no warning, and changes nothing else. -/
def Obligations.RamTextCarriesMemory : Prop :=
  ∀ (s v u : State) (ls : List Text), Memory.wf s.memory = true → s.asks .exportRam → step s = .next v →
    v.response = some (.lines ls) → u.asks (.importRam ls) → u.running = false →
    ∃ t, step u = .next t ∧ t.response = some .ok ∧ t.toArch = { u.toArch with memory := s.memory } ∧
      ∀ n, Event.importWarning n ∉ t.events

/-- A strict import is all or nothing (R270, R275, the spec's decision D23): it returns Ok or MalformedSnapshot, on a
failure nothing changes, and a `.mc` text with fewer than 200 data lines, or a snapshot with too many elements or an
element out of its range, fails. -/
def Obligations.FailedImportsChangeNothing : Prop :=
  ∀ (s : State) (x : RawSnapshot) (ls : List Text) (c : Command), s.asks c → s.running = false →
    c = .importSnapshot x ∨ c = .importMc ls →
    ∃ t, step s = .next t ∧ (t.response = some .ok ∨ t.response = some (.failed .malformedSnapshot)) ∧
      (t.response = some (.failed .malformedSnapshot) → t.toArch = s.toArch) ∧
      (c = .importMc ls → (dataLines ls).length < 200 → t.response = some (.failed .malformedSnapshot)) ∧
      (∀ ram mc, c = .importSnapshot x → x.ram = some ram → x.microCode = some mc →
        1000 < ram.length ∨ 200 < mc.length ∨ (∃ v ∈ ram, ∀ w : Nat, w < 20000 → v ≠ .int w) ∨
          (∃ v ∈ mc, ∀ id : Nat, legalId id = true → v ≠ .int id) →
        t.response = some (.failed .malformedSnapshot))
end

