-- ==== Sys2Proof/Laws/State.lean ====
section
/-! SUPPORT. What each update of the state does to each field and to each reader, true by rfl, so that no later proof
unfolds a record update. -/

namespace Sys2Proof.Machine

variable (s : State)

@[simp] theorem State.emit_ab (e : Event) : (s.emit e).ab = s.ab := rfl
@[simp] theorem State.emit_db (e : Event) : (s.emit e).db = s.db := rfl
@[simp] theorem State.emit_acc (e : Event) : (s.emit e).acc = s.acc := rfl
@[simp] theorem State.emit_pc (e : Event) : (s.emit e).pc = s.pc := rfl
@[simp] theorem State.emit_ir (e : Event) : (s.emit e).ir = s.ir := rfl
@[simp] theorem State.emit_mc (e : Event) : (s.emit e).mc = s.mc := rfl
@[simp] theorem State.emit_halted (e : Event) : (s.emit e).halted = s.halted := rfl
@[simp] theorem State.emit_running (e : Event) : (s.emit e).running = s.running := rfl
@[simp] theorem State.emit_recCursor (e : Event) : (s.emit e).recCursor = s.recCursor := rfl
@[simp] theorem State.emit_lastAccessed (e : Event) : (s.emit e).lastAccessed = s.lastAccessed := rfl
@[simp] theorem State.emit_memory (e : Event) : (s.emit e).memory = s.memory := rfl
@[simp] theorem State.emit_microcode (e : Event) : (s.emit e).microcode = s.microcode := rfl
@[simp] theorem State.emit_names (e : Event) : (s.emit e).names = s.names := rfl
@[simp] theorem State.emit_inbox (e : Event) : (s.emit e).inbox = s.inbox := rfl
@[simp] theorem State.emit_progress (e : Event) : (s.emit e).progress = s.progress := rfl
@[simp] theorem State.emit_response (e : Event) : (s.emit e).response = s.response := rfl
@[simp] theorem State.emit_events (e : Event) : (s.emit e).events = s.events ++ [e] := rfl
@[simp] theorem State.emit_lastFault (e : Event) : (s.emit e).lastFault = s.lastFault := rfl
@[simp] theorem State.emit_ending (e : Event) : (s.emit e).ending = s.ending := rfl
@[simp] theorem State.emit_memRead (e : Event) (x : Nat) : (s.emit e).memRead x = s.memRead x := rfl
@[simp] theorem State.emit_mcRead (e : Event) (x : Nat) : (s.emit e).mcRead x = s.mcRead x := rfl
@[simp] theorem State.emit_nameRead (e : Event) (x : Nat) : (s.emit e).nameRead x = s.nameRead x := rfl
@[simp] theorem State.emit_irOpcode (e : Event) : (s.emit e).irOpcode = s.irOpcode := rfl
@[simp] theorem State.emit_irOperand (e : Event) : (s.emit e).irOperand = s.irOperand := rfl
@[simp] theorem State.emit_slotId (e : Event) : (s.emit e).slotId = s.slotId := rfl
@[simp] theorem State.emit_macroEnded (e : Event) : (s.emit e).macroEnded = s.macroEnded := rfl

@[simp] theorem State.setHalted_ab (b : Bool) : (s.setHalted b).ab = s.ab := rfl
@[simp] theorem State.setHalted_db (b : Bool) : (s.setHalted b).db = s.db := rfl
@[simp] theorem State.setHalted_acc (b : Bool) : (s.setHalted b).acc = s.acc := rfl
@[simp] theorem State.setHalted_pc (b : Bool) : (s.setHalted b).pc = s.pc := rfl
@[simp] theorem State.setHalted_ir (b : Bool) : (s.setHalted b).ir = s.ir := rfl
@[simp] theorem State.setHalted_mc (b : Bool) : (s.setHalted b).mc = s.mc := rfl
@[simp] theorem State.setHalted_halted (b : Bool) : (s.setHalted b).halted = b := rfl
@[simp] theorem State.setHalted_running (b : Bool) : (s.setHalted b).running = s.running := rfl
@[simp] theorem State.setHalted_recCursor (b : Bool) : (s.setHalted b).recCursor = s.recCursor := rfl
@[simp] theorem State.setHalted_lastAccessed (b : Bool) : (s.setHalted b).lastAccessed = s.lastAccessed := rfl
@[simp] theorem State.setHalted_memory (b : Bool) : (s.setHalted b).memory = s.memory := rfl
@[simp] theorem State.setHalted_microcode (b : Bool) : (s.setHalted b).microcode = s.microcode := rfl
@[simp] theorem State.setHalted_names (b : Bool) : (s.setHalted b).names = s.names := rfl
@[simp] theorem State.setHalted_inbox (b : Bool) : (s.setHalted b).inbox = s.inbox := rfl
@[simp] theorem State.setHalted_progress (b : Bool) : (s.setHalted b).progress = s.progress := rfl
@[simp] theorem State.setHalted_response (b : Bool) : (s.setHalted b).response = s.response := rfl
@[simp] theorem State.setHalted_events (b : Bool) : (s.setHalted b).events = s.events ++ [.haltChanged b] := rfl
@[simp] theorem State.setHalted_lastFault (b : Bool) : (s.setHalted b).lastFault = s.lastFault := rfl
@[simp] theorem State.setHalted_ending (b : Bool) : (s.setHalted b).ending = s.ending := rfl
@[simp] theorem State.setHalted_memRead (b : Bool) (x : Nat) : (s.setHalted b).memRead x = s.memRead x := rfl
@[simp] theorem State.setHalted_mcRead (b : Bool) (x : Nat) : (s.setHalted b).mcRead x = s.mcRead x := rfl
@[simp] theorem State.setHalted_nameRead (b : Bool) (x : Nat) : (s.setHalted b).nameRead x = s.nameRead x := rfl
@[simp] theorem State.setHalted_irOpcode (b : Bool) : (s.setHalted b).irOpcode = s.irOpcode := rfl
@[simp] theorem State.setHalted_irOperand (b : Bool) : (s.setHalted b).irOperand = s.irOperand := rfl
@[simp] theorem State.setHalted_slotId (b : Bool) : (s.setHalted b).slotId = s.slotId := rfl

@[simp] theorem State.setRunning_ab (b : Bool) : (s.setRunning b).ab = s.ab := rfl
@[simp] theorem State.setRunning_db (b : Bool) : (s.setRunning b).db = s.db := rfl
@[simp] theorem State.setRunning_acc (b : Bool) : (s.setRunning b).acc = s.acc := rfl
@[simp] theorem State.setRunning_pc (b : Bool) : (s.setRunning b).pc = s.pc := rfl
@[simp] theorem State.setRunning_ir (b : Bool) : (s.setRunning b).ir = s.ir := rfl
@[simp] theorem State.setRunning_mc (b : Bool) : (s.setRunning b).mc = s.mc := rfl
@[simp] theorem State.setRunning_halted (b : Bool) : (s.setRunning b).halted = s.halted := rfl
@[simp] theorem State.setRunning_running (b : Bool) : (s.setRunning b).running = b := rfl
@[simp] theorem State.setRunning_recCursor (b : Bool) : (s.setRunning b).recCursor = s.recCursor := rfl
@[simp] theorem State.setRunning_lastAccessed (b : Bool) : (s.setRunning b).lastAccessed = s.lastAccessed := rfl
@[simp] theorem State.setRunning_memory (b : Bool) : (s.setRunning b).memory = s.memory := rfl
@[simp] theorem State.setRunning_microcode (b : Bool) : (s.setRunning b).microcode = s.microcode := rfl
@[simp] theorem State.setRunning_names (b : Bool) : (s.setRunning b).names = s.names := rfl
@[simp] theorem State.setRunning_inbox (b : Bool) : (s.setRunning b).inbox = s.inbox := rfl
@[simp] theorem State.setRunning_progress (b : Bool) : (s.setRunning b).progress = s.progress := rfl
@[simp] theorem State.setRunning_response (b : Bool) : (s.setRunning b).response = s.response := rfl
@[simp] theorem State.setRunning_events (b : Bool) : (s.setRunning b).events = s.events ++ [.runChanged b] := rfl
@[simp] theorem State.setRunning_lastFault (b : Bool) : (s.setRunning b).lastFault = s.lastFault := rfl
@[simp] theorem State.setRunning_ending (b : Bool) : (s.setRunning b).ending = s.ending := rfl
@[simp] theorem State.setRunning_memRead (b : Bool) (x : Nat) : (s.setRunning b).memRead x = s.memRead x := rfl
@[simp] theorem State.setRunning_mcRead (b : Bool) (x : Nat) : (s.setRunning b).mcRead x = s.mcRead x := rfl
@[simp] theorem State.setRunning_nameRead (b : Bool) (x : Nat) : (s.setRunning b).nameRead x = s.nameRead x := rfl
@[simp] theorem State.setRunning_irOpcode (b : Bool) : (s.setRunning b).irOpcode = s.irOpcode := rfl
@[simp] theorem State.setRunning_irOperand (b : Bool) : (s.setRunning b).irOperand = s.irOperand := rfl
@[simp] theorem State.setRunning_slotId (b : Bool) : (s.setRunning b).slotId = s.slotId := rfl
@[simp] theorem State.setRunning_macroEnded (b : Bool) : (s.setRunning b).macroEnded = s.macroEnded := rfl

@[simp] theorem State.setAb_ab (v : Int) : (s.setAb v).ab = clampAddr v := rfl
@[simp] theorem State.setAb_db (v : Int) : (s.setAb v).db = s.db := rfl
@[simp] theorem State.setAb_acc (v : Int) : (s.setAb v).acc = s.acc := rfl
@[simp] theorem State.setAb_pc (v : Int) : (s.setAb v).pc = s.pc := rfl
@[simp] theorem State.setAb_ir (v : Int) : (s.setAb v).ir = s.ir := rfl
@[simp] theorem State.setAb_mc (v : Int) : (s.setAb v).mc = s.mc := rfl
@[simp] theorem State.setAb_halted (v : Int) : (s.setAb v).halted = s.halted := rfl
@[simp] theorem State.setAb_running (v : Int) : (s.setAb v).running = s.running := rfl
@[simp] theorem State.setAb_recCursor (v : Int) : (s.setAb v).recCursor = s.recCursor := rfl
@[simp] theorem State.setAb_lastAccessed (v : Int) : (s.setAb v).lastAccessed = s.lastAccessed := rfl
@[simp] theorem State.setAb_memory (v : Int) : (s.setAb v).memory = s.memory := rfl
@[simp] theorem State.setAb_microcode (v : Int) : (s.setAb v).microcode = s.microcode := rfl
@[simp] theorem State.setAb_names (v : Int) : (s.setAb v).names = s.names := rfl
@[simp] theorem State.setAb_inbox (v : Int) : (s.setAb v).inbox = s.inbox := rfl
@[simp] theorem State.setAb_progress (v : Int) : (s.setAb v).progress = s.progress := rfl
@[simp] theorem State.setAb_response (v : Int) : (s.setAb v).response = s.response := rfl
@[simp] theorem State.setAb_events (v : Int) : (s.setAb v).events = s.events ++ regEvents .ab 999 v := rfl
@[simp] theorem State.setAb_lastFault (v : Int) : (s.setAb v).lastFault = s.lastFault := rfl
@[simp] theorem State.setAb_ending (v : Int) : (s.setAb v).ending = s.ending := rfl
@[simp] theorem State.setAb_memRead (v : Int) (x : Nat) : (s.setAb v).memRead x = s.memRead x := rfl
@[simp] theorem State.setAb_mcRead (v : Int) (x : Nat) : (s.setAb v).mcRead x = s.mcRead x := rfl
@[simp] theorem State.setAb_nameRead (v : Int) (x : Nat) : (s.setAb v).nameRead x = s.nameRead x := rfl
@[simp] theorem State.setAb_irOpcode (v : Int) : (s.setAb v).irOpcode = s.irOpcode := rfl
@[simp] theorem State.setAb_irOperand (v : Int) : (s.setAb v).irOperand = s.irOperand := rfl
@[simp] theorem State.setAb_slotId (v : Int) : (s.setAb v).slotId = s.slotId := rfl
@[simp] theorem State.setAb_macroEnded (v : Int) : (s.setAb v).macroEnded = s.macroEnded := rfl

@[simp] theorem State.setDb_ab (v : Int) : (s.setDb v).ab = s.ab := rfl
@[simp] theorem State.setDb_db (v : Int) : (s.setDb v).db = clampWord v := rfl
@[simp] theorem State.setDb_acc (v : Int) : (s.setDb v).acc = s.acc := rfl
@[simp] theorem State.setDb_pc (v : Int) : (s.setDb v).pc = s.pc := rfl
@[simp] theorem State.setDb_ir (v : Int) : (s.setDb v).ir = s.ir := rfl
@[simp] theorem State.setDb_mc (v : Int) : (s.setDb v).mc = s.mc := rfl
@[simp] theorem State.setDb_halted (v : Int) : (s.setDb v).halted = s.halted := rfl
@[simp] theorem State.setDb_running (v : Int) : (s.setDb v).running = s.running := rfl
@[simp] theorem State.setDb_recCursor (v : Int) : (s.setDb v).recCursor = s.recCursor := rfl
@[simp] theorem State.setDb_lastAccessed (v : Int) : (s.setDb v).lastAccessed = s.lastAccessed := rfl
@[simp] theorem State.setDb_memory (v : Int) : (s.setDb v).memory = s.memory := rfl
@[simp] theorem State.setDb_microcode (v : Int) : (s.setDb v).microcode = s.microcode := rfl
@[simp] theorem State.setDb_names (v : Int) : (s.setDb v).names = s.names := rfl
@[simp] theorem State.setDb_inbox (v : Int) : (s.setDb v).inbox = s.inbox := rfl
@[simp] theorem State.setDb_progress (v : Int) : (s.setDb v).progress = s.progress := rfl
@[simp] theorem State.setDb_response (v : Int) : (s.setDb v).response = s.response := rfl
@[simp] theorem State.setDb_events (v : Int) : (s.setDb v).events = s.events ++ regEvents .db 19999 v := rfl
@[simp] theorem State.setDb_lastFault (v : Int) : (s.setDb v).lastFault = s.lastFault := rfl
@[simp] theorem State.setDb_ending (v : Int) : (s.setDb v).ending = s.ending := rfl
@[simp] theorem State.setDb_memRead (v : Int) (x : Nat) : (s.setDb v).memRead x = s.memRead x := rfl
@[simp] theorem State.setDb_mcRead (v : Int) (x : Nat) : (s.setDb v).mcRead x = s.mcRead x := rfl
@[simp] theorem State.setDb_nameRead (v : Int) (x : Nat) : (s.setDb v).nameRead x = s.nameRead x := rfl
@[simp] theorem State.setDb_irOpcode (v : Int) : (s.setDb v).irOpcode = s.irOpcode := rfl
@[simp] theorem State.setDb_irOperand (v : Int) : (s.setDb v).irOperand = s.irOperand := rfl
@[simp] theorem State.setDb_slotId (v : Int) : (s.setDb v).slotId = s.slotId := rfl
@[simp] theorem State.setDb_macroEnded (v : Int) : (s.setDb v).macroEnded = s.macroEnded := rfl

@[simp] theorem State.setAcc_ab (v : Int) : (s.setAcc v).ab = s.ab := rfl
@[simp] theorem State.setAcc_db (v : Int) : (s.setAcc v).db = s.db := rfl
@[simp] theorem State.setAcc_acc (v : Int) : (s.setAcc v).acc = clampWord v := rfl
@[simp] theorem State.setAcc_pc (v : Int) : (s.setAcc v).pc = s.pc := rfl
@[simp] theorem State.setAcc_ir (v : Int) : (s.setAcc v).ir = s.ir := rfl
@[simp] theorem State.setAcc_mc (v : Int) : (s.setAcc v).mc = s.mc := rfl
@[simp] theorem State.setAcc_halted (v : Int) : (s.setAcc v).halted = s.halted := rfl
@[simp] theorem State.setAcc_running (v : Int) : (s.setAcc v).running = s.running := rfl
@[simp] theorem State.setAcc_recCursor (v : Int) : (s.setAcc v).recCursor = s.recCursor := rfl
@[simp] theorem State.setAcc_lastAccessed (v : Int) : (s.setAcc v).lastAccessed = s.lastAccessed := rfl
@[simp] theorem State.setAcc_memory (v : Int) : (s.setAcc v).memory = s.memory := rfl
@[simp] theorem State.setAcc_microcode (v : Int) : (s.setAcc v).microcode = s.microcode := rfl
@[simp] theorem State.setAcc_names (v : Int) : (s.setAcc v).names = s.names := rfl
@[simp] theorem State.setAcc_inbox (v : Int) : (s.setAcc v).inbox = s.inbox := rfl
@[simp] theorem State.setAcc_progress (v : Int) : (s.setAcc v).progress = s.progress := rfl
@[simp] theorem State.setAcc_response (v : Int) : (s.setAcc v).response = s.response := rfl
@[simp] theorem State.setAcc_events (v : Int) : (s.setAcc v).events = s.events ++ regEvents .acc 19999 v := rfl
@[simp] theorem State.setAcc_lastFault (v : Int) : (s.setAcc v).lastFault = s.lastFault := rfl
@[simp] theorem State.setAcc_ending (v : Int) : (s.setAcc v).ending = s.ending := rfl
@[simp] theorem State.setAcc_memRead (v : Int) (x : Nat) : (s.setAcc v).memRead x = s.memRead x := rfl
@[simp] theorem State.setAcc_mcRead (v : Int) (x : Nat) : (s.setAcc v).mcRead x = s.mcRead x := rfl
@[simp] theorem State.setAcc_nameRead (v : Int) (x : Nat) : (s.setAcc v).nameRead x = s.nameRead x := rfl
@[simp] theorem State.setAcc_irOpcode (v : Int) : (s.setAcc v).irOpcode = s.irOpcode := rfl
@[simp] theorem State.setAcc_irOperand (v : Int) : (s.setAcc v).irOperand = s.irOperand := rfl
@[simp] theorem State.setAcc_slotId (v : Int) : (s.setAcc v).slotId = s.slotId := rfl
@[simp] theorem State.setAcc_macroEnded (v : Int) : (s.setAcc v).macroEnded = s.macroEnded := rfl

@[simp] theorem State.setPc_ab (v : Int) : (s.setPc v).ab = s.ab := rfl
@[simp] theorem State.setPc_db (v : Int) : (s.setPc v).db = s.db := rfl
@[simp] theorem State.setPc_acc (v : Int) : (s.setPc v).acc = s.acc := rfl
@[simp] theorem State.setPc_pc (v : Int) : (s.setPc v).pc = clampAddr v := rfl
@[simp] theorem State.setPc_ir (v : Int) : (s.setPc v).ir = s.ir := rfl
@[simp] theorem State.setPc_mc (v : Int) : (s.setPc v).mc = s.mc := rfl
@[simp] theorem State.setPc_halted (v : Int) : (s.setPc v).halted = s.halted := rfl
@[simp] theorem State.setPc_running (v : Int) : (s.setPc v).running = s.running := rfl
@[simp] theorem State.setPc_recCursor (v : Int) : (s.setPc v).recCursor = s.recCursor := rfl
@[simp] theorem State.setPc_lastAccessed (v : Int) : (s.setPc v).lastAccessed = s.lastAccessed := rfl
@[simp] theorem State.setPc_memory (v : Int) : (s.setPc v).memory = s.memory := rfl
@[simp] theorem State.setPc_microcode (v : Int) : (s.setPc v).microcode = s.microcode := rfl
@[simp] theorem State.setPc_names (v : Int) : (s.setPc v).names = s.names := rfl
@[simp] theorem State.setPc_inbox (v : Int) : (s.setPc v).inbox = s.inbox := rfl
@[simp] theorem State.setPc_progress (v : Int) : (s.setPc v).progress = s.progress := rfl
@[simp] theorem State.setPc_response (v : Int) : (s.setPc v).response = s.response := rfl
@[simp] theorem State.setPc_events (v : Int) : (s.setPc v).events = s.events ++ regEvents .pc 999 v := rfl
@[simp] theorem State.setPc_lastFault (v : Int) : (s.setPc v).lastFault = s.lastFault := rfl
@[simp] theorem State.setPc_ending (v : Int) : (s.setPc v).ending = s.ending := rfl
@[simp] theorem State.setPc_memRead (v : Int) (x : Nat) : (s.setPc v).memRead x = s.memRead x := rfl
@[simp] theorem State.setPc_mcRead (v : Int) (x : Nat) : (s.setPc v).mcRead x = s.mcRead x := rfl
@[simp] theorem State.setPc_nameRead (v : Int) (x : Nat) : (s.setPc v).nameRead x = s.nameRead x := rfl
@[simp] theorem State.setPc_irOpcode (v : Int) : (s.setPc v).irOpcode = s.irOpcode := rfl
@[simp] theorem State.setPc_irOperand (v : Int) : (s.setPc v).irOperand = s.irOperand := rfl
@[simp] theorem State.setPc_slotId (v : Int) : (s.setPc v).slotId = s.slotId := rfl
@[simp] theorem State.setPc_macroEnded (v : Int) : (s.setPc v).macroEnded = s.macroEnded := rfl

@[simp] theorem State.setIr_ab (v : Int) : (s.setIr v).ab = s.ab := rfl
@[simp] theorem State.setIr_db (v : Int) : (s.setIr v).db = s.db := rfl
@[simp] theorem State.setIr_acc (v : Int) : (s.setIr v).acc = s.acc := rfl
@[simp] theorem State.setIr_pc (v : Int) : (s.setIr v).pc = s.pc := rfl
@[simp] theorem State.setIr_ir (v : Int) : (s.setIr v).ir = clampWord v := rfl
@[simp] theorem State.setIr_mc (v : Int) : (s.setIr v).mc = s.mc := rfl
@[simp] theorem State.setIr_halted (v : Int) : (s.setIr v).halted = s.halted := rfl
@[simp] theorem State.setIr_running (v : Int) : (s.setIr v).running = s.running := rfl
@[simp] theorem State.setIr_recCursor (v : Int) : (s.setIr v).recCursor = s.recCursor := rfl
@[simp] theorem State.setIr_lastAccessed (v : Int) : (s.setIr v).lastAccessed = s.lastAccessed := rfl
@[simp] theorem State.setIr_memory (v : Int) : (s.setIr v).memory = s.memory := rfl
@[simp] theorem State.setIr_microcode (v : Int) : (s.setIr v).microcode = s.microcode := rfl
@[simp] theorem State.setIr_names (v : Int) : (s.setIr v).names = s.names := rfl
@[simp] theorem State.setIr_inbox (v : Int) : (s.setIr v).inbox = s.inbox := rfl
@[simp] theorem State.setIr_progress (v : Int) : (s.setIr v).progress = s.progress := rfl
@[simp] theorem State.setIr_response (v : Int) : (s.setIr v).response = s.response := rfl
@[simp] theorem State.setIr_events (v : Int) : (s.setIr v).events = s.events ++ regEvents .ir 19999 v := rfl
@[simp] theorem State.setIr_lastFault (v : Int) : (s.setIr v).lastFault = s.lastFault := rfl
@[simp] theorem State.setIr_ending (v : Int) : (s.setIr v).ending = s.ending := rfl
@[simp] theorem State.setIr_memRead (v : Int) (x : Nat) : (s.setIr v).memRead x = s.memRead x := rfl
@[simp] theorem State.setIr_mcRead (v : Int) (x : Nat) : (s.setIr v).mcRead x = s.mcRead x := rfl
@[simp] theorem State.setIr_nameRead (v : Int) (x : Nat) : (s.setIr v).nameRead x = s.nameRead x := rfl
@[simp] theorem State.setIr_slotId (v : Int) : (s.setIr v).slotId = s.slotId := rfl
@[simp] theorem State.setIr_macroEnded (v : Int) : (s.setIr v).macroEnded = s.macroEnded := rfl

@[simp] theorem State.setMc_ab (v : Int) : (s.setMc v).ab = s.ab := rfl
@[simp] theorem State.setMc_db (v : Int) : (s.setMc v).db = s.db := rfl
@[simp] theorem State.setMc_acc (v : Int) : (s.setMc v).acc = s.acc := rfl
@[simp] theorem State.setMc_pc (v : Int) : (s.setMc v).pc = s.pc := rfl
@[simp] theorem State.setMc_ir (v : Int) : (s.setMc v).ir = s.ir := rfl
@[simp] theorem State.setMc_mc (v : Int) : (s.setMc v).mc = clampSlot v := rfl
@[simp] theorem State.setMc_halted (v : Int) : (s.setMc v).halted = s.halted := rfl
@[simp] theorem State.setMc_running (v : Int) : (s.setMc v).running = s.running := rfl
@[simp] theorem State.setMc_recCursor (v : Int) : (s.setMc v).recCursor = s.recCursor := rfl
@[simp] theorem State.setMc_lastAccessed (v : Int) : (s.setMc v).lastAccessed = s.lastAccessed := rfl
@[simp] theorem State.setMc_memory (v : Int) : (s.setMc v).memory = s.memory := rfl
@[simp] theorem State.setMc_microcode (v : Int) : (s.setMc v).microcode = s.microcode := rfl
@[simp] theorem State.setMc_names (v : Int) : (s.setMc v).names = s.names := rfl
@[simp] theorem State.setMc_inbox (v : Int) : (s.setMc v).inbox = s.inbox := rfl
@[simp] theorem State.setMc_progress (v : Int) : (s.setMc v).progress = s.progress := rfl
@[simp] theorem State.setMc_response (v : Int) : (s.setMc v).response = s.response := rfl
@[simp] theorem State.setMc_events (v : Int) : (s.setMc v).events = s.events ++ regEvents .mc 199 v := rfl
@[simp] theorem State.setMc_lastFault (v : Int) : (s.setMc v).lastFault = s.lastFault := rfl
@[simp] theorem State.setMc_ending (v : Int) : (s.setMc v).ending = s.ending := rfl
@[simp] theorem State.setMc_memRead (v : Int) (x : Nat) : (s.setMc v).memRead x = s.memRead x := rfl
@[simp] theorem State.setMc_mcRead (v : Int) (x : Nat) : (s.setMc v).mcRead x = s.mcRead x := rfl
@[simp] theorem State.setMc_nameRead (v : Int) (x : Nat) : (s.setMc v).nameRead x = s.nameRead x := rfl
@[simp] theorem State.setMc_irOpcode (v : Int) : (s.setMc v).irOpcode = s.irOpcode := rfl
@[simp] theorem State.setMc_irOperand (v : Int) : (s.setMc v).irOperand = s.irOperand := rfl

@[simp] theorem State.memWrite_ab (a : Nat) (v : Word) : (s.memWrite a v).ab = s.ab := rfl
@[simp] theorem State.memWrite_db (a : Nat) (v : Word) : (s.memWrite a v).db = s.db := rfl
@[simp] theorem State.memWrite_acc (a : Nat) (v : Word) : (s.memWrite a v).acc = s.acc := rfl
@[simp] theorem State.memWrite_pc (a : Nat) (v : Word) : (s.memWrite a v).pc = s.pc := rfl
@[simp] theorem State.memWrite_ir (a : Nat) (v : Word) : (s.memWrite a v).ir = s.ir := rfl
@[simp] theorem State.memWrite_mc (a : Nat) (v : Word) : (s.memWrite a v).mc = s.mc := rfl
@[simp] theorem State.memWrite_halted (a : Nat) (v : Word) : (s.memWrite a v).halted = s.halted := rfl
@[simp] theorem State.memWrite_running (a : Nat) (v : Word) : (s.memWrite a v).running = s.running := rfl
@[simp] theorem State.memWrite_recCursor (a : Nat) (v : Word) : (s.memWrite a v).recCursor = s.recCursor := rfl
@[simp] theorem State.memWrite_lastAccessed (a : Nat) (v : Word) : (s.memWrite a v).lastAccessed = s.lastAccessed := rfl
@[simp] theorem State.memWrite_memory (a : Nat) (v : Word) : (s.memWrite a v).memory = Store.write 0 s.memory a v := rfl
@[simp] theorem State.memWrite_microcode (a : Nat) (v : Word) : (s.memWrite a v).microcode = s.microcode := rfl
@[simp] theorem State.memWrite_names (a : Nat) (v : Word) : (s.memWrite a v).names = s.names := rfl
@[simp] theorem State.memWrite_inbox (a : Nat) (v : Word) : (s.memWrite a v).inbox = s.inbox := rfl
@[simp] theorem State.memWrite_progress (a : Nat) (v : Word) : (s.memWrite a v).progress = s.progress := rfl
@[simp] theorem State.memWrite_response (a : Nat) (v : Word) : (s.memWrite a v).response = s.response := rfl
@[simp] theorem State.memWrite_events (a : Nat) (v : Word) : (s.memWrite a v).events = s.events ++ [.memoryChanged a] := rfl
@[simp] theorem State.memWrite_lastFault (a : Nat) (v : Word) : (s.memWrite a v).lastFault = s.lastFault := rfl
@[simp] theorem State.memWrite_ending (a : Nat) (v : Word) : (s.memWrite a v).ending = s.ending := rfl
@[simp] theorem State.memWrite_mcRead (a : Nat) (v : Word) (x : Nat) : (s.memWrite a v).mcRead x = s.mcRead x := rfl
@[simp] theorem State.memWrite_nameRead (a : Nat) (v : Word) (x : Nat) : (s.memWrite a v).nameRead x = s.nameRead x := rfl
@[simp] theorem State.memWrite_irOpcode (a : Nat) (v : Word) : (s.memWrite a v).irOpcode = s.irOpcode := rfl
@[simp] theorem State.memWrite_irOperand (a : Nat) (v : Word) : (s.memWrite a v).irOperand = s.irOperand := rfl
@[simp] theorem State.memWrite_slotId (a : Nat) (v : Word) : (s.memWrite a v).slotId = s.slotId := rfl
@[simp] theorem State.memWrite_macroEnded (a : Nat) (v : Word) : (s.memWrite a v).macroEnded = s.macroEnded := rfl

@[simp] theorem State.mcWrite_ab (a id : Nat) : (s.mcWrite a id).ab = s.ab := rfl
@[simp] theorem State.mcWrite_db (a id : Nat) : (s.mcWrite a id).db = s.db := rfl
@[simp] theorem State.mcWrite_acc (a id : Nat) : (s.mcWrite a id).acc = s.acc := rfl
@[simp] theorem State.mcWrite_pc (a id : Nat) : (s.mcWrite a id).pc = s.pc := rfl
@[simp] theorem State.mcWrite_ir (a id : Nat) : (s.mcWrite a id).ir = s.ir := rfl
@[simp] theorem State.mcWrite_mc (a id : Nat) : (s.mcWrite a id).mc = s.mc := rfl
@[simp] theorem State.mcWrite_halted (a id : Nat) : (s.mcWrite a id).halted = s.halted := rfl
@[simp] theorem State.mcWrite_running (a id : Nat) : (s.mcWrite a id).running = s.running := rfl
@[simp] theorem State.mcWrite_recCursor (a id : Nat) : (s.mcWrite a id).recCursor = s.recCursor := rfl
@[simp] theorem State.mcWrite_lastAccessed (a id : Nat) : (s.mcWrite a id).lastAccessed = s.lastAccessed := rfl
@[simp] theorem State.mcWrite_memory (a id : Nat) : (s.mcWrite a id).memory = s.memory := rfl
@[simp] theorem State.mcWrite_microcode (a id : Nat) : (s.mcWrite a id).microcode = Store.write 0 s.microcode a id := rfl
@[simp] theorem State.mcWrite_names (a id : Nat) : (s.mcWrite a id).names = s.names := rfl
@[simp] theorem State.mcWrite_inbox (a id : Nat) : (s.mcWrite a id).inbox = s.inbox := rfl
@[simp] theorem State.mcWrite_progress (a id : Nat) : (s.mcWrite a id).progress = s.progress := rfl
@[simp] theorem State.mcWrite_response (a id : Nat) : (s.mcWrite a id).response = s.response := rfl
@[simp] theorem State.mcWrite_events (a id : Nat) : (s.mcWrite a id).events = s.events ++ [.microcodeChanged a] := rfl
@[simp] theorem State.mcWrite_lastFault (a id : Nat) : (s.mcWrite a id).lastFault = s.lastFault := rfl
@[simp] theorem State.mcWrite_ending (a id : Nat) : (s.mcWrite a id).ending = s.ending := rfl
@[simp] theorem State.mcWrite_memRead (a id : Nat) (x : Nat) : (s.mcWrite a id).memRead x = s.memRead x := rfl
@[simp] theorem State.mcWrite_nameRead (a id : Nat) (x : Nat) : (s.mcWrite a id).nameRead x = s.nameRead x := rfl
@[simp] theorem State.mcWrite_irOpcode (a id : Nat) : (s.mcWrite a id).irOpcode = s.irOpcode := rfl
@[simp] theorem State.mcWrite_irOperand (a id : Nat) : (s.mcWrite a id).irOperand = s.irOperand := rfl
@[simp] theorem State.mcWrite_macroEnded (a id : Nat) : (s.mcWrite a id).macroEnded = s.macroEnded := rfl

@[simp] theorem State.nameWrite_ab (k : Nat) (n : Option Text) : (s.nameWrite k n).ab = s.ab := rfl
@[simp] theorem State.nameWrite_db (k : Nat) (n : Option Text) : (s.nameWrite k n).db = s.db := rfl
@[simp] theorem State.nameWrite_acc (k : Nat) (n : Option Text) : (s.nameWrite k n).acc = s.acc := rfl
@[simp] theorem State.nameWrite_pc (k : Nat) (n : Option Text) : (s.nameWrite k n).pc = s.pc := rfl
@[simp] theorem State.nameWrite_ir (k : Nat) (n : Option Text) : (s.nameWrite k n).ir = s.ir := rfl
@[simp] theorem State.nameWrite_mc (k : Nat) (n : Option Text) : (s.nameWrite k n).mc = s.mc := rfl
@[simp] theorem State.nameWrite_halted (k : Nat) (n : Option Text) : (s.nameWrite k n).halted = s.halted := rfl
@[simp] theorem State.nameWrite_running (k : Nat) (n : Option Text) : (s.nameWrite k n).running = s.running := rfl
@[simp] theorem State.nameWrite_recCursor (k : Nat) (n : Option Text) : (s.nameWrite k n).recCursor = s.recCursor := rfl
@[simp] theorem State.nameWrite_lastAccessed (k : Nat) (n : Option Text) : (s.nameWrite k n).lastAccessed = s.lastAccessed := rfl
@[simp] theorem State.nameWrite_memory (k : Nat) (n : Option Text) : (s.nameWrite k n).memory = s.memory := rfl
@[simp] theorem State.nameWrite_microcode (k : Nat) (n : Option Text) : (s.nameWrite k n).microcode = s.microcode := rfl
@[simp] theorem State.nameWrite_names (k : Nat) (n : Option Text) : (s.nameWrite k n).names = Store.write none s.names k n := rfl
@[simp] theorem State.nameWrite_inbox (k : Nat) (n : Option Text) : (s.nameWrite k n).inbox = s.inbox := rfl
@[simp] theorem State.nameWrite_progress (k : Nat) (n : Option Text) : (s.nameWrite k n).progress = s.progress := rfl
@[simp] theorem State.nameWrite_response (k : Nat) (n : Option Text) : (s.nameWrite k n).response = s.response := rfl
@[simp] theorem State.nameWrite_events (k : Nat) (n : Option Text) : (s.nameWrite k n).events = s.events ++ [.nameChanged k] := rfl
@[simp] theorem State.nameWrite_lastFault (k : Nat) (n : Option Text) : (s.nameWrite k n).lastFault = s.lastFault := rfl
@[simp] theorem State.nameWrite_ending (k : Nat) (n : Option Text) : (s.nameWrite k n).ending = s.ending := rfl
@[simp] theorem State.nameWrite_memRead (k : Nat) (n : Option Text) (x : Nat) : (s.nameWrite k n).memRead x = s.memRead x := rfl
@[simp] theorem State.nameWrite_mcRead (k : Nat) (n : Option Text) (x : Nat) : (s.nameWrite k n).mcRead x = s.mcRead x := rfl
@[simp] theorem State.nameWrite_irOpcode (k : Nat) (n : Option Text) : (s.nameWrite k n).irOpcode = s.irOpcode := rfl
@[simp] theorem State.nameWrite_irOperand (k : Nat) (n : Option Text) : (s.nameWrite k n).irOperand = s.irOperand := rfl
@[simp] theorem State.nameWrite_slotId (k : Nat) (n : Option Text) : (s.nameWrite k n).slotId = s.slotId := rfl
@[simp] theorem State.nameWrite_macroEnded (k : Nat) (n : Option Text) : (s.nameWrite k n).macroEnded = s.macroEnded := rfl

@[simp] theorem State.markAccess_ab : (s.markAccess).ab = s.ab := rfl
@[simp] theorem State.markAccess_db : (s.markAccess).db = s.db := rfl
@[simp] theorem State.markAccess_acc : (s.markAccess).acc = s.acc := rfl
@[simp] theorem State.markAccess_pc : (s.markAccess).pc = s.pc := rfl
@[simp] theorem State.markAccess_ir : (s.markAccess).ir = s.ir := rfl
@[simp] theorem State.markAccess_mc : (s.markAccess).mc = s.mc := rfl
@[simp] theorem State.markAccess_halted : (s.markAccess).halted = s.halted := rfl
@[simp] theorem State.markAccess_running : (s.markAccess).running = s.running := rfl
@[simp] theorem State.markAccess_recCursor : (s.markAccess).recCursor = s.recCursor := rfl
@[simp] theorem State.markAccess_lastAccessed : (s.markAccess).lastAccessed = some s.ab := rfl
@[simp] theorem State.markAccess_memory : (s.markAccess).memory = s.memory := rfl
@[simp] theorem State.markAccess_microcode : (s.markAccess).microcode = s.microcode := rfl
@[simp] theorem State.markAccess_names : (s.markAccess).names = s.names := rfl
@[simp] theorem State.markAccess_inbox : (s.markAccess).inbox = s.inbox := rfl
@[simp] theorem State.markAccess_progress : (s.markAccess).progress = s.progress := rfl
@[simp] theorem State.markAccess_response : (s.markAccess).response = s.response := rfl
@[simp] theorem State.markAccess_events : (s.markAccess).events = s.events := rfl
@[simp] theorem State.markAccess_lastFault : (s.markAccess).lastFault = s.lastFault := rfl
@[simp] theorem State.markAccess_ending : (s.markAccess).ending = s.ending := rfl
@[simp] theorem State.markAccess_memRead (x : Nat) : (s.markAccess).memRead x = s.memRead x := rfl
@[simp] theorem State.markAccess_mcRead (x : Nat) : (s.markAccess).mcRead x = s.mcRead x := rfl
@[simp] theorem State.markAccess_nameRead (x : Nat) : (s.markAccess).nameRead x = s.nameRead x := rfl
@[simp] theorem State.markAccess_irOpcode : (s.markAccess).irOpcode = s.irOpcode := rfl
@[simp] theorem State.markAccess_irOperand : (s.markAccess).irOperand = s.irOperand := rfl
@[simp] theorem State.markAccess_slotId : (s.markAccess).slotId = s.slotId := rfl
@[simp] theorem State.markAccess_macroEnded : (s.markAccess).macroEnded = s.macroEnded := rfl

@[simp] theorem State.answer_ab (r : Response) : (s.answer r).ab = s.ab := rfl
@[simp] theorem State.answer_db (r : Response) : (s.answer r).db = s.db := rfl
@[simp] theorem State.answer_acc (r : Response) : (s.answer r).acc = s.acc := rfl
@[simp] theorem State.answer_pc (r : Response) : (s.answer r).pc = s.pc := rfl
@[simp] theorem State.answer_ir (r : Response) : (s.answer r).ir = s.ir := rfl
@[simp] theorem State.answer_mc (r : Response) : (s.answer r).mc = s.mc := rfl
@[simp] theorem State.answer_halted (r : Response) : (s.answer r).halted = s.halted := rfl
@[simp] theorem State.answer_running (r : Response) : (s.answer r).running = s.running := rfl
@[simp] theorem State.answer_recCursor (r : Response) : (s.answer r).recCursor = s.recCursor := rfl
@[simp] theorem State.answer_lastAccessed (r : Response) : (s.answer r).lastAccessed = s.lastAccessed := rfl
@[simp] theorem State.answer_memory (r : Response) : (s.answer r).memory = s.memory := rfl
@[simp] theorem State.answer_microcode (r : Response) : (s.answer r).microcode = s.microcode := rfl
@[simp] theorem State.answer_names (r : Response) : (s.answer r).names = s.names := rfl
@[simp] theorem State.answer_inbox (r : Response) : (s.answer r).inbox = s.inbox := rfl
@[simp] theorem State.answer_progress (r : Response) : (s.answer r).progress = s.progress := rfl
@[simp] theorem State.answer_response (r : Response) : (s.answer r).response = some r := rfl
@[simp] theorem State.answer_events (r : Response) : (s.answer r).events = s.events := rfl
@[simp] theorem State.answer_lastFault (r : Response) : (s.answer r).lastFault = s.lastFault := rfl
@[simp] theorem State.answer_ending (r : Response) : (s.answer r).ending = s.ending := rfl
@[simp] theorem State.answer_memRead (r : Response) (x : Nat) : (s.answer r).memRead x = s.memRead x := rfl
@[simp] theorem State.answer_mcRead (r : Response) (x : Nat) : (s.answer r).mcRead x = s.mcRead x := rfl
@[simp] theorem State.answer_nameRead (r : Response) (x : Nat) : (s.answer r).nameRead x = s.nameRead x := rfl
@[simp] theorem State.answer_irOpcode (r : Response) : (s.answer r).irOpcode = s.irOpcode := rfl
@[simp] theorem State.answer_irOperand (r : Response) : (s.answer r).irOperand = s.irOperand := rfl
@[simp] theorem State.answer_slotId (r : Response) : (s.answer r).slotId = s.slotId := rfl
@[simp] theorem State.answer_macroEnded (r : Response) : (s.answer r).macroEnded = s.macroEnded := rfl

@[simp] theorem State.halt_ab (e : Ending) : (s.halt e).ab = s.ab := rfl
@[simp] theorem State.halt_db (e : Ending) : (s.halt e).db = s.db := rfl
@[simp] theorem State.halt_acc (e : Ending) : (s.halt e).acc = s.acc := rfl
@[simp] theorem State.halt_pc (e : Ending) : (s.halt e).pc = s.pc := rfl
@[simp] theorem State.halt_ir (e : Ending) : (s.halt e).ir = s.ir := rfl
@[simp] theorem State.halt_mc (e : Ending) : (s.halt e).mc = s.mc := rfl
@[simp] theorem State.halt_halted (e : Ending) : (s.halt e).halted = true := rfl
@[simp] theorem State.halt_running (e : Ending) : (s.halt e).running = s.running := rfl
@[simp] theorem State.halt_recCursor (e : Ending) : (s.halt e).recCursor = s.recCursor := rfl
@[simp] theorem State.halt_lastAccessed (e : Ending) : (s.halt e).lastAccessed = s.lastAccessed := rfl
@[simp] theorem State.halt_memory (e : Ending) : (s.halt e).memory = s.memory := rfl
@[simp] theorem State.halt_microcode (e : Ending) : (s.halt e).microcode = s.microcode := rfl
@[simp] theorem State.halt_names (e : Ending) : (s.halt e).names = s.names := rfl
@[simp] theorem State.halt_inbox (e : Ending) : (s.halt e).inbox = s.inbox := rfl
@[simp] theorem State.halt_progress (e : Ending) : (s.halt e).progress = s.progress := rfl
@[simp] theorem State.halt_response (e : Ending) : (s.halt e).response = s.response := rfl
@[simp] theorem State.halt_events (e : Ending) : (s.halt e).events = s.events ++ [.haltChanged true] := rfl
@[simp] theorem State.halt_lastFault (e : Ending) : (s.halt e).lastFault = s.lastFault := rfl
@[simp] theorem State.halt_ending (e : Ending) : (s.halt e).ending = if s.halted then s.ending else some e := rfl
@[simp] theorem State.halt_memRead (e : Ending) (x : Nat) : (s.halt e).memRead x = s.memRead x := rfl
@[simp] theorem State.halt_mcRead (e : Ending) (x : Nat) : (s.halt e).mcRead x = s.mcRead x := rfl
@[simp] theorem State.halt_nameRead (e : Ending) (x : Nat) : (s.halt e).nameRead x = s.nameRead x := rfl
@[simp] theorem State.halt_irOpcode (e : Ending) : (s.halt e).irOpcode = s.irOpcode := rfl
@[simp] theorem State.halt_irOperand (e : Ending) : (s.halt e).irOperand = s.irOperand := rfl
@[simp] theorem State.halt_slotId (e : Ending) : (s.halt e).slotId = s.slotId := rfl

@[simp] theorem State.takeFault_ab (f : ExecFault) : (s.takeFault f).ab = s.ab := rfl
@[simp] theorem State.takeFault_db (f : ExecFault) : (s.takeFault f).db = s.db := rfl
@[simp] theorem State.takeFault_acc (f : ExecFault) : (s.takeFault f).acc = s.acc := rfl
@[simp] theorem State.takeFault_pc (f : ExecFault) : (s.takeFault f).pc = s.pc := rfl
@[simp] theorem State.takeFault_ir (f : ExecFault) : (s.takeFault f).ir = s.ir := rfl
@[simp] theorem State.takeFault_mc (f : ExecFault) : (s.takeFault f).mc = s.mc := rfl
@[simp] theorem State.takeFault_halted (f : ExecFault) : (s.takeFault f).halted = true := rfl
@[simp] theorem State.takeFault_running (f : ExecFault) : (s.takeFault f).running = s.running := rfl
@[simp] theorem State.takeFault_recCursor (f : ExecFault) : (s.takeFault f).recCursor = s.recCursor := rfl
@[simp] theorem State.takeFault_lastAccessed (f : ExecFault) : (s.takeFault f).lastAccessed = s.lastAccessed := rfl
@[simp] theorem State.takeFault_memory (f : ExecFault) : (s.takeFault f).memory = s.memory := rfl
@[simp] theorem State.takeFault_microcode (f : ExecFault) : (s.takeFault f).microcode = s.microcode := rfl
@[simp] theorem State.takeFault_names (f : ExecFault) : (s.takeFault f).names = s.names := rfl
@[simp] theorem State.takeFault_inbox (f : ExecFault) : (s.takeFault f).inbox = s.inbox := rfl
@[simp] theorem State.takeFault_progress (f : ExecFault) : (s.takeFault f).progress = s.progress := rfl
@[simp] theorem State.takeFault_response (f : ExecFault) : (s.takeFault f).response = some (.execFault f) := rfl
@[simp] theorem State.takeFault_events (f : ExecFault) : (s.takeFault f).events = s.events ++ [.haltChanged true] := rfl
@[simp] theorem State.takeFault_lastFault (f : ExecFault) : (s.takeFault f).lastFault = some f := rfl
@[simp] theorem State.takeFault_ending (f : ExecFault) : (s.takeFault f).ending = if s.halted then s.ending else some (.fault f) := rfl
@[simp] theorem State.takeFault_memRead (f : ExecFault) (x : Nat) : (s.takeFault f).memRead x = s.memRead x := rfl
@[simp] theorem State.takeFault_mcRead (f : ExecFault) (x : Nat) : (s.takeFault f).mcRead x = s.mcRead x := rfl
@[simp] theorem State.takeFault_nameRead (f : ExecFault) (x : Nat) : (s.takeFault f).nameRead x = s.nameRead x := rfl
@[simp] theorem State.takeFault_irOpcode (f : ExecFault) : (s.takeFault f).irOpcode = s.irOpcode := rfl
@[simp] theorem State.takeFault_irOperand (f : ExecFault) : (s.takeFault f).irOperand = s.irOperand := rfl
@[simp] theorem State.takeFault_slotId (f : ExecFault) : (s.takeFault f).slotId = s.slotId := rfl

@[simp] theorem State.setMemory_ab (m : Memory) : (s.setMemory m).ab = s.ab := rfl
@[simp] theorem State.setMemory_db (m : Memory) : (s.setMemory m).db = s.db := rfl
@[simp] theorem State.setMemory_acc (m : Memory) : (s.setMemory m).acc = s.acc := rfl
@[simp] theorem State.setMemory_pc (m : Memory) : (s.setMemory m).pc = s.pc := rfl
@[simp] theorem State.setMemory_ir (m : Memory) : (s.setMemory m).ir = s.ir := rfl
@[simp] theorem State.setMemory_mc (m : Memory) : (s.setMemory m).mc = s.mc := rfl
@[simp] theorem State.setMemory_halted (m : Memory) : (s.setMemory m).halted = s.halted := rfl
@[simp] theorem State.setMemory_running (m : Memory) : (s.setMemory m).running = s.running := rfl
@[simp] theorem State.setMemory_recCursor (m : Memory) : (s.setMemory m).recCursor = s.recCursor := rfl
@[simp] theorem State.setMemory_lastAccessed (m : Memory) : (s.setMemory m).lastAccessed = s.lastAccessed := rfl
@[simp] theorem State.setMemory_memory (m : Memory) : (s.setMemory m).memory = m := rfl
@[simp] theorem State.setMemory_microcode (m : Memory) : (s.setMemory m).microcode = s.microcode := rfl
@[simp] theorem State.setMemory_names (m : Memory) : (s.setMemory m).names = s.names := rfl
@[simp] theorem State.setMemory_inbox (m : Memory) : (s.setMemory m).inbox = s.inbox := rfl
@[simp] theorem State.setMemory_progress (m : Memory) : (s.setMemory m).progress = s.progress := rfl
@[simp] theorem State.setMemory_response (m : Memory) : (s.setMemory m).response = s.response := rfl
@[simp] theorem State.setMemory_events (m : Memory) : (s.setMemory m).events = s.events ++ bulkEvents .memoryChanged 1000 := rfl
@[simp] theorem State.setMemory_lastFault (m : Memory) : (s.setMemory m).lastFault = s.lastFault := rfl
@[simp] theorem State.setMemory_ending (m : Memory) : (s.setMemory m).ending = s.ending := rfl
@[simp] theorem State.setMemory_mcRead (m : Memory) (x : Nat) : (s.setMemory m).mcRead x = s.mcRead x := rfl
@[simp] theorem State.setMemory_nameRead (m : Memory) (x : Nat) : (s.setMemory m).nameRead x = s.nameRead x := rfl
@[simp] theorem State.setMemory_irOpcode (m : Memory) : (s.setMemory m).irOpcode = s.irOpcode := rfl
@[simp] theorem State.setMemory_irOperand (m : Memory) : (s.setMemory m).irOperand = s.irOperand := rfl
@[simp] theorem State.setMemory_slotId (m : Memory) : (s.setMemory m).slotId = s.slotId := rfl
@[simp] theorem State.setMemory_macroEnded (m : Memory) : (s.setMemory m).macroEnded = s.macroEnded := rfl

@[simp] theorem State.setMicrocode_ab (m : Microcode) : (s.setMicrocode m).ab = s.ab := rfl
@[simp] theorem State.setMicrocode_db (m : Microcode) : (s.setMicrocode m).db = s.db := rfl
@[simp] theorem State.setMicrocode_acc (m : Microcode) : (s.setMicrocode m).acc = s.acc := rfl
@[simp] theorem State.setMicrocode_pc (m : Microcode) : (s.setMicrocode m).pc = s.pc := rfl
@[simp] theorem State.setMicrocode_ir (m : Microcode) : (s.setMicrocode m).ir = s.ir := rfl
@[simp] theorem State.setMicrocode_mc (m : Microcode) : (s.setMicrocode m).mc = s.mc := rfl
@[simp] theorem State.setMicrocode_halted (m : Microcode) : (s.setMicrocode m).halted = s.halted := rfl
@[simp] theorem State.setMicrocode_running (m : Microcode) : (s.setMicrocode m).running = s.running := rfl
@[simp] theorem State.setMicrocode_recCursor (m : Microcode) : (s.setMicrocode m).recCursor = s.recCursor := rfl
@[simp] theorem State.setMicrocode_lastAccessed (m : Microcode) : (s.setMicrocode m).lastAccessed = s.lastAccessed := rfl
@[simp] theorem State.setMicrocode_memory (m : Microcode) : (s.setMicrocode m).memory = s.memory := rfl
@[simp] theorem State.setMicrocode_microcode (m : Microcode) : (s.setMicrocode m).microcode = m := rfl
@[simp] theorem State.setMicrocode_names (m : Microcode) : (s.setMicrocode m).names = s.names := rfl
@[simp] theorem State.setMicrocode_inbox (m : Microcode) : (s.setMicrocode m).inbox = s.inbox := rfl
@[simp] theorem State.setMicrocode_progress (m : Microcode) : (s.setMicrocode m).progress = s.progress := rfl
@[simp] theorem State.setMicrocode_response (m : Microcode) : (s.setMicrocode m).response = s.response := rfl
@[simp] theorem State.setMicrocode_events (m : Microcode) : (s.setMicrocode m).events = s.events ++ bulkEvents .microcodeChanged 200 := rfl
@[simp] theorem State.setMicrocode_lastFault (m : Microcode) : (s.setMicrocode m).lastFault = s.lastFault := rfl
@[simp] theorem State.setMicrocode_ending (m : Microcode) : (s.setMicrocode m).ending = s.ending := rfl
@[simp] theorem State.setMicrocode_memRead (m : Microcode) (x : Nat) : (s.setMicrocode m).memRead x = s.memRead x := rfl
@[simp] theorem State.setMicrocode_nameRead (m : Microcode) (x : Nat) : (s.setMicrocode m).nameRead x = s.nameRead x := rfl
@[simp] theorem State.setMicrocode_irOpcode (m : Microcode) : (s.setMicrocode m).irOpcode = s.irOpcode := rfl
@[simp] theorem State.setMicrocode_irOperand (m : Microcode) : (s.setMicrocode m).irOperand = s.irOperand := rfl
@[simp] theorem State.setMicrocode_macroEnded (m : Microcode) : (s.setMicrocode m).macroEnded = s.macroEnded := rfl

@[simp] theorem State.setNames_ab (m : NameTable) : (s.setNames m).ab = s.ab := rfl
@[simp] theorem State.setNames_db (m : NameTable) : (s.setNames m).db = s.db := rfl
@[simp] theorem State.setNames_acc (m : NameTable) : (s.setNames m).acc = s.acc := rfl
@[simp] theorem State.setNames_pc (m : NameTable) : (s.setNames m).pc = s.pc := rfl
@[simp] theorem State.setNames_ir (m : NameTable) : (s.setNames m).ir = s.ir := rfl
@[simp] theorem State.setNames_mc (m : NameTable) : (s.setNames m).mc = s.mc := rfl
@[simp] theorem State.setNames_halted (m : NameTable) : (s.setNames m).halted = s.halted := rfl
@[simp] theorem State.setNames_running (m : NameTable) : (s.setNames m).running = s.running := rfl
@[simp] theorem State.setNames_recCursor (m : NameTable) : (s.setNames m).recCursor = s.recCursor := rfl
@[simp] theorem State.setNames_lastAccessed (m : NameTable) : (s.setNames m).lastAccessed = s.lastAccessed := rfl
@[simp] theorem State.setNames_memory (m : NameTable) : (s.setNames m).memory = s.memory := rfl
@[simp] theorem State.setNames_microcode (m : NameTable) : (s.setNames m).microcode = s.microcode := rfl
@[simp] theorem State.setNames_names (m : NameTable) : (s.setNames m).names = m := rfl
@[simp] theorem State.setNames_inbox (m : NameTable) : (s.setNames m).inbox = s.inbox := rfl
@[simp] theorem State.setNames_progress (m : NameTable) : (s.setNames m).progress = s.progress := rfl
@[simp] theorem State.setNames_response (m : NameTable) : (s.setNames m).response = s.response := rfl
@[simp] theorem State.setNames_events (m : NameTable) : (s.setNames m).events = s.events ++ bulkEvents .nameChanged 20 := rfl
@[simp] theorem State.setNames_lastFault (m : NameTable) : (s.setNames m).lastFault = s.lastFault := rfl
@[simp] theorem State.setNames_ending (m : NameTable) : (s.setNames m).ending = s.ending := rfl
@[simp] theorem State.setNames_memRead (m : NameTable) (x : Nat) : (s.setNames m).memRead x = s.memRead x := rfl
@[simp] theorem State.setNames_mcRead (m : NameTable) (x : Nat) : (s.setNames m).mcRead x = s.mcRead x := rfl
@[simp] theorem State.setNames_irOpcode (m : NameTable) : (s.setNames m).irOpcode = s.irOpcode := rfl
@[simp] theorem State.setNames_irOperand (m : NameTable) : (s.setNames m).irOperand = s.irOperand := rfl
@[simp] theorem State.setNames_slotId (m : NameTable) : (s.setNames m).slotId = s.slotId := rfl
@[simp] theorem State.setNames_macroEnded (m : NameTable) : (s.setNames m).macroEnded = s.macroEnded := rfl

@[simp] theorem State.withIr_ab (w : Word) : (s.withIr w).ab = s.ab := rfl
@[simp] theorem State.withIr_db (w : Word) : (s.withIr w).db = s.db := rfl
@[simp] theorem State.withIr_acc (w : Word) : (s.withIr w).acc = s.acc := rfl
@[simp] theorem State.withIr_pc (w : Word) : (s.withIr w).pc = s.pc := rfl
@[simp] theorem State.withIr_ir (w : Word) : (s.withIr w).ir = w := rfl
@[simp] theorem State.withIr_mc (w : Word) : (s.withIr w).mc = s.mc := rfl
@[simp] theorem State.withIr_halted (w : Word) : (s.withIr w).halted = s.halted := rfl
@[simp] theorem State.withIr_running (w : Word) : (s.withIr w).running = s.running := rfl
@[simp] theorem State.withIr_recCursor (w : Word) : (s.withIr w).recCursor = s.recCursor := rfl
@[simp] theorem State.withIr_lastAccessed (w : Word) : (s.withIr w).lastAccessed = s.lastAccessed := rfl
@[simp] theorem State.withIr_memory (w : Word) : (s.withIr w).memory = s.memory := rfl
@[simp] theorem State.withIr_microcode (w : Word) : (s.withIr w).microcode = s.microcode := rfl
@[simp] theorem State.withIr_names (w : Word) : (s.withIr w).names = s.names := rfl
@[simp] theorem State.withIr_inbox (w : Word) : (s.withIr w).inbox = s.inbox := rfl
@[simp] theorem State.withIr_progress (w : Word) : (s.withIr w).progress = s.progress := rfl
@[simp] theorem State.withIr_response (w : Word) : (s.withIr w).response = s.response := rfl
@[simp] theorem State.withIr_events (w : Word) : (s.withIr w).events = s.events := rfl
@[simp] theorem State.withIr_lastFault (w : Word) : (s.withIr w).lastFault = s.lastFault := rfl
@[simp] theorem State.withIr_ending (w : Word) : (s.withIr w).ending = s.ending := rfl
@[simp] theorem State.withIr_memRead (w : Word) (x : Nat) : (s.withIr w).memRead x = s.memRead x := rfl
@[simp] theorem State.withIr_mcRead (w : Word) (x : Nat) : (s.withIr w).mcRead x = s.mcRead x := rfl
@[simp] theorem State.withIr_nameRead (w : Word) (x : Nat) : (s.withIr w).nameRead x = s.nameRead x := rfl
@[simp] theorem State.withIr_slotId (w : Word) : (s.withIr w).slotId = s.slotId := rfl
@[simp] theorem State.withIr_macroEnded (w : Word) : (s.withIr w).macroEnded = s.macroEnded := rfl

@[simp] theorem State.withInbox_ab (l : List Input) : (s.withInbox l).ab = s.ab := rfl
@[simp] theorem State.withInbox_db (l : List Input) : (s.withInbox l).db = s.db := rfl
@[simp] theorem State.withInbox_acc (l : List Input) : (s.withInbox l).acc = s.acc := rfl
@[simp] theorem State.withInbox_pc (l : List Input) : (s.withInbox l).pc = s.pc := rfl
@[simp] theorem State.withInbox_ir (l : List Input) : (s.withInbox l).ir = s.ir := rfl
@[simp] theorem State.withInbox_mc (l : List Input) : (s.withInbox l).mc = s.mc := rfl
@[simp] theorem State.withInbox_halted (l : List Input) : (s.withInbox l).halted = s.halted := rfl
@[simp] theorem State.withInbox_running (l : List Input) : (s.withInbox l).running = s.running := rfl
@[simp] theorem State.withInbox_recCursor (l : List Input) : (s.withInbox l).recCursor = s.recCursor := rfl
@[simp] theorem State.withInbox_lastAccessed (l : List Input) : (s.withInbox l).lastAccessed = s.lastAccessed := rfl
@[simp] theorem State.withInbox_memory (l : List Input) : (s.withInbox l).memory = s.memory := rfl
@[simp] theorem State.withInbox_microcode (l : List Input) : (s.withInbox l).microcode = s.microcode := rfl
@[simp] theorem State.withInbox_names (l : List Input) : (s.withInbox l).names = s.names := rfl
@[simp] theorem State.withInbox_inbox (l : List Input) : (s.withInbox l).inbox = l := rfl
@[simp] theorem State.withInbox_progress (l : List Input) : (s.withInbox l).progress = s.progress := rfl
@[simp] theorem State.withInbox_response (l : List Input) : (s.withInbox l).response = s.response := rfl
@[simp] theorem State.withInbox_events (l : List Input) : (s.withInbox l).events = s.events := rfl
@[simp] theorem State.withInbox_lastFault (l : List Input) : (s.withInbox l).lastFault = s.lastFault := rfl
@[simp] theorem State.withInbox_ending (l : List Input) : (s.withInbox l).ending = s.ending := rfl
@[simp] theorem State.withInbox_memRead (l : List Input) (x : Nat) : (s.withInbox l).memRead x = s.memRead x := rfl
@[simp] theorem State.withInbox_mcRead (l : List Input) (x : Nat) : (s.withInbox l).mcRead x = s.mcRead x := rfl
@[simp] theorem State.withInbox_nameRead (l : List Input) (x : Nat) : (s.withInbox l).nameRead x = s.nameRead x := rfl
@[simp] theorem State.withInbox_irOpcode (l : List Input) : (s.withInbox l).irOpcode = s.irOpcode := rfl
@[simp] theorem State.withInbox_irOperand (l : List Input) : (s.withInbox l).irOperand = s.irOperand := rfl
@[simp] theorem State.withInbox_slotId (l : List Input) : (s.withInbox l).slotId = s.slotId := rfl
@[simp] theorem State.withInbox_macroEnded (l : List Input) : (s.withInbox l).macroEnded = s.macroEnded := rfl

@[simp] theorem State.withProgress_ab (p : Progress) : (s.withProgress p).ab = s.ab := rfl
@[simp] theorem State.withProgress_db (p : Progress) : (s.withProgress p).db = s.db := rfl
@[simp] theorem State.withProgress_acc (p : Progress) : (s.withProgress p).acc = s.acc := rfl
@[simp] theorem State.withProgress_pc (p : Progress) : (s.withProgress p).pc = s.pc := rfl
@[simp] theorem State.withProgress_ir (p : Progress) : (s.withProgress p).ir = s.ir := rfl
@[simp] theorem State.withProgress_mc (p : Progress) : (s.withProgress p).mc = s.mc := rfl
@[simp] theorem State.withProgress_halted (p : Progress) : (s.withProgress p).halted = s.halted := rfl
@[simp] theorem State.withProgress_running (p : Progress) : (s.withProgress p).running = s.running := rfl
@[simp] theorem State.withProgress_recCursor (p : Progress) : (s.withProgress p).recCursor = s.recCursor := rfl
@[simp] theorem State.withProgress_lastAccessed (p : Progress) : (s.withProgress p).lastAccessed = s.lastAccessed := rfl
@[simp] theorem State.withProgress_memory (p : Progress) : (s.withProgress p).memory = s.memory := rfl
@[simp] theorem State.withProgress_microcode (p : Progress) : (s.withProgress p).microcode = s.microcode := rfl
@[simp] theorem State.withProgress_names (p : Progress) : (s.withProgress p).names = s.names := rfl
@[simp] theorem State.withProgress_inbox (p : Progress) : (s.withProgress p).inbox = s.inbox := rfl
@[simp] theorem State.withProgress_progress (p : Progress) : (s.withProgress p).progress = p := rfl
@[simp] theorem State.withProgress_response (p : Progress) : (s.withProgress p).response = s.response := rfl
@[simp] theorem State.withProgress_events (p : Progress) : (s.withProgress p).events = s.events := rfl
@[simp] theorem State.withProgress_lastFault (p : Progress) : (s.withProgress p).lastFault = s.lastFault := rfl
@[simp] theorem State.withProgress_ending (p : Progress) : (s.withProgress p).ending = s.ending := rfl
@[simp] theorem State.withProgress_memRead (p : Progress) (x : Nat) : (s.withProgress p).memRead x = s.memRead x := rfl
@[simp] theorem State.withProgress_mcRead (p : Progress) (x : Nat) : (s.withProgress p).mcRead x = s.mcRead x := rfl
@[simp] theorem State.withProgress_nameRead (p : Progress) (x : Nat) : (s.withProgress p).nameRead x = s.nameRead x := rfl
@[simp] theorem State.withProgress_irOpcode (p : Progress) : (s.withProgress p).irOpcode = s.irOpcode := rfl
@[simp] theorem State.withProgress_irOperand (p : Progress) : (s.withProgress p).irOperand = s.irOperand := rfl
@[simp] theorem State.withProgress_slotId (p : Progress) : (s.withProgress p).slotId = s.slotId := rfl
@[simp] theorem State.withProgress_macroEnded (p : Progress) : (s.withProgress p).macroEnded = s.macroEnded := rfl

@[simp] theorem State.withCursor_ab (c : Option Cursor) : (s.withCursor c).ab = s.ab := rfl
@[simp] theorem State.withCursor_db (c : Option Cursor) : (s.withCursor c).db = s.db := rfl
@[simp] theorem State.withCursor_acc (c : Option Cursor) : (s.withCursor c).acc = s.acc := rfl
@[simp] theorem State.withCursor_pc (c : Option Cursor) : (s.withCursor c).pc = s.pc := rfl
@[simp] theorem State.withCursor_ir (c : Option Cursor) : (s.withCursor c).ir = s.ir := rfl
@[simp] theorem State.withCursor_mc (c : Option Cursor) : (s.withCursor c).mc = s.mc := rfl
@[simp] theorem State.withCursor_halted (c : Option Cursor) : (s.withCursor c).halted = s.halted := rfl
@[simp] theorem State.withCursor_running (c : Option Cursor) : (s.withCursor c).running = s.running := rfl
@[simp] theorem State.withCursor_recCursor (c : Option Cursor) : (s.withCursor c).recCursor = c := rfl
@[simp] theorem State.withCursor_lastAccessed (c : Option Cursor) : (s.withCursor c).lastAccessed = s.lastAccessed := rfl
@[simp] theorem State.withCursor_memory (c : Option Cursor) : (s.withCursor c).memory = s.memory := rfl
@[simp] theorem State.withCursor_microcode (c : Option Cursor) : (s.withCursor c).microcode = s.microcode := rfl
@[simp] theorem State.withCursor_names (c : Option Cursor) : (s.withCursor c).names = s.names := rfl
@[simp] theorem State.withCursor_inbox (c : Option Cursor) : (s.withCursor c).inbox = s.inbox := rfl
@[simp] theorem State.withCursor_progress (c : Option Cursor) : (s.withCursor c).progress = s.progress := rfl
@[simp] theorem State.withCursor_response (c : Option Cursor) : (s.withCursor c).response = s.response := rfl
@[simp] theorem State.withCursor_events (c : Option Cursor) : (s.withCursor c).events = s.events := rfl
@[simp] theorem State.withCursor_lastFault (c : Option Cursor) : (s.withCursor c).lastFault = s.lastFault := rfl
@[simp] theorem State.withCursor_ending (c : Option Cursor) : (s.withCursor c).ending = s.ending := rfl
@[simp] theorem State.withCursor_memRead (c : Option Cursor) (x : Nat) : (s.withCursor c).memRead x = s.memRead x := rfl
@[simp] theorem State.withCursor_mcRead (c : Option Cursor) (x : Nat) : (s.withCursor c).mcRead x = s.mcRead x := rfl
@[simp] theorem State.withCursor_nameRead (c : Option Cursor) (x : Nat) : (s.withCursor c).nameRead x = s.nameRead x := rfl
@[simp] theorem State.withCursor_irOpcode (c : Option Cursor) : (s.withCursor c).irOpcode = s.irOpcode := rfl
@[simp] theorem State.withCursor_irOperand (c : Option Cursor) : (s.withCursor c).irOperand = s.irOperand := rfl
@[simp] theorem State.withCursor_slotId (c : Option Cursor) : (s.withCursor c).slotId = s.slotId := rfl
@[simp] theorem State.withCursor_macroEnded (c : Option Cursor) : (s.withCursor c).macroEnded = s.macroEnded := rfl

@[simp] theorem State.emitAll_ab (es : List Event) : (s.emitAll es).ab = s.ab := rfl
@[simp] theorem State.emitAll_db (es : List Event) : (s.emitAll es).db = s.db := rfl
@[simp] theorem State.emitAll_acc (es : List Event) : (s.emitAll es).acc = s.acc := rfl
@[simp] theorem State.emitAll_pc (es : List Event) : (s.emitAll es).pc = s.pc := rfl
@[simp] theorem State.emitAll_ir (es : List Event) : (s.emitAll es).ir = s.ir := rfl
@[simp] theorem State.emitAll_mc (es : List Event) : (s.emitAll es).mc = s.mc := rfl
@[simp] theorem State.emitAll_halted (es : List Event) : (s.emitAll es).halted = s.halted := rfl
@[simp] theorem State.emitAll_running (es : List Event) : (s.emitAll es).running = s.running := rfl
@[simp] theorem State.emitAll_recCursor (es : List Event) : (s.emitAll es).recCursor = s.recCursor := rfl
@[simp] theorem State.emitAll_lastAccessed (es : List Event) : (s.emitAll es).lastAccessed = s.lastAccessed := rfl
@[simp] theorem State.emitAll_memory (es : List Event) : (s.emitAll es).memory = s.memory := rfl
@[simp] theorem State.emitAll_microcode (es : List Event) : (s.emitAll es).microcode = s.microcode := rfl
@[simp] theorem State.emitAll_names (es : List Event) : (s.emitAll es).names = s.names := rfl
@[simp] theorem State.emitAll_inbox (es : List Event) : (s.emitAll es).inbox = s.inbox := rfl
@[simp] theorem State.emitAll_progress (es : List Event) : (s.emitAll es).progress = s.progress := rfl
@[simp] theorem State.emitAll_response (es : List Event) : (s.emitAll es).response = s.response := rfl
@[simp] theorem State.emitAll_events (es : List Event) : (s.emitAll es).events = s.events ++ es := rfl
@[simp] theorem State.emitAll_lastFault (es : List Event) : (s.emitAll es).lastFault = s.lastFault := rfl
@[simp] theorem State.emitAll_ending (es : List Event) : (s.emitAll es).ending = s.ending := rfl
@[simp] theorem State.emitAll_memRead (es : List Event) (x : Nat) : (s.emitAll es).memRead x = s.memRead x := rfl
@[simp] theorem State.emitAll_mcRead (es : List Event) (x : Nat) : (s.emitAll es).mcRead x = s.mcRead x := rfl
@[simp] theorem State.emitAll_nameRead (es : List Event) (x : Nat) : (s.emitAll es).nameRead x = s.nameRead x := rfl
@[simp] theorem State.emitAll_irOpcode (es : List Event) : (s.emitAll es).irOpcode = s.irOpcode := rfl
@[simp] theorem State.emitAll_irOperand (es : List Event) : (s.emitAll es).irOperand = s.irOperand := rfl
@[simp] theorem State.emitAll_slotId (es : List Event) : (s.emitAll es).slotId = s.slotId := rfl
@[simp] theorem State.emitAll_macroEnded (es : List Event) : (s.emitAll es).macroEnded = s.macroEnded := rfl

@[simp] theorem State.clearOutputs_ab : (s.clearOutputs).ab = s.ab := rfl
@[simp] theorem State.clearOutputs_db : (s.clearOutputs).db = s.db := rfl
@[simp] theorem State.clearOutputs_acc : (s.clearOutputs).acc = s.acc := rfl
@[simp] theorem State.clearOutputs_pc : (s.clearOutputs).pc = s.pc := rfl
@[simp] theorem State.clearOutputs_ir : (s.clearOutputs).ir = s.ir := rfl
@[simp] theorem State.clearOutputs_mc : (s.clearOutputs).mc = s.mc := rfl
@[simp] theorem State.clearOutputs_halted : (s.clearOutputs).halted = s.halted := rfl
@[simp] theorem State.clearOutputs_running : (s.clearOutputs).running = s.running := rfl
@[simp] theorem State.clearOutputs_recCursor : (s.clearOutputs).recCursor = s.recCursor := rfl
@[simp] theorem State.clearOutputs_lastAccessed : (s.clearOutputs).lastAccessed = s.lastAccessed := rfl
@[simp] theorem State.clearOutputs_memory : (s.clearOutputs).memory = s.memory := rfl
@[simp] theorem State.clearOutputs_microcode : (s.clearOutputs).microcode = s.microcode := rfl
@[simp] theorem State.clearOutputs_names : (s.clearOutputs).names = s.names := rfl
@[simp] theorem State.clearOutputs_inbox : (s.clearOutputs).inbox = s.inbox := rfl
@[simp] theorem State.clearOutputs_progress : (s.clearOutputs).progress = s.progress := rfl
@[simp] theorem State.clearOutputs_response : (s.clearOutputs).response = none := rfl
@[simp] theorem State.clearOutputs_events : (s.clearOutputs).events = [] := rfl
@[simp] theorem State.clearOutputs_lastFault : (s.clearOutputs).lastFault = s.lastFault := rfl
@[simp] theorem State.clearOutputs_ending : (s.clearOutputs).ending = s.ending := rfl
@[simp] theorem State.clearOutputs_memRead (x : Nat) : (s.clearOutputs).memRead x = s.memRead x := rfl
@[simp] theorem State.clearOutputs_mcRead (x : Nat) : (s.clearOutputs).mcRead x = s.mcRead x := rfl
@[simp] theorem State.clearOutputs_nameRead (x : Nat) : (s.clearOutputs).nameRead x = s.nameRead x := rfl
@[simp] theorem State.clearOutputs_irOpcode : (s.clearOutputs).irOpcode = s.irOpcode := rfl
@[simp] theorem State.clearOutputs_irOperand : (s.clearOutputs).irOperand = s.irOperand := rfl
@[simp] theorem State.clearOutputs_slotId : (s.clearOutputs).slotId = s.slotId := rfl
@[simp] theorem State.clearOutputs_macroEnded : (s.clearOutputs).macroEnded = s.macroEnded := rfl

@[simp] theorem State.recordFailed_ab (t : State) : (s.recordFailed t).ab = t.ab := rfl
@[simp] theorem State.recordFailed_db (t : State) : (s.recordFailed t).db = t.db := rfl
@[simp] theorem State.recordFailed_acc (t : State) : (s.recordFailed t).acc = t.acc := rfl
@[simp] theorem State.recordFailed_pc (t : State) : (s.recordFailed t).pc = t.pc := rfl
@[simp] theorem State.recordFailed_ir (t : State) : (s.recordFailed t).ir = t.ir := rfl
@[simp] theorem State.recordFailed_mc (t : State) : (s.recordFailed t).mc = t.mc := rfl
@[simp] theorem State.recordFailed_halted (t : State) : (s.recordFailed t).halted = t.halted := rfl
@[simp] theorem State.recordFailed_running (t : State) : (s.recordFailed t).running = t.running := rfl
@[simp] theorem State.recordFailed_recCursor (t : State) : (s.recordFailed t).recCursor = t.recCursor := rfl
@[simp] theorem State.recordFailed_lastAccessed (t : State) : (s.recordFailed t).lastAccessed = t.lastAccessed := rfl
@[simp] theorem State.recordFailed_memory (t : State) : (s.recordFailed t).memory = t.memory := rfl
@[simp] theorem State.recordFailed_microcode (t : State) : (s.recordFailed t).microcode = t.microcode := rfl
@[simp] theorem State.recordFailed_names (t : State) : (s.recordFailed t).names = t.names := rfl
@[simp] theorem State.recordFailed_inbox (t : State) : (s.recordFailed t).inbox = t.inbox := rfl
@[simp] theorem State.recordFailed_progress (t : State) : (s.recordFailed t).progress = t.progress := rfl
@[simp] theorem State.recordFailed_response (t : State) : (s.recordFailed t).response = t.response := rfl
@[simp] theorem State.recordFailed_events (t : State) : (s.recordFailed t).events = t.events := rfl
@[simp] theorem State.recordFailed_lastFault (t : State) : (s.recordFailed t).lastFault = t.lastFault := rfl
@[simp] theorem State.recordFailed_ending (t : State) :
    (s.recordFailed t).ending = if s.halted then t.ending else t.ending.map fun _ => .recordFailed := rfl

end Sys2Proof.Machine
end

