-- ==== Sys2Proof/Laws/Store.lean ====
section
/-! SUPPORT. The laws of a store: a read after a write, the canonical form kept by every operation, equality of
canonical stores by their elements; and the same for Memory, Microcode and the name table. -/

namespace Sys2Proof.Machine

section Store

variable {α : Type} [DecidableEq α] (d : α)

/-- Below its lowest possible address a store reads as the filler. -/
theorem Store.read_below {size lo : Nat} {m : Store α} (h : Store.wfFrom d size lo m = true) {x : Nat} (hx : x < lo) :
    Store.read d m x = d := by
  induction m generalizing lo with
  | nil => rfl
  | cons e r ih =>
    simp only [Store.wfFrom, Bool.and_eq_true, decide_eq_true_eq] at h
    simp only [Store.read]
    rw [if_neg (by omega)]
    exact ih h.2 (by omega)

theorem Store.read_write (m : Store α) (a b : Nat) (v : α) (size lo : Nat) (h : Store.wfFrom d size lo m = true) :
    Store.read d (Store.write d m a v) b = if b = a then v else Store.read d m b := by
  induction m generalizing lo with
  | nil =>
    unfold Store.write
    by_cases hb : b = a
    · by_cases hv : v = d
      · rw [if_pos hv, if_pos hb, hv]; rfl
      · rw [if_neg hv, if_pos hb, hb]; simp [Store.read]
    · by_cases hv : v = d
      · rw [if_pos hv, if_neg hb]
      · rw [if_neg hv, if_neg hb]
        simp only [Store.read]
        rw [if_neg (fun h => hb h.symm)]
  | cons e rest ih =>
    obtain ⟨k, w⟩ := e
    simp only [Store.wfFrom, Bool.and_eq_true, decide_eq_true_eq] at h
    obtain ⟨⟨⟨hlo, hk⟩, hw⟩, hrest⟩ := h
    have hr := ih (k + 1) hrest
    unfold Store.write
    by_cases hak : a < k
    · rw [if_pos hak]
      by_cases hv : v = d
      · rw [if_pos hv]
        by_cases hb : b = a
        · subst hb
          rw [if_pos rfl, hv]
          simp only [Store.read]
          rw [if_neg (by omega)]
          exact Store.read_below d hrest (by omega)
        · rw [if_neg hb]
      · rw [if_neg hv]
        simp only [Store.read]
        by_cases hb : b = a
        · simp [hb]
        · rw [if_neg (fun h => hb h.symm), if_neg hb]
    · rw [if_neg hak]
      by_cases hka : a = k
      · subst hka
        rw [if_pos rfl]
        by_cases hv : v = d
        · rw [if_pos hv]
          by_cases hb : b = a
          · subst hb
            rw [if_pos rfl, hv]
            exact Store.read_below d hrest (by omega)
          · simp only [Store.read]
            rw [if_neg hb, if_neg (fun h => hb h.symm)]
        · rw [if_neg hv]
          simp only [Store.read]
          by_cases hb : b = a
          · simp [hb]
          · rw [if_neg (fun h => hb h.symm), if_neg hb, if_neg (fun h => hb h.symm)]
      · rw [if_neg hka]
        simp only [Store.read]
        by_cases hb : k = b
        · subst hb
          simp [show ¬ k = a from fun h => hka h.symm]
        · rw [if_neg hb, hr, if_neg hb]

/-- A read after a write to the same address gives the value; every other address reads as before. -/
theorem Store.wf_read_write {size : Nat} {m : Store α} (h : Store.wf d size m = true) (a b : Nat) (v : α) :
    Store.read d (Store.write d m a v) b = if b = a then v else Store.read d m b :=
  Store.read_write d m a b v size 0 h

theorem Store.wfFrom_mono {size lo lo' : Nat} {m : Store α} (h : Store.wfFrom d size lo m = true) (hle : lo' ≤ lo) :
    Store.wfFrom d size lo' m = true := by
  cases m with
  | nil => rfl
  | cons e r =>
    simp only [Store.wfFrom, Bool.and_eq_true, decide_eq_true_eq] at h ⊢
    exact ⟨⟨⟨by omega, h.1.1.2⟩, h.1.2⟩, h.2⟩

theorem Store.wfFrom_write {size lo : Nat} {m : Store α} (h : Store.wfFrom d size lo m = true) {a : Nat}
    (ha : a < size) (hlo : lo ≤ a) (v : α) : Store.wfFrom d size lo (Store.write d m a v) = true := by
  induction m generalizing lo with
  | nil =>
    unfold Store.write
    by_cases hv : v = d
    · rw [if_pos hv]; rfl
    · rw [if_neg hv]; simp [Store.wfFrom, hv, ha, hlo]
  | cons e r ih =>
    obtain ⟨k, w⟩ := e
    have h' := h
    simp only [Store.wfFrom, Bool.and_eq_true, decide_eq_true_eq] at h'
    obtain ⟨⟨⟨hk1, hk2⟩, hw⟩, hr⟩ := h'
    unfold Store.write
    by_cases hak : a < k
    · rw [if_pos hak]
      by_cases hv : v = d
      · rw [if_pos hv]; exact h
      · rw [if_neg hv]
        simp only [Store.wfFrom, Bool.and_eq_true, decide_eq_true_eq]
        exact ⟨⟨⟨hlo, ha⟩, hv⟩, ⟨⟨by omega, hk2⟩, hw⟩, hr⟩
    · rw [if_neg hak]
      by_cases hka : a = k
      · rw [if_pos hka]
        by_cases hv : v = d
        · rw [if_pos hv]; exact Store.wfFrom_mono d hr (by omega)
        · rw [if_neg hv]
          simp only [Store.wfFrom, Bool.and_eq_true, decide_eq_true_eq]
          exact ⟨⟨⟨hlo, ha⟩, hv⟩, hka ▸ hr⟩
      · rw [if_neg hka]
        simp only [Store.wfFrom, Bool.and_eq_true, decide_eq_true_eq]
        exact ⟨⟨⟨hk1, hk2⟩, hw⟩, ih hr (by omega)⟩

/-- A write at an address of the store keeps the canonical form. -/
theorem Store.wf_write {size : Nat} {m : Store α} (h : Store.wf d size m = true) {a : Nat} (ha : a < size) (v : α) :
    Store.wf d size (Store.write d m a v) = true :=
  Store.wfFrom_write d h ha (Nat.zero_le a) v

theorem Store.ext_from {size lo : Nat} {m n : Store α} (hm : Store.wfFrom d size lo m = true)
    (hn : Store.wfFrom d size lo n = true) (h : ∀ a, Store.read d m a = Store.read d n a) : m = n := by
  induction m generalizing n lo with
  | nil =>
    cases n with
    | nil => rfl
    | cons e r =>
      simp only [Store.wfFrom, Bool.and_eq_true, decide_eq_true_eq] at hn
      have := h e.1
      simp [Store.read] at this
      exact absurd this.symm hn.1.2
  | cons e r ih =>
    obtain ⟨k, v⟩ := e
    cases n with
    | nil =>
      simp only [Store.wfFrom, Bool.and_eq_true, decide_eq_true_eq] at hm
      have := h k
      simp [Store.read] at this
      exact absurd this hm.1.2
    | cons e2 r2 =>
      obtain ⟨k2, v2⟩ := e2
      simp only [Store.wfFrom, Bool.and_eq_true, decide_eq_true_eq] at hm hn
      obtain ⟨⟨⟨hm1, hm2⟩, hm3⟩, hm4⟩ := hm
      obtain ⟨⟨⟨hn1, hn2⟩, hn3⟩, hn4⟩ := hn
      have hk : k = k2 := by
        rcases Nat.lt_trichotomy k k2 with hlt | heq | hgt
        · have := h k
          simp only [Store.read, if_pos] at this
          rw [if_neg (by omega), Store.read_below d hn4 (by omega)] at this
          exact absurd this hm3
        · exact heq
        · have := h k2
          simp only [Store.read, if_pos] at this
          rw [if_neg (by omega), Store.read_below d hm4 (by omega)] at this
          exact absurd this.symm hn3
      subst hk
      have hv : v = v2 := by simpa [Store.read] using h k
      subst hv
      rw [ih hm4 hn4]
      intro a
      by_cases ha : a = k
      · subst ha
        rw [Store.read_below d hm4 (by omega), Store.read_below d hn4 (by omega)]
      · have := h a
        simp only [Store.read] at this
        rwa [if_neg (fun h => ha h.symm), if_neg (fun h => ha h.symm)] at this

/-- Two canonical stores with the same elements are the same list. -/
theorem Store.ext_of_wf {size : Nat} {m n : Store α} (hm : Store.wf d size m = true) (hn : Store.wf d size n = true)
    (h : ∀ a, Store.read d m a = Store.read d n a) : m = n :=
  Store.ext_from d hm hn h

/-- An address past the end of a canonical store reads as the filler. -/
theorem Store.read_outside {size : Nat} {m : Store α} (h : Store.wf d size m = true) {a : Nat} (ha : size ≤ a) :
    Store.read d m a = d := by
  unfold Store.wf at h
  generalize 0 = lo at h
  induction m generalizing lo with
  | nil => rfl
  | cons e r ih =>
    simp only [Store.wfFrom, Bool.and_eq_true, decide_eq_true_eq] at h
    simp only [Store.read]
    rw [if_neg (by omega)]
    exact ih _ h.2

/-- The entries after a write: the new element, or an entry that was there. -/
theorem Store.mem_write {m : Store α} {a : Nat} {v : α} {e : Nat × α} (h : e ∈ Store.write d m a v) :
    e = (a, v) ∨ e ∈ m := by
  induction m with
  | nil => unfold Store.write at h; split at h <;> simp_all
  | cons x r ih =>
    obtain ⟨k, w⟩ := x
    unfold Store.write at h
    split at h
    · split at h
      · exact .inr h
      · simpa using h
    · split at h
      · split at h
        · exact .inr (List.mem_cons_of_mem _ h)
        · rcases List.mem_cons.mp h with h | h
          · exact .inl h
          · exact .inr (List.mem_cons_of_mem _ h)
      · simp only [List.mem_cons] at h ⊢
        rcases h with h | h
        · exact .inr (.inl h)
        · rcases ih h with h | h
          · exact .inl h
          · exact .inr (.inr h)

end Store

/-- Reading Memory after a write to it (R63, R76). -/
theorem State.memRead_memWrite {s : State} (h : Memory.wf s.memory = true) (a b : Nat) (v : Word) :
    (s.memWrite a v).memRead b = if b = a then v else s.memRead b :=
  Store.wf_read_write 0 h a b v

/-- A write at an address of Memory keeps its canonical form. -/
theorem State.memWrite_wf {s : State} (h : Memory.wf s.memory = true) {a : Nat} (ha : a < 1000) (v : Word) :
    Memory.wf (s.memWrite a v).memory = true :=
  Store.wf_write 0 h ha v

/-- Reading Microcode after a write to it (R67, R79). -/
theorem State.mcRead_mcWrite {s : State} (h : Microcode.wf s.microcode = true) (a b id : Nat) :
    (s.mcWrite a id).mcRead b = if b = a then id else s.mcRead b := by
  simp only [Microcode.wf, Bool.and_eq_true] at h
  exact Store.wf_read_write 0 h.1 a b id

/-- A write of a legal id at an address of Microcode keeps its form (R40). -/
theorem State.mcWrite_wf {s : State} (h : Microcode.wf s.microcode = true) {a id : Nat} (ha : a < 200)
    (hid : legalId id = true) : Microcode.wf (s.mcWrite a id).microcode = true := by
  simp only [Microcode.wf, Bool.and_eq_true, List.all_eq_true] at h ⊢
  refine ⟨Store.wf_write 0 h.1 ha id, fun e he => ?_⟩
  rcases Store.mem_write 0 he with rfl | he
  · exact hid
  · exact h.2 e he

/-- Naming an opcode with a valid name keeps the form of the name table (R40). -/
theorem State.nameWrite_wf {s : State} (h : NameTable.wf s.names = true) {k : Nat} (hk : k < 20) {n : Option Text}
    (hn : n.all validName = true) : NameTable.wf (s.nameWrite k n).names = true := by
  simp only [NameTable.wf, Bool.and_eq_true, List.all_eq_true] at h ⊢
  refine ⟨Store.wf_write none h.1 hk n, fun e he => ?_⟩
  rcases Store.mem_write none he with rfl | he
  · exact hn
  · exact h.2 e he

/-- In a state whose Microcode has its form every slot holds a legal id. -/
theorem State.mcRead_legal {s : State} (h : Microcode.wf s.microcode = true) (a : Nat) : legalId (s.mcRead a) = true := by
  simp only [Microcode.wf, Bool.and_eq_true, List.all_eq_true] at h
  obtain ⟨-, h⟩ := h
  unfold State.mcRead
  generalize s.microcode = m at h
  induction m with
  | nil => rfl
  | cons e r ih =>
    obtain ⟨k, v⟩ := e
    simp only [Store.read]
    split
    · exact h (k, v) (List.mem_cons_self ..)
    · exact ih fun e he => h e (List.mem_cons_of_mem _ he)

end Sys2Proof.Machine
end

