-- ==== Sys2Proof/Laws/Ops.lean ====
section
/-! SUPPORT. The clamp, the notifications of a register write, and what the shared operations can do, each said once:
callers cite these and unfold nothing. -/

namespace Sys2Proof.Machine

/-- The clamp into 0 to `top`, as a natural number. -/
theorem clamp_toNat (top : Nat) (v : Int) : (clamp 0 top v).toNat = min v.toNat top := by
  unfold clamp
  split
  · omega
  · split <;> omega

theorem clampAddr_val (v : Int) : (clampAddr v).val = min v.toNat 999 := by
  have h := clamp_toNat 999 v
  simp only [clampAddr, Fin.ofNat]
  simp only [Nat.cast_ofNat] at h
  rw [h]
  omega

theorem clampWord_val (v : Int) : (clampWord v).val = min v.toNat 19999 := by
  have h := clamp_toNat 19999 v
  simp only [clampWord, Fin.ofNat]
  simp only [Nat.cast_ofNat] at h
  rw [h]
  omega

theorem clampSlot_val (v : Int) : (clampSlot v).val = min v.toNat 199 := by
  have h := clamp_toNat 199 v
  simp only [clampSlot, Fin.ofNat]
  simp only [Nat.cast_ofNat] at h
  rw [h]
  omega

/-- A value already in the range of the destination is not changed (R27). -/
@[simp] theorem clampAddr_addr (a : Addr) : clampAddr (a.val : Int) = a := by
  apply Fin.ext
  rw [clampAddr_val]
  omega

@[simp] theorem clampWord_word (w : Word) : clampWord (w.val : Int) = w := by
  apply Fin.ext
  rw [clampWord_val]
  omega

@[simp] theorem clampSlot_slot (m : Slot) : clampSlot (m.val : Int) = m := by
  apply Fin.ext
  rw [clampSlot_val]
  omega

@[simp] theorem clampAddr_zero : clampAddr 0 = 0 := rfl
@[simp] theorem clampWord_zero : clampWord 0 = 0 := rfl
@[simp] theorem clampSlot_zero : clampSlot 0 = 0 := rfl

/-- A natural number in the range of the destination is written as it is. -/
theorem clampAddr_of_lt {n : Nat} (h : n < 1000) : (clampAddr (n : Int)).val = n := by
  rw [clampAddr_val]
  omega

theorem clampWord_of_lt {n : Nat} (h : n < 20000) : (clampWord (n : Int)).val = n := by
  rw [clampWord_val]
  omega

theorem clampSlot_of_lt {n : Nat} (h : n < 200) : (clampSlot (n : Int)).val = n := by
  rw [clampSlot_val]
  omega

/-- A write to `MC` makes it 0 only where the value is 0 or less. -/
theorem clampSlot_eq_zero (v : Int) : clampSlot v = 0 ↔ v ≤ 0 := by
  rw [← Fin.val_inj, clampSlot_val]
  simp only [Fin.val_zero]
  omega

/-- The auto-increment's value (R124). -/
theorem clampSlot_succ_val (m : Slot) : (clampSlot ((m.val : Int) + 1)).val = min (m.val + 1) 199 := by
  rw [clampSlot_val]
  omega

/-- `PC + 1` (R196). -/
theorem clampAddr_succ_val (a : Addr) : (clampAddr ((a.val : Int) + 1)).val = min (a.val + 1) 999 := by
  rw [clampAddr_val]
  omega

/-- The saturating sum (R171). -/
theorem clampWord_add_val (a b : Word) : (clampWord ((a.val : Int) + (b.val : Int))).val = min (a.val + b.val) 19999 := by
  rw [clampWord_val]
  omega

/-- The saturating difference (R172). -/
theorem clampWord_sub_val (a b : Word) : (clampWord ((a.val : Int) - (b.val : Int))).val = a.val - b.val := by
  rw [clampWord_val]
  omega

/-- The saturating successor (R173). -/
theorem clampWord_succ_val (a : Word) : (clampWord ((a.val : Int) + 1)).val = min (a.val + 1) 19999 := by
  rw [clampWord_val]
  omega

/-- The saturating predecessor (R174). -/
theorem clampWord_pred_val (a : Word) : (clampWord ((a.val : Int) - 1)).val = a.val - 1 := by
  rw [clampWord_val]
  omega

/-- Every register write notifies of its register, and of no other (R280). -/
theorem registerChanged_mem_regEvents (q r : Reg) (top v : Int) :
    Event.registerChanged q ∈ regEvents r top v ↔ q = r := by
  unfold regEvents
  split <;> simp

/-- A register write notifies of a clamp exactly when the value was outside its range (R27). -/
theorem normalized_mem_regEvents (q r : Reg) (top v : Int) :
    Event.normalized q ∈ regEvents r top v ↔ q = r ∧ (v < 0 ∨ top < v) := by
  unfold regEvents normalizes
  split <;> simp_all

@[simp] theorem State.setAb_addr_ab (s : State) (a : Addr) : (s.setAb (a.val : Int)).ab = a := clampAddr_addr a
@[simp] theorem State.setPc_addr_pc (s : State) (a : Addr) : (s.setPc (a.val : Int)).pc = a := clampAddr_addr a
@[simp] theorem State.setDb_word_db (s : State) (w : Word) : (s.setDb (w.val : Int)).db = w := clampWord_word w
@[simp] theorem State.setAcc_word_acc (s : State) (w : Word) : (s.setAcc (w.val : Int)).acc = w := clampWord_word w
@[simp] theorem State.setIr_word_ir (s : State) (w : Word) : (s.setIr (w.val : Int)).ir = w := clampWord_word w

/-- All the core's store can do (R70, R150). -/
theorem State.coreStore_spec (s : State) :
    s.coreStore = { s with
      memory := Store.write 0 s.memory s.ab.val s.db, lastAccessed := some s.ab,
      events := s.events ++ [.memoryChanged s.ab.val] } := rfl

/-- All the core's load can do (R70, R151). -/
theorem State.coreLoad_spec (s : State) :
    s.coreLoad = { s with
      db := s.memRead s.ab.val, lastAccessed := some s.ab,
      events := s.events ++ regEvents .db 19999 (s.memRead s.ab.val).val } := by
  simp only [State.coreLoad, State.markAccess, State.setDb, clampWord_word]

/-- All the auto-increment can do (R124). -/
theorem State.autoIncrement_spec (s : State) :
    s.autoIncrement = { s with
      mc := clampSlot ((s.mc.val : Int) + 1), events := s.events ++ regEvents .mc 199 ((s.mc.val : Int) + 1) } := rfl

/-- All that taking an execution fault can do (R296). -/
theorem State.takeFault_spec (s : State) (f : ExecFault) : TakesFault f s (s.takeFault f) := by
  simp [Halts, TakesFault, KeepsRegsBut, KeepsHostState]

/-- All `resetMachine` can do to the machine (R332). -/
theorem State.resetRegisters_arch (s : State) :
    s.resetRegisters.toArch = { s.toArch with
      ab := 0, db := 0, acc := 0, pc := 0, ir := 0, mc := 0, halted := false, lastAccessed := none } := rfl

@[simp] theorem andThen_next (s : State) (f : State → Host.Outcome State Fault Refusal) :
    andThen (.next s) f = f s := rfl

/-- A sequence that answers a next state passed through one. -/
theorem andThen_eq_next {o : Host.Outcome State Fault Refusal} {f : State → Host.Outcome State Fault Refusal}
    {t : State} (h : andThen o f = .next t) : ∃ u, o = .next u ∧ f u = .next t := by
  cases o with
  | next u => exact ⟨u, rfl, h⟩
  | fault r => exact nomatch h
  | refused r => exact nomatch h

/-- What a number in a range is (R62, R63, R67). -/
theorem HostNum.upTo_eq_some {x : HostNum} {top n : Nat} : x.upTo top = some n ↔ x = .int n ∧ n ≤ top := by
  cases x with
  | nonInteger => simp [HostNum.upTo]
  | int v =>
    simp only [HostNum.upTo, HostNum.int.injEq]
    split
    · simp only [Option.some.injEq]; omega
    · simp only [reduceCtorEq, false_iff]; omega

theorem HostNum.upTo_natCast {top n : Nat} (h : n ≤ top) : (HostNum.int (n : Int)).upTo top = some n :=
  HostNum.upTo_eq_some.mpr ⟨rfl, h⟩

/-- The ids a slot may hold (R36, R67). -/
theorem HostNum.microId_eq_some {x : HostNum} {id : Nat} : x.microId = some id ↔ x = .int id ∧ legalId id = true := by
  simp only [HostNum.microId, Option.filter_eq_some_iff, HostNum.upTo_eq_some]
  constructor
  · rintro ⟨⟨h, -⟩, hl⟩
    exact ⟨h, hl⟩
  · rintro ⟨h, hl⟩
    refine ⟨⟨h, ?_⟩, hl⟩
    simp only [legalId, Bool.and_eq_true, decide_eq_true_eq] at hl
    omega

/-- All the Microcode port can do (R67). -/
theorem State.portMicrocodeWrite_ok {s t : State} {a v : HostNum} :
    s.portMicrocodeWrite a v = .ok t ↔
      ∃ n id : Nat, a = .int n ∧ n < 200 ∧ v = .int id ∧ legalId id = true ∧ t = s.mcWrite n id := by
  unfold State.portMicrocodeWrite
  cases ha : a.upTo 199 with
  | none =>
    simp only [reduceCtorEq, false_iff, not_exists, not_and]
    intro n id h hn
    have := HostNum.upTo_eq_some.mpr ⟨h, show n ≤ 199 by omega⟩
    simp [ha] at this
  | some n =>
    obtain ⟨hn, hle⟩ := HostNum.upTo_eq_some.mp ha
    cases hv : v.microId with
    | none =>
      simp only [reduceCtorEq, false_iff, not_exists, not_and]
      intro n id _ _ h hl
      have := HostNum.microId_eq_some.mpr ⟨h, hl⟩
      simp [hv] at this
    | some id =>
      obtain ⟨hi, hl⟩ := HostNum.microId_eq_some.mp hv
      constructor
      · intro h
        exact ⟨n, id, hn, by omega, hi, hl, by injection h with h; exact h.symm⟩
      · rintro ⟨n', id', h1, -, h2, -, rfl⟩
        rw [hn] at h1
        rw [hi] at h2
        simp only [HostNum.int.injEq, Nat.cast_inj] at h1 h2
        rw [h1, h2]

end Sys2Proof.Machine
end

