-- ==== Sys2Proof/Laws/PerInstr.lean ====
section
/-! SUPPORT. The family of statements made per instruction: what the encoding of a well-formed instruction is. -/

namespace Sys2Proof.Laws

/-- The encoding of a well-formed instruction without an operand is an id of the dispatch table's range, and that of
one with an operand is a Word whose operand digits are the operand (R91, R95). -/
def EncodingHolds.Statement (i : Instr) : Prop :=
  i.wellFormed = true →
    match encode i, i.operand with
    | .slot id, none => id < 20
    | .word w, some a => w < 20000 ∧ w % 1000 = a
    | _, _ => False

theorem EncodingHolds.nop0 : EncodingHolds.Statement .nop0 := fun _ => by simp [encode, Instr.operand]

theorem EncodingHolds.db2ram : EncodingHolds.Statement .db2ram := fun _ => by simp [encode, Instr.operand]

theorem EncodingHolds.ram2db : EncodingHolds.Statement .ram2db := fun _ => by simp [encode, Instr.operand]

theorem EncodingHolds.db2ir : EncodingHolds.Statement .db2ir := fun _ => by simp [encode, Instr.operand]

theorem EncodingHolds.ir2ab : EncodingHolds.Statement .ir2ab := fun _ => by simp [encode, Instr.operand]

theorem EncodingHolds.ir2mc : EncodingHolds.Statement .ir2mc := fun _ => by simp [encode, Instr.operand]

theorem EncodingHolds.reserved6 : EncodingHolds.Statement .reserved6 := fun _ => by simp [encode, Instr.operand]

theorem EncodingHolds.mc0 : EncodingHolds.Statement .mc0 := fun _ => by simp [encode, Instr.operand]

theorem EncodingHolds.pc2ab : EncodingHolds.Statement .pc2ab := fun _ => by simp [encode, Instr.operand]

theorem EncodingHolds.pcinc : EncodingHolds.Statement .pcinc := fun _ => by simp [encode, Instr.operand]

theorem EncodingHolds.skipz : EncodingHolds.Statement .skipz := fun _ => by simp [encode, Instr.operand]

theorem EncodingHolds.ir2pc : EncodingHolds.Statement .ir2pc := fun _ => by simp [encode, Instr.operand]

theorem EncodingHolds.acc0 : EncodingHolds.Statement .acc0 := fun _ => by simp [encode, Instr.operand]

theorem EncodingHolds.plus : EncodingHolds.Statement .plus := fun _ => by simp [encode, Instr.operand]

theorem EncodingHolds.minus : EncodingHolds.Statement .minus := fun _ => by simp [encode, Instr.operand]

theorem EncodingHolds.acc2db : EncodingHolds.Statement .acc2db := fun _ => by simp [encode, Instr.operand]

theorem EncodingHolds.accinc : EncodingHolds.Statement .accinc := fun _ => by simp [encode, Instr.operand]

theorem EncodingHolds.accdec : EncodingHolds.Statement .accdec := fun _ => by simp [encode, Instr.operand]

theorem EncodingHolds.db2acc : EncodingHolds.Statement .db2acc := fun _ => by simp [encode, Instr.operand]

theorem EncodingHolds.halt : EncodingHolds.Statement .halt := fun _ => by simp [encode, Instr.operand]

theorem EncodingHolds.fetch (a : Nat) : EncodingHolds.Statement (.fetch a) := by
  intro h
  simp only [Instr.wellFormed, Instr.operand, decide_eq_true_eq] at h
  simp only [encode, Instr.operand]
  omega

theorem EncodingHolds.take (a : Nat) : EncodingHolds.Statement (.take a) := by
  intro h
  simp only [Instr.wellFormed, Instr.operand, decide_eq_true_eq] at h
  simp only [encode, Instr.operand]
  omega

theorem EncodingHolds.add (a : Nat) : EncodingHolds.Statement (.add a) := by
  intro h
  simp only [Instr.wellFormed, Instr.operand, decide_eq_true_eq] at h
  simp only [encode, Instr.operand]
  omega

theorem EncodingHolds.sub (a : Nat) : EncodingHolds.Statement (.sub a) := by
  intro h
  simp only [Instr.wellFormed, Instr.operand, decide_eq_true_eq] at h
  simp only [encode, Instr.operand]
  omega

theorem EncodingHolds.save (a : Nat) : EncodingHolds.Statement (.save a) := by
  intro h
  simp only [Instr.wellFormed, Instr.operand, decide_eq_true_eq] at h
  simp only [encode, Instr.operand]
  omega

theorem EncodingHolds.jmp (a : Nat) : EncodingHolds.Statement (.jmp a) := by
  intro h
  simp only [Instr.wellFormed, Instr.operand, decide_eq_true_eq] at h
  simp only [encode, Instr.operand]
  omega

theorem EncodingHolds.tst (a : Nat) : EncodingHolds.Statement (.tst a) := by
  intro h
  simp only [Instr.wellFormed, Instr.operand, decide_eq_true_eq] at h
  simp only [encode, Instr.operand]
  omega

theorem EncodingHolds.inc (a : Nat) : EncodingHolds.Statement (.inc a) := by
  intro h
  simp only [Instr.wellFormed, Instr.operand, decide_eq_true_eq] at h
  simp only [encode, Instr.operand]
  omega

theorem EncodingHolds.dec (a : Nat) : EncodingHolds.Statement (.dec a) := by
  intro h
  simp only [Instr.wellFormed, Instr.operand, decide_eq_true_eq] at h
  simp only [encode, Instr.operand]
  omega

theorem EncodingHolds.null (a : Nat) : EncodingHolds.Statement (.null a) := by
  intro h
  simp only [Instr.wellFormed, Instr.operand, decide_eq_true_eq] at h
  simp only [encode, Instr.operand]
  omega

theorem EncodingHolds.hlt (a : Nat) : EncodingHolds.Statement (.hlt a) := by
  intro h
  simp only [Instr.wellFormed, Instr.operand, decide_eq_true_eq] at h
  simp only [encode, Instr.operand]
  omega

theorem EncodingHolds.op11 (a : Nat) : EncodingHolds.Statement (.op11 a) := by
  intro h
  simp only [Instr.wellFormed, Instr.operand, decide_eq_true_eq] at h
  simp only [encode, Instr.operand]
  omega

theorem EncodingHolds.op12 (a : Nat) : EncodingHolds.Statement (.op12 a) := by
  intro h
  simp only [Instr.wellFormed, Instr.operand, decide_eq_true_eq] at h
  simp only [encode, Instr.operand]
  omega

theorem EncodingHolds.op13 (a : Nat) : EncodingHolds.Statement (.op13 a) := by
  intro h
  simp only [Instr.wellFormed, Instr.operand, decide_eq_true_eq] at h
  simp only [encode, Instr.operand]
  omega

theorem EncodingHolds.op14 (a : Nat) : EncodingHolds.Statement (.op14 a) := by
  intro h
  simp only [Instr.wellFormed, Instr.operand, decide_eq_true_eq] at h
  simp only [encode, Instr.operand]
  omega

theorem EncodingHolds.op15 (a : Nat) : EncodingHolds.Statement (.op15 a) := by
  intro h
  simp only [Instr.wellFormed, Instr.operand, decide_eq_true_eq] at h
  simp only [encode, Instr.operand]
  omega

theorem EncodingHolds.op16 (a : Nat) : EncodingHolds.Statement (.op16 a) := by
  intro h
  simp only [Instr.wellFormed, Instr.operand, decide_eq_true_eq] at h
  simp only [encode, Instr.operand]
  omega

theorem EncodingHolds.op17 (a : Nat) : EncodingHolds.Statement (.op17 a) := by
  intro h
  simp only [Instr.wellFormed, Instr.operand, decide_eq_true_eq] at h
  simp only [encode, Instr.operand]
  omega

theorem EncodingHolds.op18 (a : Nat) : EncodingHolds.Statement (.op18 a) := by
  intro h
  simp only [Instr.wellFormed, Instr.operand, decide_eq_true_eq] at h
  simp only [encode, Instr.operand]
  omega

theorem EncodingHolds.op19 (a : Nat) : EncodingHolds.Statement (.op19 a) := by
  intro h
  simp only [Instr.wellFormed, Instr.operand, decide_eq_true_eq] at h
  simp only [encode, Instr.operand]
  omega

end Sys2Proof.Laws
end

