-- ==== Sys2Proof/Laws/Sequencer.lean ====
section
/-! SUPPORT. What a `microStep` does by the id in its slot, how the loop of `macroStep` unrolls, and what the effects
leave alone. -/

namespace Sys2Proof.Machine

theorem microStep_halted {s : State} (h : s.halted = true) : microStep s = s.emit .haltedNoOp := by
  simp [microStep, h]

theorem microStep_illegal {s : State} (h : s.halted = false) (hi : legalId s.slotId = false) :
    microStep s = s.takeFault (.invalidMicroOp (.int s.slotId) s.mc) := by
  simp [microStep, h, hi]

theorem microStep_nop0 {s : State} (h : s.halted = false) (hs : s.slotId = 0) :
    microStep s = s.takeFault (.invalidMicroOp (.int 0) s.mc) := by
  simp [microStep, h, hs, legalId]

theorem microStep_db2ram {s : State} (h : s.halted = false) (hs : s.slotId = 1) :
    microStep s = (effDb2ram s).autoIncrement := by
  simp [microStep, h, hs, legalId, increments, effect]

theorem microStep_ram2db {s : State} (h : s.halted = false) (hs : s.slotId = 2) :
    microStep s = (effRam2db s).autoIncrement := by
  simp [microStep, h, hs, legalId, increments, effect]

theorem microStep_db2ir {s : State} (h : s.halted = false) (hs : s.slotId = 3) :
    microStep s = (effDb2ir s).autoIncrement := by
  simp [microStep, h, hs, legalId, increments, effect]

theorem microStep_ir2ab {s : State} (h : s.halted = false) (hs : s.slotId = 4) :
    microStep s = (effIr2ab s).autoIncrement := by
  simp [microStep, h, hs, legalId, increments, effect]

theorem microStep_pc2ab {s : State} (h : s.halted = false) (hs : s.slotId = 8) :
    microStep s = (effPc2ab s).autoIncrement := by
  simp [microStep, h, hs, legalId, increments, effect]

theorem microStep_pcinc {s : State} (h : s.halted = false) (hs : s.slotId = 9) :
    microStep s = (effPcinc s).autoIncrement := by
  simp [microStep, h, hs, legalId, increments, effect]

theorem microStep_skipz {s : State} (h : s.halted = false) (hs : s.slotId = 10) :
    microStep s = (effSkipz s).autoIncrement := by
  simp [microStep, h, hs, legalId, increments, effect]

/-- Id 10 by what the accumulator holds (R197). -/
theorem microStep_skipz_zero {s : State} (h : s.halted = false) (hs : s.slotId = 10) (hz : s.acc = 0) :
    microStep s = (s.setPc ((s.pc.val : Int) + 1)).autoIncrement := by
  simp [microStep_skipz h hs, effSkipz, State.accIsZero, hz]

theorem microStep_skipz_nonzero {s : State} (h : s.halted = false) (hs : s.slotId = 10) (hz : s.acc ≠ 0) :
    microStep s = s.autoIncrement := by
  simp [microStep_skipz h hs, effSkipz, State.accIsZero, hz]

theorem microStep_ir2pc {s : State} (h : s.halted = false) (hs : s.slotId = 11) :
    microStep s = (effIr2pc s).autoIncrement := by
  simp [microStep, h, hs, legalId, increments, effect]

theorem microStep_acc0 {s : State} (h : s.halted = false) (hs : s.slotId = 12) :
    microStep s = (effAcc0 s).autoIncrement := by
  simp [microStep, h, hs, legalId, increments, effect]

theorem microStep_plus {s : State} (h : s.halted = false) (hs : s.slotId = 13) :
    microStep s = (effPlus s).autoIncrement := by
  simp [microStep, h, hs, legalId, increments, effect]

theorem microStep_minus {s : State} (h : s.halted = false) (hs : s.slotId = 14) :
    microStep s = (effMinus s).autoIncrement := by
  simp [microStep, h, hs, legalId, increments, effect]

theorem microStep_acc2db {s : State} (h : s.halted = false) (hs : s.slotId = 15) :
    microStep s = (effAcc2db s).autoIncrement := by
  simp [microStep, h, hs, legalId, increments, effect]

theorem microStep_accinc {s : State} (h : s.halted = false) (hs : s.slotId = 16) :
    microStep s = (effAccinc s).autoIncrement := by
  simp [microStep, h, hs, legalId, increments, effect]

theorem microStep_accdec {s : State} (h : s.halted = false) (hs : s.slotId = 17) :
    microStep s = (effAccdec s).autoIncrement := by
  simp [microStep, h, hs, legalId, increments, effect]

theorem microStep_db2acc {s : State} (h : s.halted = false) (hs : s.slotId = 18) :
    microStep s = (effDb2acc s).autoIncrement := by
  simp [microStep, h, hs, legalId, increments, effect]

theorem microStep_ir2mc {s : State} (h : s.halted = false) (hs : s.slotId = 5) : microStep s = effIr2mc s := by
  by_cases ho : s.irOpcode = 0 <;> simp [microStep, h, hs, ho, legalId, increments, effect, effIr2mc]

theorem microStep_mc0 {s : State} (h : s.halted = false) (hs : s.slotId = 7) : microStep s = effMc0 s := by
  simp [microStep, h, hs, legalId, increments, effect]

theorem microStep_halt {s : State} (h : s.halted = false) (hs : s.slotId = 19) : microStep s = effHalt s := by
  simp [microStep, h, hs, legalId, increments, effect]

/-- The ids of the dispatch table, one by one. -/
theorem legalId_cases {id : Nat} (h : legalId id = true) :
    id = 0 ∨ id = 1 ∨ id = 2 ∨ id = 3 ∨ id = 4 ∨ id = 5 ∨ id = 7 ∨ id = 8 ∨ id = 9 ∨ id = 10 ∨ id = 11 ∨ id = 12 ∨
    id = 13 ∨ id = 14 ∨ id = 15 ∨ id = 16 ∨ id = 17 ∨ id = 18 ∨ id = 19 := by
  simp only [legalId, Bool.and_eq_true, decide_eq_true_eq] at h
  omega

/-- One more micro-step of the loop, where it does not end the macro step. -/
theorem runMicro_go {n : Nat} {s : State} (h : (microStep s).macroEnded = false) :
    runMicro (n + 1) s = runMicro n (microStep s) := by
  simp [runMicro, h]

/-- The last micro-step of the loop. -/
theorem runMicro_stop {n : Nat} {s : State} (h : (microStep s).macroEnded = true) :
    runMicro (n + 1) s = microStep s := by
  simp [runMicro, h]

/-- The loop may be cut anywhere: the rest goes on where the first part stands, unless that part has ended it. So the
bound on the micro-steps of one step of the model cuts a macro step in pieces and changes nothing of it. -/
theorem runMicro_add (m n : Nat) (s : State) :
    runMicro (m + 1 + n) s =
      if (runMicro (m + 1) s).macroEnded then runMicro (m + 1) s else runMicro n (runMicro (m + 1) s) := by
  induction m generalizing s with
  | zero =>
    cases h : (microStep s).macroEnded
    · rw [show 0 + 1 + n = n + 1 by omega, runMicro_go h, runMicro_go h]
      simp [runMicro, h]
    · rw [show 0 + 1 + n = n + 1 by omega, runMicro_stop h, runMicro_stop h, if_pos h]
  | succ m ih =>
    cases h : (microStep s).macroEnded
    · rw [show m + 1 + 1 + n = m + 1 + n + 1 by omega, runMicro_go h, runMicro_go h, ih]
    · rw [show m + 1 + 1 + n = m + 1 + n + 1 by omega, runMicro_stop h, runMicro_stop h, if_pos h]

/-- A Word packed from its own fields is the Word. -/
theorem packWord_of_fields (w : Word) : packWord (opcodeOf w) (operandOf w) = w := by
  apply Fin.ext
  simp only [packWord, opcodeOf, operandOf]
  omega

/-- An operand of three digits is its own operand field (R91). -/
theorem operandField_val {a : Nat} (h : a < 1000) : (operandField a).val = a := Nat.mod_eq_of_lt h

theorem operandField_addr (a : Addr) : operandField a.val = a := Fin.ext (operandField_val a.isLt)

/-- The number a packed Word is (R92). -/
theorem packWord_val (o : Opcode) (a : Addr) : (packWord o a).val = o.val * 1000 + a.val := rfl

/-- The fields of a packed Word (R92). -/
theorem opcodeOf_packWord (o : Opcode) (a : Addr) : opcodeOf (packWord o a) = o := by
  apply Fin.ext
  simp only [opcodeOf, packWord]
  omega

theorem operandOf_packWord (o : Opcode) (a : Addr) : operandOf (packWord o a) = a := by
  apply Fin.ext
  simp only [operandOf, packWord]
  omega

/-- The dispatch of an opcode other than 0: the Word is in `IR`, `MC` is at the first slot of the opcode's block, and
the block's micro-steps follow (R193, R210). -/
theorem dispatchWord_start {k : Opcode} {s : State} (a : Nat) (hk : k ≠ 0) (hh : s.halted = false) :
    dispatchWord k a s =
      runMicro Config.burst ((s.withIr (packWord k (operandField a))).setMc (k.val * 10 : Nat)) := by
  have hk' : 0 < k.val := Nat.pos_of_ne_zero (fun h => hk (Fin.ext h))
  unfold dispatchWord effIr2mc State.dispatchTarget
  simp only [State.irOpcode, State.withIr_ir, opcodeOf_packWord, if_neg hk]
  rw [if_neg]
  simp only [State.macroEnded, State.setMc_mc, State.setMc_halted, State.withIr_halted, hh, Bool.or_false,
    decide_eq_true_eq, ← Fin.val_inj, clampSlot_val, Fin.val_zero]
  omega

/-- The dispatch of opcode 0 takes FetchFault (R193). -/
theorem dispatchWord_zero (a : Nat) (s : State) :
    dispatchWord 0 a s = (s.withIr (packWord 0 (operandField a))).takeFault
      (.fetchFault (packWord 0 (operandField a)) s.pc s.mc) := by
  unfold dispatchWord effIr2mc
  simp only [State.irOpcode, State.withIr_ir, opcodeOf_packWord, if_true]
  rw [if_pos (by simp [State.macroEnded])]
  rfl

/-- The dispatch of the Word in `IR` is the micro-step of id 5 and what follows it (R193, R210). -/
theorem dispatchWord_eq {s : State} (h : s.atDispatch = true) :
    dispatchWord s.irOpcode s.irOperand.val s =
      if (microStep s).macroEnded then microStep s else runMicro Config.burst (microStep s) := by
  simp only [State.atDispatch, Bool.and_eq_true, Bool.not_eq_true', decide_eq_true_eq] at h
  have hp : packWord s.irOpcode (operandField s.irOperand.val) = s.ir := by
    rw [operandField_addr]
    exact packWord_of_fields s.ir
  have hs : s.withIr (packWord s.irOpcode (operandField s.irOperand.val)) = s := by rw [hp]; rfl
  rw [microStep_ir2mc h.1 h.2]
  unfold dispatchWord
  rw [hs]

/-- The meaning of the instruction a Word stands for is its dispatch. -/
theorem exec_wordInstr (k : Opcode) (a : Nat) (s : State) : exec (wordInstr k a) s = .next (dispatchWord k a s) := by
  obtain ⟨k, hk⟩ := k
  interval_cases k <;> rfl

/-- Every instruction answers a next state. -/
theorem exec_next (i : Instr) (s : State) : ∃ t, exec i s = .next t := by
  cases i <;> exact ⟨_, rfl⟩

end Sys2Proof.Machine
end

