-- ==== Sys2Proof/Laws/Tools.lean ====
section
/-! SUPPORT. The operations that write many elements of a store keep its canonical form: the RamEditor's shifts and
fix-up, and the stores built from a list by an import. -/

namespace Sys2Proof.Machine

section Store

variable {α : Type} [DecidableEq α] (d : α)

theorem Store.ofList_wfFrom (l : List α) (lo size : Nat) (h : lo + l.length ≤ size) :
    Store.wfFrom d size lo (((l.zipIdx lo).filter fun x => decide (x.1 ≠ d)).map fun x => (x.2, x.1)) = true := by
  induction l generalizing lo with
  | nil => rfl
  | cons v r ih =>
    simp only [List.length_cons] at h
    have hr := ih (lo + 1) (by omega)
    simp only [List.zipIdx_cons, List.filter_cons]
    split
    · rename_i hv
      simp only [List.map_cons, Store.wfFrom, Bool.and_eq_true, decide_eq_true_eq] at hv ⊢
      exact ⟨⟨⟨Nat.le_refl lo, by omega⟩, hv⟩, hr⟩
    · exact Store.wfFrom_mono d hr (by omega)

/-- The store of a list that is not too long is canonical. -/
theorem Store.ofList_wf (l : List α) {size : Nat} (h : l.length ≤ size) : Store.wf d size (Store.ofList d l) = true :=
  Store.ofList_wfFrom d l 0 size (by omega)

theorem Store.read_ofList_from (l : List α) (lo a : Nat) :
    Store.read d (((l.zipIdx lo).filter fun x => decide (x.1 ≠ d)).map fun x => (x.2, x.1)) (lo + a) = l.getD a d := by
  induction l generalizing lo a with
  | nil => rfl
  | cons v r ih =>
    have hlow : ∀ x, x < lo + 1 →
        Store.read d (((r.zipIdx (lo + 1)).filter fun x => decide (x.1 ≠ d)).map fun x => (x.2, x.1)) x = d :=
      fun x hx => Store.read_below d (Store.ofList_wfFrom d r (lo + 1) (lo + 1 + r.length) (Nat.le_refl _)) hx
    simp only [List.zipIdx_cons, List.filter_cons]
    cases a with
    | zero =>
      split
      · simp [Store.read]
      · rename_i hv
        simp only [decide_eq_true_eq, not_not] at hv
        simpa [hv] using hlow lo (by omega)
    | succ a =>
      have hr := ih (lo + 1) a
      rw [show lo + 1 + a = lo + (a + 1) by omega] at hr
      split
      · simp only [List.map_cons, Store.read]
        rw [if_neg (by omega)]
        simpa using hr
      · simpa using hr

/-- The store of a list reads as the list, and as the filler past its end. -/
theorem Store.read_ofList (l : List α) (a : Nat) : Store.read d (Store.ofList d l) a = l.getD a d := by
  simpa [Store.ofList] using Store.read_ofList_from d l 0 a

/-- The elements of a store of a list are elements of the list. -/
theorem Store.mem_ofList {l : List α} {e : Nat × α} (h : e ∈ Store.ofList d l) : e.2 ∈ l := by
  obtain ⟨x, hx, rfl⟩ := List.mem_map.mp h
  exact List.fst_mem_of_mem_zipIdx (List.mem_filter.mp hx).1

end Store

/-- Shifting rows up inside Memory keeps its canonical form (R250). -/
theorem shiftRowsUp_wf {sel n : Nat} {s : State} (hn : sel + n < 1000) (h : Memory.wf s.memory = true) :
    Memory.wf (shiftRowsUp sel n s).memory = true := by
  induction n generalizing s with
  | zero => exact h
  | succ n ih => exact ih (by omega) (State.memWrite_wf h (by omega) _)

/-- Shifting rows down inside Memory keeps its canonical form (R252). -/
theorem shiftRowsDown_wf {sel n : Nat} {s : State} (hn : sel + n ≤ 1000) (h : Memory.wf s.memory = true) :
    Memory.wf (shiftRowsDown sel n s).memory = true := by
  induction n generalizing sel s with
  | zero => exact h
  | succ n ih => exact ih (by omega) (State.memWrite_wf h (by omega) _)

theorem fixUpAt_wf {hlt : Opcode} {sel : Nat} {delta : Int} {s : State} {x : Nat} (hx : x < 1000)
    (h : Memory.wf s.memory = true) : Memory.wf (fixUpAt hlt sel delta s x).memory = true := by
  unfold fixUpAt
  split
  · exact h
  · exact State.memWrite_wf h hx _
  · exact h

/-- A fix-up keeps Memory's canonical form (R254). -/
theorem fixUp_wf {hlt : Opcode} {sel : Nat} {delta : Int} {s : State} (h : Memory.wf s.memory = true) :
    Memory.wf (fixUp hlt sel delta s).memory = true := by
  unfold fixUp
  have hl : ∀ x ∈ List.range 1000, x < 1000 := fun x hx => List.mem_range.mp hx
  generalize List.range 1000 = l at hl
  induction l generalizing s with
  | nil => exact h
  | cons x r ih =>
    exact ih (fixUpAt_wf (hl x (List.mem_cons_self ..)) h) fun y hy => hl y (List.mem_cons_of_mem _ hy)

/-- The name table of checked entries has its form (R270). -/
theorem NameTable.ofEntries_wf {es : List (Nat × Text)} (h : ∀ e ∈ es, e.1 < 20 ∧ validName e.2 = true) :
    NameTable.wf (NameTable.ofEntries es) = true := by
  have main : ∀ (es : List (Nat × Text)) (s : State), (∀ e ∈ es, e.1 < 20 ∧ validName e.2 = true) →
      NameTable.wf s.names = true →
      NameTable.wf (es.foldl (fun m e => Store.write none m e.1 (some e.2)) s.names) = true := by
    intro es
    induction es with
    | nil => exact fun s _ hs => hs
    | cons e r ih =>
      intro s he hs
      have h1 := he e (List.mem_cons_self ..)
      exact ih (s.nameWrite e.1 (some e.2)) (fun x hx => he x (List.mem_cons_of_mem _ hx))
        (State.nameWrite_wf hs h1.1 (by simpa using h1.2))
  exact main es { State.reset with names := [] } h rfl

/-- The core's store keeps Memory's canonical form, whatever the registers hold (R70). -/
theorem State.coreStore_wf {s : State} (h : Memory.wf s.memory = true) : Memory.wf s.coreStore.memory = true :=
  State.memWrite_wf h s.ab.isLt s.db

/-- A Memory of Words is canonical after an import (R270, R272). -/
theorem Memory.ofList_wf {l : List Word} (h : l.length ≤ 1000) : Memory.wf (Store.ofList 0 l) = true :=
  Store.ofList_wf 0 l h

/-- A Microcode of legal ids has its form after an import (R270, R275). -/
theorem Microcode.ofList_wf {l : List Nat} (h : l.length ≤ 200) (hl : ∀ id ∈ l, legalId id = true) :
    Microcode.wf (Store.ofList 0 l) = true := by
  simp only [Microcode.wf, Bool.and_eq_true, List.all_eq_true]
  exact ⟨Store.ofList_wf 0 l h, fun e he => hl e.2 (Store.mem_ofList 0 he)⟩

end Sys2Proof.Machine
end

