-- ==== Sys2Proof/Tests/Slice0.lean ====
section
/-! SUPPORT. The model's own tests. Expected values are those of the spec's examples and vectors (95_test_vectors.md,
named S, V and P below), and of the tables of 30_encoding.md. At the end, for each obligation that has hypotheses, a
state and operands that meet all of them together, for each of its clauses. -/

/-- The state with these words in Memory. -/
def Sys2Proof.Machine.State.withWords (s : Sys2Proof.Machine.State) (m : Sys2Proof.Machine.Memory) :
    Sys2Proof.Machine.State := { s with memory := m }

namespace Sys2Proof.Tests

open Sys2Proof Sys2Proof.Machine

/-- The state after a step; every step answers one. -/
def after (s : State) : State :=
  match step s with
  | .next t => t
  | _ => s

/-- The state after `n` steps. -/
def afterN : Nat → State → State
  | 0, s => s
  | n + 1, s => afterN n (after s)

/-- The machine after construction with these registers. -/
def regs (ab : Addr) (db acc : Word) (pc : Addr) (ir : Word) (mc : Slot) : State :=
  { State.reset with ab := ab, db := db, acc := acc, pc := pc, ir := ir, mc := mc }

/-- The registers, in the order AB, DB, ACC, PC, IR, MC. -/
def values (s : State) : List Nat := [Reg.ab, .db, .acc, .pc, .ir, .mc].map s.reg

/-- One micro-step of the id, placed at `MC`. -/
def micro (id : Nat) (s : State) : State := after (s.withFetchWord 8 id)

/-- One macro step of the Word, placed at `PC`. -/
def macroOf (w : Nat) (s : State) : State := after (s.withFetchWord 16 w)

/-- The step in which the host issues the command. -/
def issued (c : Command) (s : State) : State := after (s.withInbox [.command c])

/-! ## Well-formedness: the one check is that the operand has three digits -/

theorem test_wf_refuses_operand_1000 :
    ([.fetch 1000, .take 1000, .add 1000, .sub 1000, .save 1000, .jmp 1000, .tst 1000, .inc 1000, .dec 1000, .null 1000,
      .hlt 1000, .op11 1000, .op12 1000, .op13 1000, .op14 1000, .op15 1000, .op16 1000, .op17 1000, .op18 1000,
      .op19 1000] : List Instr).all (fun i => !i.wellFormed) = true := by decide

theorem test_wf_accepts_operand_999 : (Instr.take 999).wellFormed = true ∧ Instr.halt.wellFormed = true := by decide

/-! ## Decoding: every id of R96, and a Word of every opcode (table 2.1; digits `opcode operand`) -/

theorem test_decode_micro :
    (List.range 20).map (decodeTableWord 8) =
      ([.nop0, .db2ram, .ram2db, .db2ir, .ir2ab, .ir2mc, .reserved6, .mc0, .pc2ab, .pcinc, .skipz, .ir2pc, .acc0, .plus,
        .minus, .acc2db, .accinc, .accdec, .db2acc, .halt] : List Instr).map some := by decide

theorem test_decode_word :
    [7, 1010, 2011, 3006, 4012, 5999, 6010, 7011, 8005, 9006, 10999, 11000, 12345, 13001, 14099, 15100, 16500, 17017,
      18200, 19999].map (decodeTableWord 16) =
      ([.fetch 7, .take 10, .add 11, .sub 6, .save 12, .jmp 999, .tst 10, .inc 11, .dec 5, .null 6, .hlt 999, .op11 0,
        .op12 345, .op13 1, .op14 99, .op15 100, .op16 500, .op17 17, .op18 200, .op19 999] : List Instr).map some := by
  decide

theorem test_decode_refuses :
    decode (.slot 20) = .error (.unknownMicroOp 20) ∧ decode (.slot 31) = .error (.unknownMicroOp 31) ∧
    decode (.word 20000) = .error (.notAWord 20000) ∧ decode (.word 32767) = .error (.notAWord 32767) := by decide

theorem test_encode :
    encode .acc2db = .slot 15 ∧ encode (.take 10) = .word 1010 ∧ encode (.op19 999) = .word 19999 ∧
    encode (.fetch 0) = .word 0 := by decide

/-! ## Reset (R42) -/

theorem test_reset_registers :
    values State.reset = [0, 0, 0, 0, 0, 0] ∧ State.reset.halted = false ∧ State.reset.running = false ∧
    State.reset.recCursor = none ∧ State.reset.lastAccessed = none ∧ State.reset.memory = [] := by decide

theorem test_reset_microcode :
    (List.range 10).map State.reset.mcRead = [8, 2, 3, 5, 0, 0, 0, 0, 0, 0] ∧
    (List.range 10).map (fun i => State.reset.mcRead (70 + i)) = [4, 2, 18, 16, 15, 1, 9, 7, 0, 0] ∧
    State.reset.mcRead 100 = 19 ∧ State.reset.mcRead 110 = 0 := by decide

theorem test_reset_names :
    State.reset.nameRead 2 = some ['A', 'D', 'D'] ∧ State.reset.nameRead 10 = some ['H', 'L', 'T'] ∧
    State.reset.nameRead 11 = none := by decide

/-- S7: from reset, with nothing placed, three micro-steps succeed and the fourth meets FetchFault. -/
theorem test_reset_first_steps :
    values (afterN 3 State.reset) = [0, 0, 0, 0, 0, 3] ∧ (afterN 3 State.reset).halted = false ∧
    (afterN 4 State.reset).halted = true ∧ (afterN 4 State.reset).mc = 3 ∧
    (afterN 4 State.reset).response = some (.execFault (.fetchFault 0 0 3)) := by decide

/-! ## Micro-operations (tables 2.3 to 2.5) -/

theorem test_nop0_faults :
    let t := micro 0 (regs 0 0 0 0 11000 110)
    t.halted = true ∧ values t = [0, 0, 0, 0, 11000, 110] ∧ t.response = some (.execFault (.invalidMicroOp (.int 0) 110)) := by
  decide

theorem test_db2ram :
    let t := micro 1 (regs 12 345 0 0 0 42)
    (t.memRead 12).val = 345 ∧ (t.memRead 11).val = 0 ∧ t.mc = 43 ∧ t.lastAccessed = some 12 := by decide

theorem test_db2ram_zero_unlists : (micro 1 ((regs 0 0 0 0 0 42).withWords [(0, 1010)])).memory = [] := by decide

theorem test_ram2db :
    let t := micro 2 ((regs 10 0 0 0 0 11).withWords [(10, 7)])
    t.db = 7 ∧ t.mc = 12 ∧ t.lastAccessed = some 10 := by decide

theorem test_ram2db_unwritten : values (micro 2 (regs 500 9 0 0 0 1)) = [500, 0, 0, 0, 0, 2] := by decide

theorem test_db2ir : values (micro 3 (regs 0 2011 0 0 1010 2)) = [0, 2011, 0, 0, 2011, 3] := by decide

theorem test_ir2ab : (micro 4 (regs 0 0 0 0 4012 40)).ab = 12 ∧ (micro 4 (regs 0 0 0 0 19999 40)).ab = 999 := by decide

theorem test_ir2mc :
    (micro 5 (regs 0 0 0 0 2011 3)).mc = 20 ∧ (micro 5 (regs 0 0 0 0 1000 3)).mc = 10 ∧
    (micro 5 (regs 0 0 0 0 19999 3)).mc = 190 := by decide

theorem test_ir2mc_faults :
    let t := micro 5 (regs 0 0 0 7 999 3)
    t.halted = true ∧ t.mc = 3 ∧ t.response = some (.execFault (.fetchFault 999 7 3)) := by decide

theorem test_reserved6_faults :
    let t := micro 6 (regs 0 0 0 0 0 9)
    t.halted = true ∧ t.mc = 9 ∧ t.response = some (.execFault (.invalidMicroOp (.int 6) 9)) := by decide

theorem test_mc0 : values (micro 7 (regs 1 2 3 4 5 14)) = [1, 2, 3, 4, 5, 0] := by decide

theorem test_pc2ab : values (micro 8 (regs 0 0 0 3 0 0)) = [3, 0, 0, 3, 0, 1] := by decide

theorem test_pcinc :
    (micro 9 (regs 0 0 0 1 0 13)).pc = 2 ∧ (micro 9 (regs 0 0 0 999 0 13)).pc = 999 ∧
    Event.normalized .pc ∈ (micro 9 (regs 0 0 0 999 0 13)).events := by decide

theorem test_skipz :
    (micro 10 (regs 0 0 0 0 0 63)).pc = 1 ∧ (micro 10 (regs 0 0 3 0 0 63)).pc = 0 ∧
    (micro 10 (regs 0 0 3 0 0 63)).mc = 64 := by decide

theorem test_skipz_at_top :
    Event.normalized .pc ∈ (micro 10 (regs 0 0 0 999 0 63)).events ∧
    Event.normalized .pc ∉ (micro 10 (regs 0 0 1 999 0 63)).events := by decide

theorem test_ir2pc : values (micro 11 (regs 0 0 0 0 5999 50)) = [0, 0, 0, 999, 5999, 51] := by decide

theorem test_acc0 : values (micro 12 (regs 0 0 77 0 0 91)) = [0, 0, 0, 0, 0, 92] := by decide

theorem test_plus :
    (micro 13 (regs 0 5 7 0 0 22)).acc = 12 ∧ (micro 13 (regs 0 12000 12000 0 0 22)).acc = 19999 := by decide

theorem test_plus_normalizes :
    Event.normalized .acc ∉ (micro 13 (regs 0 1 19998 0 0 22)).events ∧
    Event.normalized .acc ∈ (micro 13 (regs 0 1 19999 0 0 22)).events := by decide

theorem test_minus :
    (micro 14 (regs 0 5 12 0 0 32)).acc = 7 ∧ (micro 14 (regs 0 9 2 0 0 32)).acc = 0 := by decide

theorem test_minus_normalizes :
    Event.normalized .acc ∉ (micro 14 (regs 0 5 5 0 0 32)).events ∧
    Event.normalized .acc ∈ (micro 14 (regs 0 19999 0 0 0 32)).events := by decide

theorem test_acc2db : values (micro 15 (regs 0 4012 12 0 0 41)) = [0, 12, 12, 0, 0, 42] := by decide

theorem test_accinc : (micro 16 (regs 0 0 4 0 0 1)).acc = 5 ∧ (micro 16 (regs 0 0 19999 0 0 1)).acc = 19999 := by decide

theorem test_accdec : (micro 17 (regs 0 0 3 0 0 1)).acc = 2 ∧ (micro 17 (regs 0 0 0 0 0 1)).acc = 0 := by decide

theorem test_db2acc : values (micro 18 (regs 0 7 100 0 0 12)) = [0, 7, 7, 0, 0, 13] := by decide

theorem test_halt :
    let t := micro 19 (regs 0 0 0 0 10000 100)
    t.halted = true ∧ t.mc = 100 ∧ t.response = some .ok ∧ t.endedNormally = true := by decide

theorem test_increment_at_top :
    (micro 12 (regs 0 0 5 0 0 199)).mc = 199 ∧ Event.normalized .mc ∈ (micro 12 (regs 0 0 5 0 0 199)).events := by decide

/-! ## Macro instructions, one macro step each (table 2.8) -/

theorem test_fetch_faults :
    let t := macroOf 999 (regs 0 0 0 0 0 0)
    values t = [0, 999, 0, 0, 999, 3] ∧ t.response = some (.execFault (.fetchFault 999 0 3)) := by decide

theorem test_take : values (macroOf 1010 ((regs 0 0 0 0 0 0).withWords [(10, 7)])) = [10, 7, 7, 1, 1010, 0] := by decide

theorem test_take_at_top : values (macroOf 1005 ((regs 0 0 0 999 0 0).withWords [(5, 42)])) = [5, 42, 42, 999, 1005, 0] := by
  decide

theorem test_add : values (macroOf 2011 ((regs 0 0 7 0 0 0).withWords [(11, 5)])) = [11, 5, 12, 1, 2011, 0] := by decide

theorem test_add_saturates : (macroOf 2011 ((regs 0 0 19000 0 0 0).withWords [(11, 5000)])).acc = 19999 := by decide

theorem test_sub : values (macroOf 3006 ((regs 0 0 12 0 0 0).withWords [(6, 5)])) = [6, 5, 7, 1, 3006, 0] := by decide

theorem test_sub_saturates : (macroOf 3006 ((regs 0 0 2 0 0 0).withWords [(6, 9)])).acc = 0 := by decide

theorem test_save :
    let t := macroOf 4012 (regs 0 0 12 0 0 0)
    values t = [12, 12, 12, 1, 4012, 0] ∧ (t.memRead 12).val = 12 ∧ (t.memRead 0).val = 4012 := by decide

theorem test_save_on_itself :
    let t := macroOf 4000 (regs 0 0 321 0 0 0)
    values t = [0, 321, 321, 1, 4000, 0] ∧ (t.memRead 0).val = 321 := by decide

theorem test_jmp : values (macroOf 5003 (regs 0 0 9 1 0 0)) = [1, 5003, 9, 3, 5003, 0] := by decide

theorem test_tst_skips : values (macroOf 6010 (regs 0 0 55 0 0 0)) = [10, 0, 0, 2, 6010, 0] := by decide

theorem test_tst_goes_on : values (macroOf 6010 ((regs 0 0 55 0 0 0).withWords [(10, 3)])) = [10, 3, 3, 1, 6010, 0] := by
  decide

theorem test_inc :
    let t := macroOf 7011 (regs 0 0 55 0 0 0)
    values t = [11, 1, 1, 1, 7011, 0] ∧ (t.memRead 11).val = 1 := by decide

theorem test_inc_of_itself :
    let t := macroOf 7005 (regs 0 0 0 5 0 0)
    (t.memRead 5).val = 7006 ∧ t.acc = 7006 ∧ t.pc = 6 ∧ t.ir = 7005 := by decide

theorem test_dec :
    let t := macroOf 8010 ((regs 0 0 0 0 0 0).withWords [(10, 3)])
    values t = [10, 2, 2, 1, 8010, 0] ∧ (t.memRead 10).val = 2 := by decide

theorem test_dec_saturates : (macroOf 8005 (regs 0 0 77 0 0 0)).acc = 0 := by decide

theorem test_null :
    let t := macroOf 9006 ((regs 0 0 77 0 0 0).withWords [(6, 123)])
    values t = [6, 0, 0, 1, 9006, 0] ∧ (t.memRead 6).val = 0 := by decide

theorem test_hlt :
    let t := macroOf 10000 (regs 0 0 12 3 0 0)
    values t = [3, 10000, 12, 3, 10000, 100] ∧ t.halted = true ∧ t.response = some .ok := by decide

theorem test_hlt_ignores_operand : values (macroOf 10999 (regs 0 0 0 0 0 0)) = [0, 10999, 0, 0, 10999, 100] := by decide

/-- V5 and R230: opcodes 11 to 19 under the reference microcode. -/
theorem test_unprogrammed_opcodes :
    [11, 12, 13, 14, 15, 16, 17, 18, 19].map (fun k => (macroOf (1000 * k) State.reset).mc.val) =
      [110, 120, 130, 140, 150, 160, 170, 180, 190] ∧
    (macroOf 11000 State.reset).response = some (.execFault (.invalidMicroOp (.int 0) 110)) := by decide

/-- P5, second macro step: opcode 11 with the block of R232. -/
theorem test_user_defined :
    let s := { regs 0 0 6000 1 0 0 with
      microcode := Config.refMc ++ [(110, 15), (111, 13), (112, 9), (113, 7)] }
    values (macroOf 11000 s) = [1, 6000, 12000, 2, 11000, 0] := by decide

/-- V7: a block without an end runs on into the next. -/
theorem test_block_runs_on :
    let s := { regs 0 0 5 0 0 0 with
      microcode := Config.refMc ++ Config.block 11 [16, 16, 16, 16, 16, 16, 16, 16, 16, 16] ++ Config.block 12 [9, 7] }
    values (macroOf 11000 s) = [0, 11000, 15, 1, 11000, 0] := by decide

/-- V8: a macro step in a dispatch loop stays in progress. -/
theorem test_dispatch_loop :
    let s := { regs 0 0 0 0 0 0 with microcode := Config.refMc ++ [(110, 5)] }
    (macroOf 11000 s).progress = .macroStep ∧ (macroOf 11000 s).response = none ∧
    (after (macroOf 11000 s)).progress = .macroStep := by decide +kernel

/-! ## Commands of the host (tables 2.2, 2.6, 2.7, 2.9 to 2.12) -/

theorem test_write_checks_address_first :
    (issued (.memoryWrite (.int 1000) (.int 20000)) State.reset).response =
      some (.failed (.addressOutOfRange (.int 1000))) ∧
    (issued (.memoryWrite (.int (-1)) (.int 5)) State.reset).response = some (.failed (.addressOutOfRange (.int (-1)))) ∧
    (issued (.memoryWrite (.int 0) (.int 20000)) State.reset).response = some (.failed (.valueOutOfRange (.int 20000))) ∧
    ((issued (.memoryWrite (.int 0) (.int 19999)) State.reset).memRead 0).val = 19999 := by decide

theorem test_last_used :
    (issued .lastUsedAddress State.reset).response = some (.address none) ∧
    (issued .lastUsedAddress (State.reset.withWords [(3, 10000), (11, 5)])).response = some (.address (some 11)) := by decide

theorem test_microcode_write :
    (issued (.microcodeWrite (.int 110) (.int 15)) State.reset).mcRead 110 = 15 ∧
    (issued (.microcodeWrite (.int 110) (.int 6)) State.reset).response = some (.failed (.invalidMicroOp (.int 6))) ∧
    (issued (.microcodeWrite (.int 200) (.int 6)) State.reset).response =
      some (.failed (.addressOutOfRange (.int 200))) := by decide

theorem test_names :
    (issued (.setInstructionName (.int 19) ['A', 'B', 'C', 'D', 'E']) State.reset).nameRead 19 =
      some ['A', 'B', 'C', 'D', 'E'] ∧
    (issued (.setInstructionName (.int 3) ['A', 'B', 'C', 'D', 'E', 'F']) State.reset).response =
      some (.failed (.invalidName ['A', 'B', 'C', 'D', 'E', 'F'])) ∧
    (issued (.setInstructionName (.int 20) []) State.reset).response = some (.failed (.invalidOpcode (.int 20))) ∧
    (issued (.instructionName (.int 20)) State.reset).response = some (.name none) := by decide

theorem test_manual_step :
    values (issued (.manualStep (.int 16)) (regs 0 0 4 0 0 0)) = [0, 0, 5, 0, 0, 0] ∧
    (issued (.manualStep (.int 0)) (regs 0 0 4 0 0 7)).halted = false ∧
    (issued (.manualStep (.int (-1))) State.reset).halted = true ∧
    (issued (.manualStep (.int 5)) (regs 0 0 0 0 2011 0)).mc = 20 ∧
    (issued (.manualStep (.int 13)) { regs 0 2 1 0 0 0 with halted := true }).acc = 3 := by decide

/-- R340: a later fault on a halted machine does not change how the run ended. -/
theorem test_end_stays :
    let normal := issued (.manualStep (.int 6)) (micro 19 (regs 0 0 0 0 10000 100))
    let faulty := issued (.manualStep (.int 19)) (micro 6 State.reset)
    normal.endedNormally = true ∧ normal.endedByFault = false ∧
    normal.lastFault = some (.invalidMicroOp (.int 6) 100) ∧
    faulty.endedByFault = true ∧ faulty.endedNormally = false := by decide

theorem test_rejected_while_running :
    let s := { State.reset with running := true }
    (issued .microStep s).response = some .rejectedWhileRunning ∧
    (issued (.memoryWrite (.int 0) (.int 1)) s).response = some .rejectedWhileRunning ∧
    (issued (.memoryRead (.int 0)) s).response = some (.word 0) ∧ (issued .stop s).running = false := by decide

/-- V10: a run of program P1 takes four ticks and ends normally. -/
theorem test_run_of_p1 :
    let s := State.reset.withWords [(0, 1010), (1, 2011), (2, 4012), (3, 10000), (10, 7), (11, 5)]
    let t := afterN 4 (issued (.run (.int 0)) s)
    values t = [3, 10000, 12, 3, 10000, 100] ∧ (t.memRead 12).val = 12 ∧ t.endedNormally = true ∧ t.running = false := by
  decide

/-- V20: insert and delete a row. -/
theorem test_rows :
    let t := issued (.insertRowAbove (.int 1) false) (State.reset.withWords [(0, 5), (1, 6), (2, 7)])
    t.memory = [(0, 5), (2, 6), (3, 7)] ∧
    (issued (.deleteRow (.int 1) false) t).memory = [(0, 5), (1, 6), (2, 7)] := by decide

/-- V21 and V23: the word a fix-up makes. -/
theorem test_fix_up_of_words :
    fixedWord 10 1 1 2006 = .ok (some 2007) ∧ fixedWord 10 1 1 10000 = .ok none ∧ fixedWord 10 1 1 2 = .ok none ∧
    fixedWord 10 1 1 1999 = .error () ∧ fixedWord 10 1 (-1) 1006 = .ok (some 1005) := by decide

theorem test_insert_edges :
    (issued (.insertRowAbove (.int 0) false) (State.reset.withWords [(999, 5)])).response = some (.failed .memoryFull) ∧
    (issued (.insertRowAbove (.int 1000) false) State.reset).response =
      some (.failed (.addressOutOfRange (.int 1000))) ∧
    (issued (.deleteRow (.int 5) false) (State.reset.withWords [(2, 9)])).memory = [(2, 9)] := by decide

/-- S10 and V32: the Recorder. -/
theorem test_recorder :
    let t := issued (.recorderRecord (.int 1)) (issued (.recorderStart (.int 20) ['L', 'O', 'O', 'P']) State.reset)
    t.mcRead 20 = 1 ∧ t.recCursor = some 21 ∧ t.nameRead 2 = some ['L', 'O', 'O', 'P'] ∧
    (issued (.recorderRecord (.int 9)) { State.reset with recCursor := some 200 }).response =
      some (.failed (.addressOutOfRange (.int 200))) ∧
    (issued (.recorderStart (.int 25) ['X']) State.reset).response = some (.failed .recordingConfigError) := by decide

/-- V30, one step: a manual step is recorded. -/
theorem test_manual_step_is_recorded :
    let t := issued (.manualStep (.int 15)) { regs 0 0 6 0 0 0 with recCursor := some 110 }
    t.db = 6 ∧ t.mcRead 110 = 15 ∧ t.recCursor = some 111 ∧ t.mc = 0 := by decide

/-- V40: interior zeros are kept, trailing ones trimmed. -/
theorem test_export :
    (State.reset.withWords [(0, 1010), (2, 5)]).snapshot.ram = [1010, 0, 5] ∧ State.reset.snapshot.ram = [] ∧
    State.reset.snapshot.microCode.length = 101 := by decide

/-- V41: import, and a value out of range. -/
theorem test_import :
    let x : RawSnapshot :=
      { ram := some [.int 9006, .int 1005], microCode := some [.int 8, .int 2], instructionNames := some [] }
    let t := issued (.importSnapshot x) State.reset
    t.memory = [(0, 9006), (1, 1005)] ∧ t.microcode = [(0, 8), (1, 2)] ∧ t.names = [] ∧
    (issued (.importSnapshot { x with ram := some [.int 20000] }) State.reset).response =
      some (.failed .malformedSnapshot) ∧
    (issued (.importSnapshot { x with microCode := some [.int 6] }) State.reset).response =
      some (.failed .malformedSnapshot) := by decide

/-- S8 and V42: lines of a `.ram` text. -/
theorem test_import_ram :
    (issued (.importRam [['9', '0', '0', '6'], ['1', '0', '0', '5', ' ', '#', ' ', 'c'], []]) State.reset).memory =
      [(0, 9006), (1, 1005)] ∧
    (issued (.importRam [[' ', '1', '2', ' '], ['#', 'n'], ['a', 'b', 'c'], ['2', '0', '0', '0', '0'], ['7', ' ', '#']])
      State.reset).memory = [(0, 12), (3, 7)] := by decide

/-- S9: too few lines of a `.mc` text. -/
theorem test_import_mc_too_short :
    (issued (.importMc (List.replicate 150 ['1'])) State.reset).response = some (.failed .malformedSnapshot) := by
  decide +kernel

/-- V50: `resetMachine` leaves the stores. -/
theorem test_reset_machine :
    let t := issued .resetMachine { (regs 3 10000 12 3 10000 100).withWords [(12, 12)] with halted := true }
    values t = [0, 0, 0, 0, 0, 0] ∧ t.halted = false ∧ t.memory = [(12, 12)] := by decide

/-- Every row of the opcode table, placed by `withFetchWord`, is what the next step fetches. -/
theorem test_with_fetch_word :
    ((List.range 20).all fun id => (State.reset.withFetchWord 8 id).slotId == id) = true ∧
    ((List.range 20).all fun k =>
      ((State.reset.withFetchWord 16 (1000 * k)).memRead 0).val == 1000 * k) = true := by decide

/-! ## Witnesses: a concrete state and operands that meet all hypotheses of an obligation together -/

/-- The machine after construction, with one command to come. -/
def asking (c : Command) (s : State) : State := s.withInbox [.command c]

/-- With these slots of Microcode besides the reference ones. -/
def withSlots (m : Microcode) (s : State) : State := { s with microcode := Config.refMc ++ m }

/-- A micro-operation in slot 0, to be run by the next micro-step. -/
def slotZero (id : Nat) : State := { State.reset with microcode := if id = 0 then [] else [(0, id)] }

theorem witness_DecodeOfEncodeIsIdentity :
    (Instr.take 999).wellFormed = true ∧ Instr.halt.wellFormed = true := by decide

theorem witness_DecodingIsUnambiguousAndTotal :
    decode (.slot 19) = .ok .halt ∧ decode (.word 19999) = .ok (.op19 999) := by decide

theorem witness_StoreWritesDataBusAtAddressBus : Memory.wf (regs 999 19999 0 0 0 0).memory = true := by decide

theorem witness_DispatchJumpsToTheOpcodesBlock :
    1000 ≤ (regs 0 0 0 0 1000 3).ir.val ∧ (regs 0 0 0 0 999 3).ir.val < 1000 := by decide

theorem witness_MicroStepWritesOnlyTheRegistersOfItsRow :
    (slotZero 2).halted = false ∧ (slotZero 2).slotId ≠ 1 ∧ (slotZero 13).halted = false ∧ (slotZero 13).slotId ≠ 1 ∧
    (slotZero 13).slotId ≠ 2 := by decide

theorem witness_AutoIncrementNormalizesOnlyAtTheTop :
    (slotZero 18).halted = false ∧ increments (slotZero 18).slotId = true ∧
    (let s := withSlots [(199, 9)] (regs 0 0 0 0 0 199)
     s.halted = false ∧ increments s.slotId = true ∧ s.mc = 199) := by decide

theorem witness_MicroStepOnHaltedMachineIsNoOp :
    let s := asking .microStep { State.reset with halted := true }
    s.asks .microStep ∧ s.halted = true ∧ s.running = false := by decide

theorem witness_StepRunsTheDecodedMicroOp :
    (let s := asking .microStep State.reset
     s.asks .microStep ∧ s.halted = false ∧ s.running = false ∧ decodeSlot s.slotId = .ok .pc2ab) ∧
    (let s := State.reset
     s.progress = .idle ∧ s.inbox = [] ∧ s.halted = false ∧ s.running = false ∧
       decodeSlot s.slotId = .ok .pc2ab) := by decide

theorem witness_StepRunsTheDecodedWord :
    let s := asking .macroStep (State.reset.withWords [(0, 1010)])
    s.asks .macroStep ∧ s.halted = false ∧ s.running = false ∧ s.mc = 0 ∧ s.blockIs 0 (referenceBlock 0) ∧
      decode (.word (s.memRead s.pc.val).val) = .ok (.take 10) := by decide

theorem witness_MacroStepIteratesMicroStep :
    (let s := asking .macroStep (State.reset.withWords [(0, 1010)])
     s.asks .macroStep ∧ s.running = false ∧ (after s).progress = .idle) ∧
    (let s := asking .macroStep ((withSlots [(110, 5)] State.reset).withWords [(0, 11000)])
     s.asks .macroStep ∧ s.running = false ∧ (after s).progress = .macroStep) := by decide +kernel

theorem witness_OnlyIdSevenReturnsToSlotZero :
    let s := regs 0 0 0 0 0 14
    s.mc ≠ 0 ∧ (microStep s).mc = 0 := by decide

theorem witness_NonReturningMicrocodeHangs :
    (let s := withSlots [(110, 5)] (regs 0 0 0 0 11000 110)
     s.halted = false ∧ 1000 ≤ s.ir.val ∧ s.mc.val = s.ir.val / 1000 * 10 ∧ s.slotId = 5) ∧
    (let s := withSlots [(199, 9)] (regs 0 0 0 0 0 199)
     s.halted = false ∧ s.mc.val = 199 ∧ increments s.slotId = true) := by decide

theorem witness_OpcodeZeroTakesFetchFault : 0 < 1000 ∧ 999 < 1000 := by decide

theorem witness_TakeAddSubLoadAndCompute :
    let s := State.reset
    999 < 1000 ∧ s.halted = false ∧ s.blockIs 1 [4, 2, 18, 9, 7] ∧ s.blockIs 2 [4, 2, 13, 9, 7] ∧
      s.blockIs 3 [4, 2, 14, 9, 7] := by decide

theorem witness_SaveStoresTheAccumulator :
    let s := regs 0 0 12 0 0 0
    999 < 1000 ∧ s.halted = false ∧ Memory.wf s.memory = true ∧ s.blockIs 4 [4, 15, 1, 9, 7] := by decide

theorem witness_JumpAndTestMoveTheProgramCounter :
    999 < 1000 ∧ State.reset.halted = false ∧ State.reset.blockIs 5 [11, 7] ∧
    State.reset.blockIs 6 [4, 2, 18, 10, 9, 7] := by decide

theorem witness_IncDecNullRewriteTheirWord :
    let s := State.reset.withWords [(999, 19999)]
    999 < 1000 ∧ s.halted = false ∧ Memory.wf s.memory = true ∧ s.blockIs 7 [4, 2, 18, 16, 15, 1, 9, 7] ∧
      s.blockIs 8 [4, 2, 18, 17, 15, 1, 9, 7] ∧ s.blockIs 9 [4, 12, 15, 1, 9, 7] := by decide

theorem witness_HltHaltsWithItsOperandIgnored :
    999 < 1000 ∧ State.reset.halted = false ∧ State.reset.blockIs 10 [19] := by decide

theorem witness_UnprogrammedOpcodesFaultAtTheirBlock :
    999 < 1000 ∧ State.reset.halted = false ∧ State.reset.blockIs 11 [] ∧ State.reset.blockIs 19 [] ∧
    (Instr.op11 999, 11) ∈ [(Instr.op11 999, 11), (.op12 999, 12)] := by decide

theorem witness_UserDefinedOpcodesRunTheirBlock :
    let s := withSlots (Config.block 11 [15, 13, 9, 7] ++ Config.block 19 [15, 13, 9, 7]) State.reset
    999 < 1000 ∧ s.halted = false ∧ s.blockIs 11 [15, 13, 9, 7] ∧ s.blockIs 19 [15, 13, 9, 7] := by decide

theorem witness_ReferenceInstructionSetOnTheMachine :
    (let s := asking .macroStep (State.reset.withWords [(0, 1999)])
     s.asks .macroStep ∧ s.halted = false ∧ s.running = false ∧ s.mc = 0 ∧ Memory.wf s.memory = true ∧
       s.blockIs 0 (referenceBlock 0) ∧ s.blockIs 1 (referenceBlock 1) ∧ (s.memRead s.pc.val).val = 1000 * 1 + 999) ∧
    (let s := asking .macroStep (State.reset.withWords [(0, 10000)])
     s.asks .macroStep ∧ s.halted = false ∧ s.running = false ∧ s.mc = 0 ∧ Memory.wf s.memory = true ∧
       s.blockIs 0 (referenceBlock 0) ∧ s.blockIs 10 (referenceBlock 10) ∧ (s.memRead s.pc.val).val = 1000 * 10 + 0) := by
  decide

theorem witness_ReferenceMicroStepCounts :
    ∀ k ∈ [1, 2, 3, 4, 5, 6, 7, 8, 9, 10],
      let s := State.reset.withWords [(0, Fin.ofNat 20000 (1000 * k + 10))]
      s.halted = false ∧ s.mc = 0 ∧ 1 ≤ k ∧ k ≤ 10 ∧ s.blockIs 0 (referenceBlock 0) ∧ s.blockIs k (referenceBlock k) ∧
        (s.memRead s.pc.val).val = 1000 * k + 10 ∧ 1 < referenceSteps k := by decide

theorem witness_FetchingAWordBelowThousandFaults :
    let s := asking .macroStep (State.reset.withWords [(0, 999)])
    s.asks .macroStep ∧ s.halted = false ∧ s.running = false ∧ s.mc = 0 ∧ s.blockIs 0 (referenceBlock 0) ∧
      (s.memRead s.pc.val).val < 1000 := by decide

theorem witness_FaultingMicroStepIsPrecise :
    (let s := { State.reset with microcode := [(0, 6)] }
     s.halted = false ∧ legalId s.slotId = false) ∧
    ((slotZero 0).halted = false ∧ (slotZero 0).slotId = 0) ∧
    (let s := regs 0 0 0 0 999 3
     s.halted = false ∧ s.slotId = 5 ∧ s.ir.val < 1000) := by decide

theorem witness_OnlyResetMachineClearsHalted :
    (let s := asking .resetMachine { State.reset with halted := true, ending := some .halt }
     s.halted = true ∧ step s = .next (after s) ∧ (after s).halted = false) ∧
    (let s := asking (.manualStep (.int 6)) { State.reset with halted := true, ending := some .halt }
     s.halted = true ∧ step s = .next (after s) ∧ (after s).halted = true) := ⟨⟨rfl, rfl, rfl⟩, rfl, rfl, rfl⟩

theorem witness_NoInstructionTouchesTheHostsState :
    let s := { regs 0 5 7 0 0 22 with halted := true }
    exec .plus s = .next (effPlus s).autoIncrement ∧ s.halted = true := ⟨rfl, rfl⟩

theorem witness_EveryStepKeepsTheInvariant :
    State.reset.inv = true ∧ step State.reset = .next (after State.reset) := ⟨by decide, rfl⟩

theorem witness_ResetMachineRestoresRegistersOnly :
    let s := asking .resetMachine { regs 1 2 3 4 5 6 with halted := true }
    s.asks .resetMachine ∧ s.running = false := by decide

theorem witness_ManualStepIsTheEffectWithoutIncrement :
    (let s := asking (.manualStep (.int 13)) (regs 0 5 7 0 0 22)
     s.asks (.manualStep (.int (13 : Nat))) ∧ s.running = false ∧ s.recCursor = none ∧ decodeSlot 13 = .ok .plus ∧
       exec .plus s = .next (effPlus s).autoIncrement ∧ increments 13 = true) ∧
    (let s := asking (.manualStep (.int 0)) (regs 0 5 7 0 0 22)
     s.asks (.manualStep (.int (0 : Nat))) ∧ s.running = false ∧ s.recCursor = none ∧ decodeSlot 0 = .ok .nop0 ∧
       exec .nop0 s = .next (s.takeFault (.invalidMicroOp (.int 0) s.mc))) ∧
    (let s := asking (.manualStep (.int 5)) (regs 0 5 7 0 1000 22)
     s.asks (.manualStep (.int (5 : Nat))) ∧ s.running = false ∧ s.recCursor = none ∧ decodeSlot 5 = .ok .ir2mc ∧
       exec .ir2mc s = .next (effIr2mc s) ∧ 1000 ≤ s.ir.val) ∧
    (let s := asking (.manualStep (.int 5)) { regs 0 5 7 0 999 22 with recCursor := some 110 }
     s.asks (.manualStep (.int (5 : Nat))) ∧ s.running = false ∧ decodeSlot 5 = .ok .ir2mc ∧
       exec .ir2mc s = .next (s.takeFault (.fetchFault s.ir s.pc s.mc)) ∧ s.ir.val < 1000) :=
  ⟨⟨⟨rfl, rfl⟩, rfl, rfl, rfl, rfl, rfl⟩, ⟨⟨rfl, rfl⟩, rfl, rfl, rfl, rfl⟩, ⟨⟨rfl, rfl⟩, rfl, rfl, rfl, rfl, by decide⟩,
    ⟨rfl, rfl⟩, rfl, rfl, rfl, by decide⟩

theorem witness_ManualStepOfUnknownIdHalts :
    ∀ x ∈ [HostNum.int 6, .int 20, .int (-1), .nonInteger],
      (asking (.manualStep x) State.reset).asks (.manualStep x) ∧ (asking (.manualStep x) State.reset).running = false ∧
        ∀ id : Nat, legalId id = true → x ≠ .int id := by
  intro x hx
  refine ⟨⟨rfl, rfl⟩, rfl, fun id hid he => ?_⟩
  subst he
  simp only [List.mem_cons, HostNum.int.injEq, List.not_mem_nil, or_false, reduceCtorEq] at hx
  simp only [legalId, Bool.and_eq_true, decide_eq_true_eq] at hid
  omega

theorem witness_ManualStepIsRecordedAfterItsEffect :
    (let s := asking (.manualStep (.int 15)) { regs 0 0 6 0 0 0 with recCursor := some 199 }
     s.asks (.manualStep (.int (15 : Nat))) ∧ s.running = false ∧ Microcode.wf s.microcode = true ∧
       s.recCursor = some 199 ∧ legalId 15 = true ∧ ¬ (15 = 5 ∧ s.ir.val < 1000)) ∧
    (let s := asking (.manualStep (.int 5)) { regs 0 0 6 0 1000 0 with recCursor := some 200 }
     s.asks (.manualStep (.int (5 : Nat))) ∧ s.running = false ∧ Microcode.wf s.microcode = true ∧
       s.recCursor = some 200 ∧ legalId 5 = true ∧ ¬ (5 = 5 ∧ s.ir.val < 1000)) ∧
    (let s := asking (.manualStep (.int 19)) { State.reset with recCursor := some 200 }
     s.asks (.manualStep (.int (19 : Nat))) ∧ s.running = false ∧ Microcode.wf s.microcode = true ∧
       s.recCursor = some 200 ∧ legalId 19 = true ∧ ¬ (19 = 5 ∧ s.ir.val < 1000) ∧ s.halted = false) := by decide

theorem witness_GateRefusesWhileRunning :
    (∀ c ∈ [Command.microStep, .macroStep, .resetMachine, .memoryReset, .microcodeReset, .recorderStop, .run (.int 0),
        .manualStep (.int 0), .insertRowAbove (.int 0) true, .deleteRow (.int 0) false, .recorderStart (.int 0) ['A'],
        .recorderRecord (.int 0), .importSnapshot State.reset.snapshot.toRaw, .importRam [], .importMc [],
        .memoryWrite (.int 0) (.int 1), .microcodeWrite (.int 0) (.int 1), .setInstructionName (.int 0) ['A']],
      let s := asking c { State.reset with running := true }
      s.asks c ∧ s.running = true) ∧
    Config.params.hostWrites = .reject ∧
    ({ Config.params with hostWrites := .betweenMacroSteps } : Config.Params).hostWrites = .betweenMacroSteps :=
  ⟨fun _ _ => ⟨⟨rfl, rfl⟩, rfl⟩, rfl, rfl⟩

theorem witness_ReadsChangeNothing :
    let s := asking .readState { State.reset with running := true }
    s.asks .readState ∧
      Command.readState ∈ [Command.memoryRead (.int 0), .microcodeRead (.int 0), .instructionName (.int 0),
        .lastUsedAddress, .readState, .exportSnapshot, .exportRam, .exportMc] := by decide

theorem witness_RunAndStopSwitchRunning :
    (let s := asking (.run (.int 5)) State.reset
     s.asks (.run (.int 5)) ∧ s.running = false) ∧
    (asking .stop { State.reset with running := true }).asks .stop := by decide

theorem witness_TickRunsOneMacroStep :
    (let s := { State.reset.withWords [(0, 1010)] with running := true }
     s.progress = .idle ∧ s.running = true ∧ s.inbox = [] ∧ (after s).progress = .idle ∧ (after s).running = true) ∧
    (let s := ({ State.reset.withWords [(0, 10000)] with running := true }).withInbox [.quiet, .command .stop]
     s.progress = .idle ∧ s.running = true ∧ s.inbox.head? = some .quiet ∧ (after s).halted = true) ∧
    (let s := { (withSlots [(110, 5)] State.reset).withWords [(0, 11000)] with running := true }
     s.progress = .idle ∧ s.running = true ∧ s.inbox = [] ∧ (after s).progress = .tick ∧ (after s).running = true) ∧
    (let s := State.reset.withInbox [.quiet]
     s.progress = .idle ∧ s.running = false ∧ s.inbox.head? = some .quiet) := by decide +kernel

theorem witness_RunOnHaltedMachineChangesNothing :
    let s := asking (.run (.int 0)) { State.reset with halted := true }
    s.progress = .idle ∧ s.inbox = [.command (.run (.int 0))] ∧ s.halted = true ∧ s.running = false := by decide

theorem witness_MemoryPortReadsWritesOrFails :
    (asking (.memoryRead (.int 999)) State.reset).asks (.memoryRead (.int (999 : Nat))) ∧
    ((asking (.memoryRead (.int 1000)) State.reset).asks (.memoryRead (.int 1000)) ∧
      ∀ n : Nat, n < 1000 → HostNum.int 1000 ≠ .int n) ∧
    (let s := asking (.memoryWrite (.int 999) (.int 19999)) State.reset
     s.asks (.memoryWrite (.int (999 : Nat)) (.int (19999 : Nat))) ∧ s.running = false ∧ Memory.wf s.memory = true ∧
       999 < 1000 ∧ 19999 < 20000) ∧
    (let s := asking (.memoryWrite (.int 1000) (.int 20000)) State.reset
     s.asks (.memoryWrite (.int 1000) (.int 20000)) ∧ s.running = false ∧ Memory.wf s.memory = true ∧
       ∀ n : Nat, n < 1000 → HostNum.int 1000 ≠ .int n) ∧
    (let s := asking (.memoryWrite (.int 999) (.int 20000)) State.reset
     s.asks (.memoryWrite (.int 999) (.int 20000)) ∧ s.running = false ∧ Memory.wf s.memory = true ∧
       (∃ n : Nat, n < 1000 ∧ HostNum.int 999 = .int n) ∧ ∀ w : Nat, w < 20000 → HostNum.int 20000 ≠ .int w) := by
  refine ⟨⟨rfl, rfl⟩, ⟨⟨rfl, rfl⟩, ?_⟩, by decide, ⟨⟨rfl, rfl⟩, rfl, rfl, ?_⟩, ⟨rfl, rfl⟩, rfl, rfl,
    ⟨999, by decide, rfl⟩, ?_⟩ <;>
    · intro n hn he
      simp only [HostNum.int.injEq] at he
      omega

/-- 6 is no id that a slot may hold. -/
theorem six_is_illegal (id : Nat) (h : legalId id = true) : HostNum.int 6 ≠ .int id := by
  intro he
  simp only [HostNum.int.injEq] at he
  simp only [legalId, Bool.and_eq_true, decide_eq_true_eq] at h
  omega

theorem witness_MicrocodePortReadsWritesOrFails :
    (asking (.microcodeRead (.int 199)) State.reset).asks (.microcodeRead (.int (199 : Nat))) ∧
    ((asking (.microcodeRead (.int 200)) State.reset).asks (.microcodeRead (.int 200)) ∧
      ∀ n : Nat, n < 200 → HostNum.int 200 ≠ .int n) ∧
    (let s := asking (.microcodeWrite (.int 199) (.int 19)) State.reset
     199 < 200 ∧ s.asks (.microcodeWrite (.int (199 : Nat)) (.int (19 : Nat))) ∧ s.running = false ∧
       Microcode.wf s.microcode = true ∧ legalId 19 = true) ∧
    (let s := asking (.microcodeWrite (.int 200) (.int 6)) State.reset
     s.asks (.microcodeWrite (.int 200) (.int 6)) ∧ s.running = false ∧ Microcode.wf s.microcode = true ∧
       ∀ n : Nat, n < 200 → HostNum.int 200 ≠ .int n) ∧
    (let s := asking (.microcodeWrite (.int 199) (.int 6)) State.reset
     s.asks (.microcodeWrite (.int 199) (.int 6)) ∧ s.running = false ∧ Microcode.wf s.microcode = true ∧
       (∃ n : Nat, n < 200 ∧ HostNum.int 199 = .int n) ∧ ∀ id : Nat, legalId id = true → HostNum.int 6 ≠ .int id) := by
  refine ⟨⟨rfl, rfl⟩, ⟨⟨rfl, rfl⟩, ?_⟩, by decide, ⟨⟨rfl, rfl⟩, rfl, rfl, ?_⟩, ⟨rfl, rfl⟩, rfl, rfl,
    ⟨199, by decide, rfl⟩, six_is_illegal⟩ <;>
    · intro n hn he
      simp only [HostNum.int.injEq] at he
      omega

theorem witness_LastUsedAddressIsTheHighestNonzero :
    let s := asking .lastUsedAddress (State.reset.withWords [(3, 10000), (11, 5)])
    Memory.wf s.memory = true ∧ s.asks .lastUsedAddress := by decide

theorem witness_NamePortReadsWritesOrFails :
    (asking (.instructionName (.int 19)) State.reset).asks (.instructionName (.int (19 : Nat))) ∧
    (let s := asking (.setInstructionName (.int 19) ['A', 'B', 'C', 'D', 'E']) State.reset
     19 < 20 ∧ s.asks (.setInstructionName (.int (19 : Nat)) ['A', 'B', 'C', 'D', 'E']) ∧ s.running = false ∧
       NameTable.wf s.names = true ∧ 1 ≤ ['A', 'B', 'C', 'D', 'E'].length ∧ ['A', 'B', 'C', 'D', 'E'].length ≤ 5) ∧
    (let s := asking (.setInstructionName (.int 20) []) State.reset
     s.asks (.setInstructionName (.int 20) []) ∧ s.running = false ∧ NameTable.wf s.names = true ∧
       ∀ o : Nat, o < 20 → HostNum.int 20 ≠ .int o) ∧
    (let s := asking (.setInstructionName (.int 19) []) State.reset
     s.asks (.setInstructionName (.int 19) []) ∧ s.running = false ∧ NameTable.wf s.names = true ∧
       (∃ o : Nat, o < 20 ∧ HostNum.int 19 = .int o) ∧ ([] : Text).length = 0) ∧
    5 < ['A', 'B', 'C', 'D', 'E', 'F'].length := by
  refine ⟨⟨rfl, rfl⟩, by decide, ⟨⟨rfl, rfl⟩, rfl, rfl, ?_⟩, ⟨⟨rfl, rfl⟩, rfl, rfl, ⟨19, by decide, rfl⟩, rfl⟩, by decide⟩
  intro n hn he
  simp only [HostNum.int.injEq] at he
  omega

theorem witness_StoreResetsRestoreTheirDefaults :
    (asking .memoryReset (State.reset.withWords [(5, 1)])).asks .memoryReset ∧
    (asking .microcodeReset State.reset).asks .microcodeReset ∧ (asking .microcodeReset State.reset).running = false := by
  decide

theorem witness_RowCommandsShiftTheUsedRows :
    (let s := asking (.insertRowAbove (.int 999) true) (State.reset.withWords [(0, 1999), (998, 7)])
     999 < 1000 ∧ s.running = false ∧ Memory.wf s.memory = true ∧ s.asks (.insertRowAbove (.int (999 : Nat)) true) ∧
       s.memRead 999 = 0) ∧
    (let s := asking (.insertRowAbove (.int 0) false) (State.reset.withWords [(999, 7)])
     0 < 1000 ∧ s.running = false ∧ Memory.wf s.memory = true ∧ s.asks (.insertRowAbove (.int (0 : Nat)) false) ∧
       s.memRead 999 ≠ 0) ∧
    (let s := asking (.deleteRow (.int 999) true) (State.reset.withWords [(0, 5), (999, 7)])
     s.running = false ∧ Memory.wf s.memory = true ∧ s.asks (.deleteRow (.int (999 : Nat)) true) ∧
       s.memRead 999 ≠ 0) ∧
    (let s := asking (.deleteRow (.int 0) true) State.reset
     s.running = false ∧ Memory.wf s.memory = true ∧ s.asks (.deleteRow (.int (0 : Nat)) true) ∧
       ∀ y, 0 ≤ y → s.memRead y = 0) ∧
    (∀ c ∈ [Command.insertRowAbove (.int 1000) true, .deleteRow (.int 1000) true],
      let s := asking c State.reset
      s.asks c ∧ s.running = false ∧ Memory.wf s.memory = true ∧ ∀ n : Nat, n < 1000 → HostNum.int 1000 ≠ .int n) := by
  refine ⟨by decide, by decide, by decide, ⟨rfl, rfl, ⟨rfl, rfl⟩, fun _ _ => rfl⟩, fun c _ =>
    ⟨⟨rfl, rfl⟩, rfl, rfl, fun n hn he => ?_⟩⟩
  simp only [HostNum.int.injEq] at he
  omega

theorem witness_InsertThenDeleteRestoresMemory :
    let s := (State.reset.withWords [(0, 5), (1, 6), (998, 7)]).withInbox
      [.command (.insertRowAbove (.int 1) false), .command (.deleteRow (.int 1) false)]
    1 < 1000 ∧ Memory.wf s.memory = true ∧ s.memRead 999 = 0 ∧ s.progress = .idle ∧ s.running = false ∧
      s.inbox = [.command (.insertRowAbove (.int (1 : Nat)) false), .command (.deleteRow (.int (1 : Nat)) false)] := by
  decide

theorem witness_FixUpMovesOperandsFromTheRowOn :
    Memory.wf (State.reset.withWords [(999, 1999)]).memory = true ∧ 999 < 1000 ∧ ((1 : Int) = 1 ∨ (1 : Int) = -1) := by
  decide

theorem witness_RecorderWritesAtItsCursor :
    (let s := asking (.recorderRecord (.int 9)) { State.reset with recCursor := some 199 }
     s.asks (.recorderRecord (.int (9 : Nat))) ∧ s.running = false ∧ Microcode.wf s.microcode = true ∧
       s.recCursor = some 199 ∧ (199 : Cursor).val < 200 ∧ legalId 9 = true) ∧
    (let s := asking (.recorderRecord (.int 6)) { State.reset with recCursor := some 20 }
     s.asks (.recorderRecord (.int 6)) ∧ s.running = false ∧ Microcode.wf s.microcode = true ∧
       s.recCursor = some 20 ∧ ∀ id : Nat, legalId id = true → HostNum.int 6 ≠ .int id) ∧
    (let s := asking (.recorderRecord (.int 9)) { State.reset with recCursor := some 200 }
     s.asks (.recorderRecord (.int 9)) ∧ s.running = false ∧ Microcode.wf s.microcode = true ∧
       s.recCursor = some 200 ∧ (200 : Cursor).val = 200) ∧
    (let s := asking (.recorderRecord (.int 9)) State.reset
     s.asks (.recorderRecord (.int 9)) ∧ s.running = false ∧ Microcode.wf s.microcode = true ∧ s.recCursor = none) :=
  ⟨by decide, ⟨⟨rfl, rfl⟩, rfl, rfl, rfl, six_is_illegal⟩, by decide, by decide⟩

theorem witness_RecorderStartsAndStops :
    (let s := asking (.recorderStart (.int 190) ['Z']) State.reset
     s.asks (.recorderStart (.int (10 * 19 : Nat)) ['Z']) ∧ s.running = false ∧ NameTable.wf s.names = true ∧ 19 < 20 ∧
       1 ≤ ['Z'].length ∧ ['Z'].length ≤ 5) ∧
    (let s := asking (.recorderStart (.int 195) ['Z']) State.reset
     s.asks (.recorderStart (.int 195) ['Z']) ∧ s.running = false ∧ NameTable.wf s.names = true ∧
       ∀ k : Nat, k < 20 → HostNum.int 195 ≠ .int (10 * k : Nat)) ∧
    (let s := asking .recorderStop { State.reset with recCursor := some 114 }
     s.asks .recorderStop ∧ s.running = false) := by
  refine ⟨by decide, ⟨⟨rfl, rfl⟩, rfl, rfl, ?_⟩, by decide⟩
  intro k hk he
  simp only [HostNum.int.injEq] at he
  omega

theorem witness_ImportOfExportCopiesTheStores :
    let s := asking .exportSnapshot (State.reset.withWords [(0, 9006), (999, 1)])
    let u := asking (.importSnapshot s.snapshot.toRaw) State.reset
    Memory.wf s.memory = true ∧ Microcode.wf s.microcode = true ∧ NameTable.wf s.names = true ∧
      s.asks .exportSnapshot ∧ (after s).response = some (.snapshot s.snapshot) ∧
      u.asks (.importSnapshot s.snapshot.toRaw) ∧ u.running = false := by decide +kernel

theorem witness_RamTextCarriesMemory :
    let s := asking .exportRam (State.reset.withWords [(0, 9006)])
    Memory.wf s.memory = true ∧ s.asks .exportRam ∧ step s = .next (after s) ∧
      ∃ ls, (after s).response = some (.lines ls) ∧ (asking (.importRam ls) State.reset).asks (.importRam ls) ∧
        (asking (.importRam ls) State.reset).running = false :=
  ⟨rfl, ⟨rfl, rfl⟩, rfl, _, rfl, ⟨rfl, rfl⟩, rfl⟩

theorem witness_FailedImportsChangeNothing :
    let x : RawSnapshot := { ram := some [.int 20000], microCode := some [], instructionNames := some [] }
    let s := asking (.importSnapshot x) State.reset
    let ls : List Text := [['1']]
    s.asks (.importSnapshot x) ∧ s.running = false ∧ (∃ v ∈ [HostNum.int 20000], ∀ w : Nat, w < 20000 → v ≠ .int w) ∧
      (asking (.importMc ls) State.reset).asks (.importMc ls) ∧ (dataLines ls).length < 200 := by
  refine ⟨⟨rfl, rfl⟩, rfl, ⟨_, List.mem_singleton_self _, fun w hw he => ?_⟩, ⟨rfl, rfl⟩, by decide⟩
  simp only [HostNum.int.injEq] at he
  omega

end Sys2Proof.Tests
end

