-- ==== Sys2Proof/Proofs/Asked.lean ====
section
/-! SUPPORT. The step of an idle machine whose host asks a command: the command is issued, and one that the gate of
R242 lets pass is performed whether or not a run is on. -/

namespace Sys2Proof.Machine

/-- An idle machine takes the command out of its inbox and issues it (R240). -/
theorem step_of_asks {s : State} {c : Command} (h : s.asks c) :
    step s = issue Config.params c (s.clearOutputs.withInbox s.inbox.tail) := by
  obtain ⟨hidle, hhead⟩ := h
  obtain ⟨rest, hinbox⟩ := List.head?_eq_some_iff.mp hhead
  simp [step, stepWith, stepIdle, hidle, hinbox]

/-- A command accepted while Running is performed in every state (R242). -/
theorem issue_of_accepted {p : Config.Params} {c : Command} (h : acceptedWhileRunning p c = true) (s : State) :
    issue p c s = perform p c s := by
  simp [issue, h]

end Sys2Proof.Machine
end

