-- ==== Sys2Proof/Proofs/LastUsed.lean ====
section
/-! SUPPORT. `lastUsed` of a canonical store: the last address listed is the highest address whose element is not the
filler, since the addresses listed rise and no element listed is the filler (R64). -/

namespace Sys2Proof.Machine

section Store

variable {α : Type} [DecidableEq α] (d : α)

omit [DecidableEq α] in
@[simp] theorem Store.lastUsed_nil : Store.lastUsed ([] : Store α) = none := rfl

omit [DecidableEq α] in
@[simp] theorem Store.lastUsed_cons (k : Nat) (v : α) (rest : Store α) :
    Store.lastUsed ((k, v) :: rest) = some ((Store.lastUsed rest).getD k) := by
  cases h : rest.getLast? <;> simp [Store.lastUsed, List.getLast?_cons, h]

omit [DecidableEq α] in
theorem Store.lastUsed_eq_none_iff_nil {m : Store α} : Store.lastUsed m = none ↔ m = [] := by
  simp [Store.lastUsed]

omit [DecidableEq α] in
theorem Store.read_cons_of_lt {k x : Nat} (h : k < x) (v : α) (rest : Store α) :
    Store.read d ((k, v) :: rest) x = Store.read d rest x :=
  if_neg (Nat.ne_of_lt h)

/-- The last address listed holds an element, and every address above it the filler. -/
theorem Store.highest_of_lastUsed {size lo : Nat} {m : Store α} (h : Store.wfFrom d size lo m = true) {a : Nat}
    (ha : Store.lastUsed m = some a) : Store.read d m a ≠ d ∧ ∀ b, a < b → Store.read d m b = d := by
  induction m generalizing lo with
  | nil => simp at ha
  | cons e rest ih =>
    obtain ⟨k, v⟩ := e
    simp only [Store.wfFrom, Bool.and_eq_true, decide_eq_true_eq] at h
    obtain ⟨⟨-, hv⟩, hrest⟩ := h
    rw [Store.lastUsed_cons, Option.some_inj] at ha
    cases hlast : Store.lastUsed rest with
    | none =>
      obtain rfl : k = a := by simpa [hlast] using ha
      obtain rfl := Store.lastUsed_eq_none_iff_nil.mp hlast
      exact ⟨by simpa [Store.read] using hv, fun b hb => Store.read_cons_of_lt d hb v []⟩
    | some a' =>
      obtain rfl : a' = a := by simpa [hlast] using ha
      obtain ⟨hread, habove⟩ := ih hrest hlast
      have hka : k < a' := by
        by_contra hle
        exact hread (Store.read_below d hrest (by omega))
      refine ⟨by rwa [Store.read_cons_of_lt d hka], fun b hb => ?_⟩
      rw [Store.read_cons_of_lt d (hka.trans hb), habove b hb]

/-- A canonical store has no last address exactly when it reads as the filler everywhere. -/
theorem Store.lastUsed_eq_none_iff {size : Nat} {m : Store α} (h : Store.wf d size m = true) :
    Store.lastUsed m = none ↔ ∀ a, Store.read d m a = d := by
  constructor
  · intro hnone a
    rw [Store.lastUsed_eq_none_iff_nil.mp hnone]
    rfl
  · intro hall
    rw [Option.eq_none_iff_forall_ne_some]
    intro a ha
    exact (Store.highest_of_lastUsed d h ha).1 (hall a)

/-- The last address of a canonical store is its highest address that does not hold the filler: there is one such
address at most. -/
theorem Store.lastUsed_eq_some_iff {size : Nat} {m : Store α} (h : Store.wf d size m = true) (a : Nat) :
    Store.lastUsed m = some a ↔ Store.read d m a ≠ d ∧ ∀ b, a < b → Store.read d m b = d := by
  refine ⟨Store.highest_of_lastUsed d h, fun ⟨hread, habove⟩ => ?_⟩
  cases hlast : Store.lastUsed m with
  | none => exact absurd ((Store.lastUsed_eq_none_iff d h).mp hlast a) hread
  | some a' =>
    obtain ⟨hread', habove'⟩ := Store.highest_of_lastUsed d h hlast
    have h₁ : ¬ a < a' := fun hlt => hread' (habove a' hlt)
    have h₂ : ¬ a' < a := fun hlt => hread (habove' a hlt)
    rw [Option.some_inj]
    omega

end Store

/-- The command is accepted in and out of a run, returns the address and leaves the machine as it was (R64, R242). -/
theorem step_of_asks_lastUsedAddress {s : State} (h : s.asks .lastUsedAddress) :
    ∃ t, step s = .next t ∧ t.response = some (.address s.lastUsedAddress) ∧ t.toArch = s.toArch := by
  refine ⟨hostLastUsedAddress (s.clearOutputs.withInbox s.inbox.tail), ?_, rfl, rfl⟩
  rw [step_of_asks h, issue_of_accepted rfl]
  rfl

/-- Settles O50, by the characterisation of `Store.lastUsed` on Memory's canonical form. -/
theorem lastUsedAddressIsTheHighestNonzero : Obligations.LastUsedAddressIsTheHighestNonzero := by
  intro s hwf
  exact ⟨Store.lastUsed_eq_none_iff 0 hwf, Store.lastUsed_eq_some_iff 0 hwf, step_of_asks_lastUsedAddress⟩

end Sys2Proof.Machine
end

