-- ==== Sys2Proof/Proofs/PackIdentity.lean ====
section
/-! SUPPORT. The two fields of a Word as numbers, and the pack identity they give with the laws of `packWord` (R92). -/

namespace Sys2Proof.Machine

/-- The opcode is the quotient by MEMORY_SIZE (R92). -/
theorem opcodeOf_val (w : Word) : (opcodeOf w).val = w.val / 1000 := rfl

/-- The operand is the remainder by MEMORY_SIZE (R92). -/
theorem operandOf_val (w : Word) : (operandOf w).val = w.val % 1000 := rfl

/-- The fields of a Word add up to its value (R92): quotient and remainder do. -/
theorem opcodeOf_mul_add_operandOf (w : Word) : (opcodeOf w).val * 1000 + (operandOf w).val = w.val := by
  rw [opcodeOf_val, operandOf_val]
  exact Nat.div_add_mod' w.val 1000

/-- Settles O3: unpacking a Word and packing its fields are inverse to each other, by the laws of each. -/
theorem packOfUnpackIsIdentity : Obligations.PackOfUnpackIsIdentity := by
  constructor
  · intro w
    exact ⟨opcodeOf_val w, operandOf_val w, opcodeOf_mul_add_operandOf w, packWord_of_fields w⟩
  · intro o a
    exact ⟨packWord_val o a, opcodeOf_packWord o a, operandOf_packWord o a⟩

end Sys2Proof.Machine
end

