-- ==== Sys2Proof/Proofs/HaltedMicroStep.lean ====
section
/-! SUPPORT. `microStep` on a halted machine: the machine's micro-step only reports HaltedNoOp (R121), and the command
then answers Ok, as no fault has answered before it. -/

namespace Sys2Proof.Machine

/-- Outside a run the gate of R242 lets every command pass. -/
theorem issue_of_not_running {s : State} (h : s.running = false) (p : Config.Params) (c : Command) :
    issue p c s = perform p c s := by
  simp [issue, h]

/-- A step that has not answered yet answers Ok. -/
theorem State.answerOk_of_response_none {s : State} (h : s.response = none) : s.answerOk = s.answer .ok := by
  simp [State.answerOk, h]

/-- A halted machine does not look at the slot at `MC`: it reports HaltedNoOp (R121). -/
theorem microStepExec_of_halted {s : State} (h : s.halted = true) : microStepExec s = .next (s.emit .haltedNoOp) := by
  simp [microStepExec, h]

/-- The command on a halted machine reports HaltedNoOp and answers Ok (R121, R122). -/
theorem doMicroStep_of_halted {s : State} (h : s.halted = true) (hr : s.response = none) :
    doMicroStep s = .next ((s.emit .haltedNoOp).answer .ok) := by
  have hanswer : (s.emit .haltedNoOp).answerOk = (s.emit .haltedNoOp).answer .ok :=
    State.answerOk_of_response_none hr
  rw [doMicroStep, microStepExec_of_halted h, andThen_next, hanswer]

/-- Settles O16: the step is the command on the state without the outputs of the step before and without the command,
and every clause reads off what it answers. -/
theorem microStepOnHaltedMachineIsNoOp : Obligations.MicroStepOnHaltedMachineIsNoOp := by
  intro s hasks hhalted hrunning
  have hrun : (s.clearOutputs.withInbox s.inbox.tail).running = false := hrunning
  have hstep : step s = .next (((s.clearOutputs.withInbox s.inbox.tail).emit .haltedNoOp).answer .ok) :=
    calc step s
      _ = issue Config.params .microStep (s.clearOutputs.withInbox s.inbox.tail) := step_of_asks hasks
      _ = doMicroStep (s.clearOutputs.withInbox s.inbox.tail) := issue_of_not_running hrun _ _
      _ = .next (((s.clearOutputs.withInbox s.inbox.tail).emit .haltedNoOp).answer .ok) :=
        doMicroStep_of_halted hhalted rfl
  obtain ⟨hidle, -⟩ := hasks
  exact ⟨_, hstep, rfl, rfl, rfl, rfl, rfl, hidle⟩

end Sys2Proof.Machine
end

