-- ==== Sys2Proof/Proofs/EffectFrame.lean ====
section
/-! SUPPORT. What the effect of a micro-operation leaves unchanged, said once per operation on the state and carried
over the auto-increment of R124, which adds `MC` to the registers written. -/

namespace Sys2Proof.Machine

/-- From `s` to `u` no register but those listed is written, the host's state is untouched (R201), and nothing halts or
faults. -/
structure WritesRegs (written : List Reg) (s u : State) : Prop where
  regs : KeepsRegsBut written s u
  host : KeepsHostState s u
  outcome : KeepsOutcome s u

/-- The frame of the registers, register by register. -/
theorem keepsRegsBut_iff {written : List Reg} {s t : State} :
    KeepsRegsBut written s t ↔ ∀ r, r ∉ written → t.reg r = s.reg r := by
  constructor
  · rintro ⟨hab, hdb, hacc, hpc, hir, hmc⟩ r hr
    cases r <;> simp_all [State.reg]
  · intro h
    have hreg : ∀ r, written.contains r = false → t.reg r = s.reg r := fun r hr => h r (by simpa using hr)
    exact ⟨fun hr => Fin.ext (hreg .ab hr), fun hr => Fin.ext (hreg .db hr), fun hr => Fin.ext (hreg .acc hr),
      fun hr => Fin.ext (hreg .pc hr), fun hr => Fin.ext (hreg .ir hr), fun hr => Fin.ext (hreg .mc hr)⟩

/-- The auto-increment writes `MC` and no other register (R124). -/
theorem State.autoIncrement_reg {r : Reg} (h : r ≠ .mc) (s : State) : s.autoIncrement.reg r = s.reg r := by
  cases r with
  | mc => exact absurd rfl h
  | ab | db | acc | pc | ir => rfl

/-- The auto-increment adds `MC` to the registers an effect writes (R124). -/
theorem WritesRegs.autoIncrement {written : List Reg} {s u : State} (h : WritesRegs written s u) :
    WritesRegs (written ++ [.mc]) s u.autoIncrement where
  regs := keepsRegsBut_iff.mpr fun r hr => by
    simp only [List.mem_append, List.mem_singleton, not_or] at hr
    obtain ⟨hwritten, hmc⟩ := hr
    exact (State.autoIncrement_reg hmc u).trans (keepsRegsBut_iff.mp h.regs r hwritten)
  host := h.host
  outcome := h.outcome

/-- An effect that does not write `MC`, with the auto-increment after it, advances `MC` (R27, R124). -/
theorem WritesRegs.advancesMc {written : List Reg} {s u : State} (h : WritesRegs written s u)
    (hmc : Reg.mc ∉ written) : AdvancesMc s u.autoIncrement := by
  have hkept : u.mc.val = s.mc.val := keepsRegsBut_iff.mp h.regs .mc hmc
  rw [AdvancesMc, ← hkept]
  exact clampSlot_succ_val u.mc

/-- What an effect notifies stays notified after the auto-increment. -/
theorem emits_mem_autoIncrement {e : Event} {s u : State} (h : Emits s u (e ∈ ·)) :
    Emits s u.autoIncrement (e ∈ ·) := by
  obtain ⟨es, hevents, he⟩ := h
  refine ⟨es ++ regEvents .mc 199 ((u.mc.val : Int) + 1), ?_, List.mem_append_left _ he⟩
  rw [State.autoIncrement_spec, hevents, List.append_assoc]

/-- A micro-operation completes if its effect only writes registers other than `MC` and then `MC` counts up. -/
theorem completesWith_of_writesRegs {i : Instr} {written : List Reg} {s u : State} {P : State → Prop}
    (hexec : exec i s = .next u.autoIncrement) (hmc : Reg.mc ∉ written) (hregs : WritesRegs written s u)
    (hmem : KeepsMemory s u) (haccess : u.lastAccessed = s.lastAccessed) (hP : P u.autoIncrement) :
    CompletesWith i s (written ++ [.mc]) (fun t => P t ∧ AdvancesMc s t) :=
  ⟨u.autoIncrement, hexec, ⟨hP, hregs.advancesMc hmc⟩, hregs.autoIncrement.regs, hmem, haccess,
    hregs.autoIncrement.host, hregs.autoIncrement.outcome⟩

theorem State.setAb_writesRegs (s : State) (v : Int) : WritesRegs [.ab] s (s.setAb v) where
  regs := by simp [KeepsRegsBut]
  host := ⟨rfl, rfl, rfl, rfl, rfl, rfl⟩
  outcome := ⟨rfl, rfl, rfl, rfl⟩

theorem State.setDb_writesRegs (s : State) (v : Int) : WritesRegs [.db] s (s.setDb v) where
  regs := by simp [KeepsRegsBut]
  host := ⟨rfl, rfl, rfl, rfl, rfl, rfl⟩
  outcome := ⟨rfl, rfl, rfl, rfl⟩

theorem State.setIr_writesRegs (s : State) (v : Int) : WritesRegs [.ir] s (s.setIr v) where
  regs := by simp [KeepsRegsBut]
  host := ⟨rfl, rfl, rfl, rfl, rfl, rfl⟩
  outcome := ⟨rfl, rfl, rfl, rfl⟩

end Sys2Proof.Machine
end

