-- ==== Sys2Proof/Proofs/Transfer.lean ====
section
/-! SUPPORT. The transfers between registers and Memory (ids 1, 2, 3, 4, 8 and 15): what each executes, what the core's
store and load do to Memory and to the registers, and the statements about them. -/

namespace Sys2Proof.Machine

theorem exec_db2ram (s : State) : exec .db2ram s = .next s.coreStore.autoIncrement := rfl
theorem exec_ram2db (s : State) : exec .ram2db s = .next s.coreLoad.autoIncrement := rfl
theorem exec_db2ir (s : State) : exec .db2ir s = .next (s.setIr s.db.val).autoIncrement := rfl
theorem exec_ir2ab (s : State) : exec .ir2ab s = .next (s.setAb s.irOperand.val).autoIncrement := rfl
theorem exec_pc2ab (s : State) : exec .pc2ab s = .next (s.setAb s.pc.val).autoIncrement := rfl
theorem exec_acc2db (s : State) : exec .acc2db s = .next (s.setDb s.acc.val).autoIncrement := rfl

/-- The core's store writes no register (R150). -/
theorem State.coreStore_writesRegs (s : State) : WritesRegs [] s s.coreStore where
  regs := keepsRegsBut_iff.mpr fun r _ => by cases r <;> rfl
  host := ⟨rfl, rfl, rfl, rfl, rfl, rfl⟩
  outcome := ⟨rfl, rfl, rfl, rfl⟩

/-- The core's load writes `DB` only: the mark of the access is no register (R151). -/
theorem State.coreLoad_writesRegs (s : State) : WritesRegs [.db] s s.coreLoad :=
  have h : WritesRegs [.db] s (s.setDb (s.memRead s.ab.val).val) := s.setDb_writesRegs _
  ⟨h.regs, h.host, h.outcome⟩

/-- The core's store changes the word at `AB` and no other (R70, R150). -/
theorem State.coreStore_storesOnly {s : State} (h : Memory.wf s.memory = true) :
    StoresOnly s.ab.val s.db.val s s.coreStore := by
  have hread : ∀ x, s.coreStore.memRead x = if x = s.ab.val then s.db else s.memRead x :=
    fun x => State.memRead_memWrite h s.ab.val x s.db
  constructor
  · rw [hread, if_pos rfl]
  · intro x hx
    rw [hread, if_neg hx]

/-- The core's store notifies of its address (R150, R280). -/
theorem State.coreStore_emits (s : State) : Emits s s.coreStore (Event.memoryChanged s.ab.val ∈ ·) :=
  ⟨[.memoryChanged s.ab.val], rfl, List.mem_singleton_self _⟩

/-- The core's load puts the word at `AB` into `DB` (R151). -/
theorem State.coreLoad_db (s : State) : s.coreLoad.db = s.memRead s.ab.val := by
  rw [State.coreLoad_spec]

/-- Settles O5: the effect is the core's store, whose facts the auto-increment carries over. -/
theorem storeWritesDataBusAtAddressBus : Obligations.StoreWritesDataBusAtAddressBus := by
  intro s hwf
  have hregs : WritesRegs [] s s.coreStore := s.coreStore_writesRegs
  exact ⟨_, exec_db2ram s, State.coreStore_storesOnly hwf, rfl, hregs.advancesMc List.not_mem_nil,
    emits_mem_autoIncrement s.coreStore_emits, hregs.autoIncrement.regs, hregs.autoIncrement.host,
    hregs.autoIncrement.outcome⟩

/-- Settles O6: the effect is the core's load, whose facts the auto-increment carries over. -/
theorem loadReadsMemoryAtAddressBus : Obligations.LoadReadsMemoryAtAddressBus := by
  intro s
  have hregs : WritesRegs [.db] s s.coreLoad := s.coreLoad_writesRegs
  exact ⟨_, exec_ram2db s, s.coreLoad_db, rfl, hregs.advancesMc (by decide), hregs.autoIncrement.regs, fun _ => rfl,
    hregs.autoIncrement.host, hregs.autoIncrement.outcome⟩

/-- Settles O7: each of the four is one register write, of a value that is in the range of its destination and hence
not clamped. -/
theorem registerTransfersCopyTheirSource : Obligations.RegisterTransfersCopyTheirSource := by
  intro s
  refine ⟨?db2ir, ?ir2ab, ?pc2ab, ?acc2db⟩
  case db2ir =>
    exact completesWith_of_writesRegs (exec_db2ir s) (by decide) (s.setIr_writesRegs _) (fun _ => rfl) rfl
      (s.setIr_word_ir s.db)
  case ir2ab =>
    have hab : (s.setAb s.irOperand.val).ab.val = s.ir.val % 1000 := by
      rw [State.setAb_addr_ab, State.irOperand, operandOf_val]
    exact completesWith_of_writesRegs (exec_ir2ab s) (by decide) (s.setAb_writesRegs _) (fun _ => rfl) rfl hab
  case pc2ab =>
    exact completesWith_of_writesRegs (exec_pc2ab s) (by decide) (s.setAb_writesRegs _) (fun _ => rfl) rfl
      (s.setAb_addr_ab s.pc)
  case acc2db =>
    exact completesWith_of_writesRegs (exec_acc2db s) (by decide) (s.setDb_writesRegs _) (fun _ => rfl) rfl
      (s.setDb_word_db s.acc)

end Sys2Proof.Machine
end

