-- ==== Sys2Proof/Proofs/Alu.lean ====
section
/-! SUPPORT. The accumulator ALU (ids 12, 13, 14, 16, 17 and 18): each id is one write to `ACC` of a result computed
over the integers, so that what a write to `ACC` stores and notifies is said once for all six. -/

namespace Sys2Proof.Machine

theorem exec_acc0 (s : State) : exec .acc0 s = .next (s.setAcc 0).autoIncrement := rfl
theorem exec_plus (s : State) :
    exec .plus s = .next (s.setAcc ((s.acc.val : Int) + (s.db.val : Int))).autoIncrement := rfl
theorem exec_minus (s : State) :
    exec .minus s = .next (s.setAcc ((s.acc.val : Int) - (s.db.val : Int))).autoIncrement := rfl
theorem exec_accinc (s : State) : exec .accinc s = .next (s.setAcc ((s.acc.val : Int) + 1)).autoIncrement := rfl
theorem exec_accdec (s : State) : exec .accdec s = .next (s.setAcc ((s.acc.val : Int) - 1)).autoIncrement := rfl
theorem exec_db2acc (s : State) : exec .db2acc s = .next (s.setAcc s.db.val).autoIncrement := rfl

/-- A value not above the range of a Word is clamped at 0 only (R177). -/
theorem clampWord_val_of_le {v : Int} (h : v ≤ 19999) : ((clampWord v).val : Int) = max v 0 := by
  rw [clampWord_val]
  omega

theorem State.setAcc_writesRegs (s : State) (v : Int) : WritesRegs [.acc] s (s.setAcc v) where
  regs := by simp [KeepsRegsBut]
  host := ⟨rfl, rfl, rfl, rfl, rfl, rfl⟩
  outcome := ⟨rfl, rfl, rfl, rfl⟩

/-- The auto-increment after a register write may notify of a clamped `MC`, but of a clamp of the register written only
the write itself does, exactly when its value was outside the range (R27, R124). -/
theorem emits_normalized_autoIncrement {r : Reg} {top v : Int} {s u : State} (hr : r ≠ .mc)
    (hevents : u.events = s.events ++ regEvents r top v) :
    Emits s u.autoIncrement (fun es => Event.normalized r ∈ es ↔ v < 0 ∨ top < v) := by
  refine ⟨regEvents r top v ++ regEvents .mc 199 ((u.mc.val : Int) + 1), ?_, ?_⟩
  · rw [State.autoIncrement_spec, hevents, List.append_assoc]
  · simp [normalized_mem_regEvents, hr]

/-- An id whose effect is the write of `v` to `ACC` completes: `ACC` is `v` clamped, and what is claimed of the
notifications may rest on `Normalized(ACC)` being emitted exactly when `v` is out of range (R176, R177). -/
theorem completesWith_of_setAcc {i : Instr} {s : State} {v : Int} {P : State → Prop} {Notified : List Event → Prop}
    (hexec : exec i s = .next (s.setAcc v).autoIncrement) (hP : P (s.setAcc v).autoIncrement)
    (hnotified : ∀ es, (Event.normalized .acc ∈ es ↔ v < 0 ∨ 19999 < v) → Notified es) :
    CompletesWith i s [.acc, .mc] (fun t => P t ∧ AdvancesMc s t ∧ Emits s t Notified) := by
  obtain ⟨es, hevents, hiff⟩ := emits_normalized_autoIncrement (by decide) (s.setAcc_events v)
  have hemits : Emits s (s.setAcc v).autoIncrement Notified := ⟨es, hevents, hnotified es hiff⟩
  obtain ⟨t, ht, ⟨⟨hPt, hemitsT⟩, hmc⟩, hframe⟩ :=
    completesWith_of_writesRegs (P := fun t => P t ∧ Emits s t Notified) hexec (by decide) (s.setAcc_writesRegs v)
      (fun _ => rfl) rfl ⟨hP, hemits⟩
  exact ⟨t, ht, ⟨hPt, hmc, hemitsT⟩, hframe⟩

/-- Settles O8: each of the six is one write to `ACC`, so that what is left is when its value is outside 0 to 19999: a
sum only above, a difference only below, 0 and `DB` never. -/
theorem accumulatorArithmeticSaturates : Obligations.AccumulatorArithmeticSaturates := by
  intro s
  refine ⟨?acc0, ?plus, ?minus, ?accinc, ?accdec, ?db2acc⟩
  case acc0 =>
    exact completesWith_of_setAcc (exec_acc0 s) clampWord_zero fun _ hiff => mt hiff.mp (by decide)
  case plus =>
    exact completesWith_of_setAcc (exec_plus s) (clampWord_add_val s.acc s.db) fun _ hiff => hiff.trans (by omega)
  case minus =>
    exact completesWith_of_setAcc (exec_minus s) (clampWord_val_of_le (by omega)) fun _ hiff => hiff.trans (by omega)
  case accinc =>
    exact completesWith_of_setAcc (exec_accinc s) (clampWord_succ_val s.acc) fun _ hiff => hiff.trans (by omega)
  case accdec =>
    exact completesWith_of_setAcc (exec_accdec s) (clampWord_val_of_le (by omega)) fun _ hiff => hiff.trans (by omega)
  case db2acc =>
    exact completesWith_of_setAcc (exec_db2acc s) (s.setAcc_word_acc s.db) fun _ hiff => mt hiff.mp (by omega)

end Sys2Proof.Machine
end

