-- ==== Sys2Proof/Proofs/Sequencing.lean ====
section
/-! SUPPORT. The sequencing ids that move `PC` (9, 10 and 11) and the one that clears `MC` (7): what each executes, the
count of `PC`, and the statements about them. -/

namespace Sys2Proof.Machine

theorem exec_mc0 (s : State) : exec .mc0 s = .next (s.setMc 0) := rfl
theorem exec_pcinc (s : State) : exec .pcinc s = .next (s.setPc ((s.pc.val : Int) + 1)).autoIncrement := rfl
theorem exec_ir2pc (s : State) : exec .ir2pc s = .next (s.setPc s.irOperand.val).autoIncrement := rfl

/-- Id 10 on a zero accumulator counts `PC` up as id 9 does (R197). -/
theorem exec_skipz_of_acc_zero {s : State} (h : s.acc.val = 0) :
    exec .skipz s = .next (s.setPc ((s.pc.val : Int) + 1)).autoIncrement := by
  have hacc : s.acc = 0 := Fin.ext h
  simp [exec, execSkipz, effSkipz, State.accIsZero, hacc]

/-- Id 10 on any other accumulator is the auto-increment alone (R197). -/
theorem exec_skipz_of_acc_ne_zero {s : State} (h : s.acc.val ≠ 0) : exec .skipz s = .next s.autoIncrement := by
  have hacc : s.acc ≠ 0 := fun heq => h (congrArg Fin.val heq)
  simp [exec, execSkipz, effSkipz, State.accIsZero, hacc]

/-- Leaving the state as it is writes no register, whichever ones may be written. -/
theorem WritesRegs.refl (written : List Reg) (s : State) : WritesRegs written s s where
  regs := keepsRegsBut_iff.mpr fun _ _ => rfl
  host := ⟨rfl, rfl, rfl, rfl, rfl, rfl⟩
  outcome := ⟨rfl, rfl, rfl, rfl⟩

theorem State.setPc_writesRegs (s : State) (v : Int) : WritesRegs [.pc] s (s.setPc v) where
  regs := by simp [KeepsRegsBut]
  host := ⟨rfl, rfl, rfl, rfl, rfl, rfl⟩
  outcome := ⟨rfl, rfl, rfl, rfl⟩

theorem State.setMc_writesRegs (s : State) (v : Int) : WritesRegs [.mc] s (s.setMc v) where
  regs := by simp [KeepsRegsBut]
  host := ⟨rfl, rfl, rfl, rfl, rfl, rfl⟩
  outcome := ⟨rfl, rfl, rfl, rfl⟩

/-- The auto-increment alone notifies of no clamp but one of `MC` (R27, R124). -/
theorem State.autoIncrement_emits_not_normalized {r : Reg} (hr : r ≠ .mc) (s : State) :
    Emits s s.autoIncrement (Event.normalized r ∉ ·) :=
  ⟨regEvents .mc 199 ((s.mc.val : Int) + 1), rfl, fun hmem => hr ((normalized_mem_regEvents _ _ _ _).mp hmem).1⟩

/-- What may be claimed of the notifications follows from what is known of them. -/
theorem Emits.imp {s t : State} {P Q : List Event → Prop} (h : Emits s t P) (hPQ : ∀ es, P es → Q es) :
    Emits s t Q := by
  obtain ⟨es, hevents, hP⟩ := h
  exact ⟨es, hevents, hPQ es hP⟩

/-- Counting `PC` up is notified as a clamp exactly where `PC` was 999 already (R196). -/
theorem State.setPc_succ_emits (s : State) :
    Emits s (s.setPc ((s.pc.val : Int) + 1)).autoIncrement
      (fun es => Event.normalized .pc ∈ es ↔ s.pc.val = 999) :=
  (emits_normalized_autoIncrement (by decide) (s.setPc_events _)).imp fun _ hiff => hiff.trans (by omega)

/-- A micro-operation whose effect writes `PC` at most, and then advances `MC`, completes with what is claimed of its
`PC` and of its notifications. -/
theorem completesWith_of_writesPc {i : Instr} {s u : State} {P : State → Prop} {Notified : List Event → Prop}
    (hexec : exec i s = .next u.autoIncrement) (hregs : WritesRegs [.pc] s u) (hmem : KeepsMemory s u)
    (haccess : u.lastAccessed = s.lastAccessed) (hP : P u.autoIncrement)
    (hemits : Emits s u.autoIncrement Notified) :
    CompletesWith i s [.pc, .mc] (fun t => P t ∧ AdvancesMc s t ∧ Emits s t Notified) := by
  obtain ⟨t, ht, ⟨⟨hPt, hemitsT⟩, hmc⟩, hframe⟩ :=
    completesWith_of_writesRegs (P := fun t => P t ∧ Emits s t Notified) hexec (by decide) hregs hmem haccess
      ⟨hP, hemits⟩
  exact ⟨t, ht, ⟨hPt, hmc, hemitsT⟩, hframe⟩

/-- Id 10, by what the accumulator holds: the count of id 9 on 0, and nothing but the auto-increment otherwise
(R197). -/
theorem State.skipz_completes (s : State) :
    CompletesWith .skipz s [.pc, .mc] (fun t =>
      t.pc.val = (if s.acc.val = 0 then min (s.pc.val + 1) 999 else s.pc.val) ∧ AdvancesMc s t ∧
      Emits s t (fun es => Event.normalized .pc ∈ es ↔ s.acc.val = 0 ∧ s.pc.val = 999)) := by
  by_cases hacc : s.acc.val = 0
  · have hpc : (clampAddr ((s.pc.val : Int) + 1)).val =
        if s.acc.val = 0 then min (s.pc.val + 1) 999 else s.pc.val := by
      rw [if_pos hacc, clampAddr_succ_val]
    exact completesWith_of_writesPc (exec_skipz_of_acc_zero hacc) (s.setPc_writesRegs _) (fun _ => rfl) rfl hpc
      (s.setPc_succ_emits.imp fun _ hiff => hiff.trans (and_iff_right hacc).symm)
  · exact completesWith_of_writesPc (exec_skipz_of_acc_ne_zero hacc) (.refl _ s) (fun _ => rfl) rfl (if_neg hacc).symm
      ((s.autoIncrement_emits_not_normalized (by decide)).imp fun _ hnot =>
        iff_of_false hnot fun hboth => hacc hboth.1)

/-- Settles O9: id 9 is one count of `PC`, id 10 the same count or none, and id 11 one write of an operand, which is in
the range of `PC`. -/
theorem programCounterMovesAsStated : Obligations.ProgramCounterMovesAsStated := by
  intro s
  refine ⟨?pcinc, s.skipz_completes, ?ir2pc⟩
  case pcinc =>
    exact completesWith_of_writesPc (exec_pcinc s) (s.setPc_writesRegs _) (fun _ => rfl) rfl
      (clampAddr_succ_val s.pc) s.setPc_succ_emits
  case ir2pc =>
    have hpc : (s.setPc s.irOperand.val).pc.val = s.ir.val % 1000 := by
      rw [State.setPc_addr_pc, State.irOperand, operandOf_val]
    exact completesWith_of_writesRegs (exec_ir2pc s) (by decide) (s.setPc_writesRegs _) (fun _ => rfl) rfl hpc

/-- Settles O10: the effect is one write of 0 to `MC`, and no auto-increment comes after it. -/
theorem endOfInstructionClearsMicroCodeCounter : Obligations.EndOfInstructionClearsMicroCodeCounter := by
  intro s
  have hregs : WritesRegs [.mc] s (s.setMc 0) := s.setMc_writesRegs 0
  exact ⟨_, exec_mc0 s, clampSlot_zero, hregs.regs, fun _ => rfl, rfl, hregs.host, hregs.outcome⟩

end Sys2Proof.Machine
end

