-- ==== Sys2Proof/Proofs/Decoding.lean ====
section
/-! SUPPORT. The two levels of the encoding: an instruction is the one of an id, or the one `wordInstr` gives an opcode
and an operand; what each encodes to and decodes from is said once per level (R91, R95). -/

namespace Sys2Proof.Machine

/-- An id that decodes is below 20, and is the encoding of its instruction, which is well formed (R95, R96). -/
theorem decodeSlot_ok {id : Nat} {i : Instr} (h : decodeSlot id = .ok i) :
    id < 20 ∧ i.wellFormed = true ∧ encode i = .slot id := by
  have hid : id < 20 := by
    by_contra hge
    obtain ⟨n, rfl⟩ := Nat.exists_eq_add_of_le (not_lt.mp hge)
    simp [Nat.add_comm 20 n, decodeSlot] at h
  interval_cases id <;> cases h <;> exact ⟨by decide, rfl, rfl⟩

/-- Every id below 20 decodes (R96). -/
theorem exists_decodeSlot {id : Nat} (h : id < 20) : ∃ i, decodeSlot id = .ok i := by
  interval_cases id <;> exact ⟨_, rfl⟩

/-- An instruction is the one a micro-operation id decodes to, or the one of an opcode with an operand (R100). -/
theorem micro_or_wordInstr (i : Instr) :
    (∃ id, decodeSlot id = .ok i ∧ encode i = .slot id) ∨ ∃ k a, i = wordInstr k a := by
  cases i with
  | nop0 | db2ram | ram2db | db2ir | ir2ab | ir2mc | reserved6 | mc0 | pc2ab | pcinc | skipz | ir2pc | acc0 | plus
  | minus | acc2db | accinc | accdec | db2acc | halt => exact .inl ⟨_, rfl, rfl⟩
  | fetch a => exact .inr ⟨0, a, rfl⟩
  | take a => exact .inr ⟨1, a, rfl⟩
  | add a => exact .inr ⟨2, a, rfl⟩
  | sub a => exact .inr ⟨3, a, rfl⟩
  | save a => exact .inr ⟨4, a, rfl⟩
  | jmp a => exact .inr ⟨5, a, rfl⟩
  | tst a => exact .inr ⟨6, a, rfl⟩
  | inc a => exact .inr ⟨7, a, rfl⟩
  | dec a => exact .inr ⟨8, a, rfl⟩
  | null a => exact .inr ⟨9, a, rfl⟩
  | hlt a => exact .inr ⟨10, a, rfl⟩
  | op11 a => exact .inr ⟨11, a, rfl⟩
  | op12 a => exact .inr ⟨12, a, rfl⟩
  | op13 a => exact .inr ⟨13, a, rfl⟩
  | op14 a => exact .inr ⟨14, a, rfl⟩
  | op15 a => exact .inr ⟨15, a, rfl⟩
  | op16 a => exact .inr ⟨16, a, rfl⟩
  | op17 a => exact .inr ⟨17, a, rfl⟩
  | op18 a => exact .inr ⟨18, a, rfl⟩
  | op19 a => exact .inr ⟨19, a, rfl⟩

/-- The number an opcode and an operand encode to (R92). -/
theorem encode_wordInstr (k : Opcode) (a : Nat) : encode (wordInstr k a) = .word (k.val * 1000 + a) := by
  obtain ⟨k, hk⟩ := k
  simp only
  interval_cases k
  · simp [wordInstr, encode]
  all_goals rfl

theorem operand_wordInstr (k : Opcode) (a : Nat) : (wordInstr k a).operand = some a := by
  obtain ⟨k, hk⟩ := k
  interval_cases k <;> rfl

/-- Well-formedness is the bound of the operand (R91). -/
theorem wellFormed_wordInstr {k : Opcode} {a : Nat} : (wordInstr k a).wellFormed = true ↔ a < 1000 := by
  simp [Instr.wellFormed, operand_wordInstr]

/-- A number decodes to what its digits say exactly where it is a Word (R91, R94). -/
theorem decodeWord_ok {w : Nat} {i : Instr} : decodeWord w = .ok i ↔ ∃ h : w < 20000, i = instrOfWord ⟨w, h⟩ := by
  unfold decodeWord
  split
  case isTrue h => simp [h, eq_comm]
  case isFalse h => simp [h]

/-- The opcode and the operand are the digits of the Word they make (R91, R92). -/
theorem instrOfWord_packWord (k : Opcode) (a : Addr) : instrOfWord (packWord k a) = wordInstr k a.val := by
  rw [instrOfWord, opcodeOf_packWord, operandOf_packWord]

/-- Decoding undoes the encoding of an opcode with an operand of three digits (R92). -/
theorem decode_encode_wordInstr (k : Opcode) {a : Nat} (ha : a < 1000) :
    decode (encode (wordInstr k a)) = .ok (wordInstr k a) := by
  have hw : k.val * 1000 + a < 20000 := by omega
  rw [encode_wordInstr]
  exact decodeWord_ok.mpr ⟨hw, (instrOfWord_packWord k ⟨a, ha⟩).symm⟩

/-- What a Word decodes to is well formed and encodes to the Word (R92, R94). -/
theorem encode_instrOfWord (w : Word) : (instrOfWord w).wellFormed = true ∧ encode (instrOfWord w) = .word w.val := by
  rw [instrOfWord, encode_wordInstr, wellFormed_wordInstr, opcodeOf_mul_add_operandOf]
  exact ⟨(operandOf w).isLt, rfl⟩

/-- Settles O1, by the two levels of the encoding: an id decodes to its instruction, and unpacking undoes packing. -/
theorem decodeOfEncodeIsIdentity : Obligations.DecodeOfEncodeIsIdentity := by
  intro i hwf
  rcases micro_or_wordInstr i with ⟨id, hdecode, hencode⟩ | ⟨k, a, rfl⟩
  · rw [hencode]
    exact hdecode
  · exact decode_encode_wordInstr k (wellFormed_wordInstr.mp hwf)

/-- Settles O2: of each level, what decodes encodes back, and the range of the numbers that decode. -/
theorem decodingIsUnambiguousAndTotal : Obligations.DecodingIsUnambiguousAndTotal := by
  refine ⟨?unambiguous, fun id => ⟨?idBound, exists_decodeSlot⟩, fun w => ⟨?wordBound, ?wordDecodes⟩⟩
  case unambiguous =>
    intro e i h
    cases e with
    | slot id => exact (decodeSlot_ok h).2
    | word w =>
      obtain ⟨hw, rfl⟩ := decodeWord_ok.mp h
      exact encode_instrOfWord ⟨w, hw⟩
  case idBound =>
    rintro ⟨i, h⟩
    exact (decodeSlot_ok h).1
  case wordBound =>
    rintro ⟨i, h⟩
    exact (decodeWord_ok.mp h).1
  case wordDecodes =>
    intro hw
    exact ⟨_, decodeWord_ok.mpr ⟨hw, rfl⟩⟩

/-- Settles O4: the decoder reads off the digits of the Words and ids written out. -/
theorem decoderReadsTheSpecsWords : Obligations.DecoderReadsTheSpecsWords :=
  ⟨rfl, rfl, rfl, rfl, rfl, rfl, rfl, rfl, rfl, rfl, rfl, rfl⟩

end Sys2Proof.Machine
end

