-- ==== Sys2Proof/Proofs/MicroOutcome.lean ====
section
/-! SUPPORT. What a micro-step makes of the id in its slot on a machine that is not halted, said once: the decoder with
`exec` and the procedure of R123 are the same function of the id, and five things can come of it. -/

namespace Sys2Proof.Machine

/-- What R123 does with an id once the machine is known not to be halted. -/
def runId (id : Nat) (s : State) : State :=
  if legalId id = false ∨ id = 0 then s.takeFault (.invalidMicroOp (.int id) s.mc)
  else if increments id then (effect id s).autoIncrement
  else effect id s

/-- The micro-step of R123 on a machine that is not halted is that of the id in its slot. -/
theorem microStep_eq_runId {s : State} (h : s.halted = false) : microStep s = runId s.slotId s := by
  unfold microStep runId
  by_cases hlegal : legalId s.slotId = false
  · simp [h, hlegal]
  · by_cases hzero : s.slotId = 0
    · simp [h, hzero, legalId]
    · by_cases hfetch : s.slotId = 5 ∧ s.irOpcode = 0
      · obtain ⟨hfive, hopcode⟩ := hfetch
        simp [h, hfive, hopcode, legalId, increments, effect, effIr2mc]
      · simp [h, hlegal, hzero, hfetch]

/-- The meaning of a decoded id is the procedure of R123 on it (R95, R96). -/
theorem exec_of_decodeSlot {id : Nat} {i : Instr} (h : decodeSlot id = .ok i) (s : State) :
    exec i s = .next (runId id s) := by
  have hid : id < 20 := (decodeSlot_ok h).1
  interval_cases id <;> cases h <;> rfl

/-- Ids below 20 decode, and all others are outside the dispatch table (R96). -/
theorem legalId_of_decodeSlot_error {id : Nat} {e : DecodeError} (h : decodeSlot id = .error e) :
    legalId id = false := by
  by_contra hlegal
  simp only [Bool.not_eq_false, legalId, Bool.and_eq_true, decide_eq_true_eq] at hlegal
  obtain ⟨hlt, -⟩ := hlegal
  obtain ⟨i, hi⟩ := exists_decodeSlot hlt
  rw [h] at hi
  cases hi

/-- The machine's micro-step is the procedure of R123 (R122, R123). -/
theorem microStepExec_eq (s : State) : microStepExec s = .next (microStep s) := by
  cases hh : s.halted with
  | true => rw [microStepExec_of_halted hh, microStep_halted hh]
  | false =>
    rw [microStep_eq_runId hh]
    cases hd : decodeSlot s.slotId with
    | ok i => simp [microStepExec, hh, hd, exec_of_decodeSlot hd]
    | error e => simp [microStepExec, hh, hd, runId, legalId_of_decodeSlot_error hd]

/-- Settles O15. -/
theorem microStepIsTheSpecsProcedure : Obligations.MicroStepIsTheSpecsProcedure := microStepExec_eq

/-- The five things that can come of an id: a fault, the effect with the auto-increment, the jump of id 5, the return of
id 7, the halt of id 19 (R96, R124). -/
inductive MicroOutcome (id : Nat) (s : State) : State → Prop where
  | fault (f : ExecFault) : MicroOutcome id s (s.takeFault f)
  | counted (h : increments id = true) : MicroOutcome id s (effect id s).autoIncrement
  | dispatched (h : id = 5) (hopcode : s.irOpcode ≠ 0) : MicroOutcome id s (s.setMc s.dispatchTarget)
  | returned (h : id = 7) : MicroOutcome id s (s.setMc 0)
  | halted (h : id = 19) : MicroOutcome id s (s.halt .halt)

theorem effIr2mc_of_opcode_zero {s : State} (h : s.irOpcode = 0) :
    effIr2mc s = s.takeFault (.fetchFault s.ir s.pc s.mc) := if_pos h

theorem effIr2mc_of_opcode_ne_zero {s : State} (h : s.irOpcode ≠ 0) : effIr2mc s = s.setMc s.dispatchTarget := if_neg h

/-- The ids of the dispatch table that do not count `MC` up (R96, R124). -/
theorem increments_or {id : Nat} (h : legalId id = true) :
    increments id = true ∨ id = 0 ∨ id = 5 ∨ id = 7 ∨ id = 19 := by
  by_cases hid : id = 0 ∨ id = 5 ∨ id = 7 ∨ id = 19
  · exact .inr hid
  · simp only [not_or] at hid
    exact .inl (by simp [increments, h, hid])

theorem runId_outcome (id : Nat) (s : State) : MicroOutcome id s (runId id s) := by
  unfold runId
  split
  case isTrue => exact .fault _
  case isFalse hid =>
    simp only [not_or, Bool.not_eq_false] at hid
    obtain ⟨hlegal, hzero⟩ := hid
    split
    case isTrue hinc => exact .counted hinc
    case isFalse hinc =>
      rcases increments_or hlegal with h | rfl | rfl | rfl | rfl
      · exact absurd h hinc
      · exact absurd rfl hzero
      · change MicroOutcome 5 s (effIr2mc s)
        by_cases hopcode : s.irOpcode = 0
        · rw [effIr2mc_of_opcode_zero hopcode]
          exact .fault _
        · rw [effIr2mc_of_opcode_ne_zero hopcode]
          exact .dispatched rfl hopcode
      · exact .returned rfl
      · exact .halted rfl

/-- All a micro-step can do: report that the machine is halted, or what comes of the id in its slot (R121, R123). -/
theorem microStep_outcome (s : State) :
    (s.halted = true ∧ microStep s = s.emit .haltedNoOp) ∨
    (s.halted = false ∧ MicroOutcome s.slotId s (microStep s)) := by
  cases h : s.halted with
  | true => exact .inl ⟨rfl, microStep_halted h⟩
  | false => exact .inr ⟨rfl, microStep_eq_runId h ▸ runId_outcome _ s⟩

/-- The opcode is 0 exactly below 1000 (R91, R99). -/
theorem State.irOpcode_eq_zero_iff (s : State) : s.irOpcode = 0 ↔ s.ir.val < 1000 := by
  rw [← Fin.val_inj, State.irOpcode, opcodeOf_val, Fin.val_zero]
  omega

/-- The slot id 5 jumps to is inside Microcode (R97, R193). -/
theorem State.dispatchTarget_mc (s : State) : (s.setMc s.dispatchTarget).mc.val = s.ir.val / 1000 * 10 := by
  have htarget : s.dispatchTarget = s.ir.val / 1000 * 10 := rfl
  rw [State.setMc_mc, htarget]
  exact clampSlot_of_lt (by omega)

theorem exec_ir2mc_of_opcode_zero {s : State} (h : s.irOpcode = 0) :
    exec .ir2mc s = .next (s.takeFault (.fetchFault s.ir s.pc s.mc)) :=
  congrArg Host.Outcome.next (effIr2mc_of_opcode_zero h)

theorem exec_ir2mc_of_opcode_ne_zero {s : State} (h : s.irOpcode ≠ 0) :
    exec .ir2mc s = .next (s.setMc s.dispatchTarget) :=
  congrArg Host.Outcome.next (effIr2mc_of_opcode_ne_zero h)

/-- Settles O11: the opcode decides between the jump, whose target is inside Microcode, and the fault. -/
theorem dispatchJumpsToTheOpcodesBlock : Obligations.DispatchJumpsToTheOpcodesBlock := by
  intro s
  refine ⟨fun hir => ?jump, fun hir => ?fetchFault⟩
  case jump =>
    have hopcode : s.irOpcode ≠ 0 := mt s.irOpcode_eq_zero_iff.mp (by omega)
    have hregs : WritesRegs [.mc] s (s.setMc s.dispatchTarget) := s.setMc_writesRegs _
    exact ⟨_, exec_ir2mc_of_opcode_ne_zero hopcode, s.dispatchTarget_mc, hregs.regs, fun _ => rfl, rfl,
      hregs.host, hregs.outcome⟩
  case fetchFault =>
    exact ⟨_, exec_ir2mc_of_opcode_zero (s.irOpcode_eq_zero_iff.mpr hir), s.takeFault_spec _⟩

/-- All that setting Halted can do (R199). -/
theorem State.halt_spec (s : State) (e : Ending) :
    Halts e s (s.halt e) ∧ KeepsRegsBut [] s (s.halt e) ∧ KeepsMemory s (s.halt e) ∧ KeepsHostState s (s.halt e) := by
  simp [Halts, KeepsRegsBut, KeepsMemory, KeepsHostState]

/-- Settles O12: the effect is setting Halted, and no auto-increment comes after it. -/
theorem haltSetsHaltedAndNothingElse : Obligations.HaltSetsHaltedAndNothingElse := by
  intro s
  obtain ⟨hhalts, hregs, hmem, hhost⟩ := s.halt_spec .halt
  exact ⟨s.halt .halt, rfl, hhalts, ⟨[.haltChanged true], rfl, List.mem_singleton_self _⟩, rfl, rfl, hregs, hmem, rfl,
    hhost⟩

/-- Settles O33: each of the three causes makes the micro-step the taking of its fault. -/
theorem faultingMicroStepIsPrecise : Obligations.FaultingMicroStepIsPrecise := by
  intro s
  refine ⟨⟨_, rfl, s.takeFault_spec _⟩, ⟨_, rfl, s.takeFault_spec _⟩, fun hh => ⟨fun hillegal => ?_, fun hzero => ?_,
    fun hfive hir => ?_⟩⟩
  · rw [microStep_illegal hh hillegal]
    exact s.takeFault_spec _
  · rw [microStep_nop0 hh hzero]
    exact s.takeFault_spec _
  · rw [microStep_ir2mc hh hfive, effIr2mc_of_opcode_zero (s.irOpcode_eq_zero_iff.mpr hir)]
    exact s.takeFault_spec _

end Sys2Proof.Machine
end

