-- ==== Sys2Proof/Proofs/EffectRows.lean ====
section
/-! SUPPORT. The row of the matrix of R24 for every id that counts `MC` up: what its effect may write and notify, said
once for all of them, and the statements on a micro-step that follow from it and from the five outcomes. -/

namespace Sys2Proof.Machine

/-- What the effect of an id that increments leaves alone (the matrix of R24), and that it notifies of no clamp of
`MC`. -/
structure RowFrame (id : Nat) (s u : State) : Prop where
  regs : ∃ written, writtenBy id = written ++ [.mc] ∧ Reg.mc ∉ written ∧ WritesRegs written s u
  memory : id ≠ 1 → u.memory = s.memory
  memoryWf : Memory.wf s.memory = true → Memory.wf u.memory = true
  lastAccessed : id ≠ 1 → id ≠ 2 → u.lastAccessed = s.lastAccessed
  events : Emits s u (Event.normalized .mc ∉ ·)

/-- An effect that is one write to a register other than `MC` meets the row of that register. -/
theorem RowFrame.of_write {id : Nat} {r : Reg} {top v : Int} {s u : State} (hrow : writtenBy id = [r] ++ [.mc])
    (hr : r ≠ .mc) (hregs : WritesRegs [r] s u) (hmem : u.memory = s.memory)
    (haccess : id ≠ 2 → u.lastAccessed = s.lastAccessed) (hevents : u.events = s.events ++ regEvents r top v) :
    RowFrame id s u where
  regs := ⟨[r], hrow, by simpa using hr.symm, hregs⟩
  memory := fun _ => hmem
  memoryWf := fun h => hmem ▸ h
  lastAccessed := fun _ => haccess
  events := ⟨_, hevents, fun h => hr ((normalized_mem_regEvents _ _ _ _).mp h).1.symm⟩

theorem State.setAb_rowFrame {id : Nat} (h : writtenBy id = [.ab, .mc]) (s : State) (v : Int) :
    RowFrame id s (s.setAb v) :=
  .of_write h (by decide) (s.setAb_writesRegs v) rfl (fun _ => rfl) rfl

theorem State.setDb_rowFrame {id : Nat} (h : writtenBy id = [.db, .mc]) (s : State) (v : Int) :
    RowFrame id s (s.setDb v) :=
  .of_write h (by decide) (s.setDb_writesRegs v) rfl (fun _ => rfl) rfl

theorem State.setAcc_rowFrame {id : Nat} (h : writtenBy id = [.acc, .mc]) (s : State) (v : Int) :
    RowFrame id s (s.setAcc v) :=
  .of_write h (by decide) (s.setAcc_writesRegs v) rfl (fun _ => rfl) rfl

theorem State.setPc_rowFrame {id : Nat} (h : writtenBy id = [.pc, .mc]) (s : State) (v : Int) :
    RowFrame id s (s.setPc v) :=
  .of_write h (by decide) (s.setPc_writesRegs v) rfl (fun _ => rfl) rfl

theorem State.setIr_rowFrame {id : Nat} (h : writtenBy id = [.ir, .mc]) (s : State) (v : Int) :
    RowFrame id s (s.setIr v) :=
  .of_write h (by decide) (s.setIr_writesRegs v) rfl (fun _ => rfl) rfl

theorem State.coreStore_rowFrame (s : State) : RowFrame 1 s s.coreStore where
  regs := ⟨[], rfl, List.not_mem_nil, s.coreStore_writesRegs⟩
  memory := fun h => absurd rfl h
  memoryWf := State.coreStore_wf
  lastAccessed := fun h => absurd rfl h
  events := ⟨[.memoryChanged s.ab.val], rfl, by simp⟩

theorem State.coreLoad_rowFrame (s : State) : RowFrame 2 s s.coreLoad :=
  .of_write rfl (by decide) s.coreLoad_writesRegs rfl (fun h => absurd rfl h) rfl

theorem effSkipz_rowFrame (s : State) : RowFrame 10 s (effSkipz s) := by
  unfold effSkipz
  split
  · exact s.setPc_rowFrame rfl _
  · exact ⟨⟨[.pc], rfl, by decide, .refl _ s⟩, fun _ => rfl, fun h => h, fun _ _ => rfl, [], by simp, by simp⟩

/-- The ids whose row of the dispatch table says `increment: true`, one by one (R96, R124). -/
theorem increments_cases {id : Nat} (h : increments id = true) :
    id = 1 ∨ id = 2 ∨ id = 3 ∨ id = 4 ∨ id = 8 ∨ id = 9 ∨ id = 10 ∨ id = 11 ∨ id = 12 ∨ id = 13 ∨ id = 14 ∨ id = 15 ∨
    id = 16 ∨ id = 17 ∨ id = 18 := by
  simp only [increments, legalId, Bool.and_eq_true, Bool.not_eq_true', Bool.or_eq_false_iff, decide_eq_true_eq,
    decide_eq_false_iff_not] at h
  omega

/-- The matrix of R24 for the ids that count `MC` up, before they do. -/
theorem effect_rowFrame {id : Nat} (h : increments id = true) (s : State) : RowFrame id s (effect id s) := by
  rcases increments_cases h with
    rfl | rfl | rfl | rfl | rfl | rfl | rfl | rfl | rfl | rfl | rfl | rfl | rfl | rfl | rfl
  · exact s.coreStore_rowFrame
  · exact s.coreLoad_rowFrame
  · exact s.setIr_rowFrame rfl _
  · exact s.setAb_rowFrame rfl _
  · exact s.setAb_rowFrame rfl _
  · exact s.setPc_rowFrame rfl _
  · exact effSkipz_rowFrame s
  · exact s.setPc_rowFrame rfl _
  · exact s.setAcc_rowFrame rfl _
  · exact s.setAcc_rowFrame rfl _
  · exact s.setAcc_rowFrame rfl _
  · exact s.setDb_rowFrame rfl _
  · exact s.setAcc_rowFrame rfl _
  · exact s.setAcc_rowFrame rfl _
  · exact s.setAcc_rowFrame rfl _

/-- A counted id has the registers of its row and `MC` written, and nothing halts or faults (R24, R124). -/
theorem effect_autoIncrement_writesRegs {id : Nat} (h : increments id = true) (s : State) :
    WritesRegs (writtenBy id) s (effect id s).autoIncrement := by
  obtain ⟨written, hrow, -, hregs⟩ := (effect_rowFrame h s).regs
  rw [hrow]
  exact hregs.autoIncrement

/-- A counted id advances `MC` (R124). -/
theorem effect_autoIncrement_advancesMc {id : Nat} (h : increments id = true) (s : State) :
    AdvancesMc s (effect id s).autoIncrement := by
  obtain ⟨written, -, hmc, hregs⟩ := (effect_rowFrame h s).regs
  exact hregs.advancesMc hmc

/-- The effect of a counted id does not write `MC` (R24). -/
theorem effect_mc {id : Nat} (h : increments id = true) (s : State) : (effect id s).mc = s.mc := by
  obtain ⟨written, -, hmc, hregs⟩ := (effect_rowFrame h s).regs
  exact Fin.ext (keepsRegsBut_iff.mp hregs.regs .mc hmc)

/-- What writes no register keeps every list of registers but those that may be written. -/
theorem keepsRegsBut_of_nil {s t : State} (h : KeepsRegsBut [] s t) (written : List Reg) :
    KeepsRegsBut written s t :=
  keepsRegsBut_iff.mpr fun r _ => keepsRegsBut_iff.mp h r List.not_mem_nil

/-- Settles O13: of the five outcomes a fault and a halt write no register, ids 5 and 7 write `MC`, and all others have
their row. -/
theorem microStepWritesOnlyTheRegistersOfItsRow : Obligations.MicroStepWritesOnlyTheRegistersOfItsRow := by
  intro s hh
  obtain ⟨hh', -⟩ | ⟨-, houtcome⟩ := microStep_outcome s
  · simp [hh] at hh'
  generalize microStep s = t at houtcome
  cases houtcome with
  | fault f =>
    obtain ⟨-, -, -, hregs, hmem, haccess, hhost⟩ := s.takeFault_spec f
    exact ⟨keepsRegsBut_of_nil hregs _, fun _ => hmem, fun _ _ => haccess, hhost⟩
  | counted hinc =>
    have hregs := effect_autoIncrement_writesRegs hinc s
    have hrow := effect_rowFrame hinc s
    exact ⟨hregs.regs, hrow.memory, hrow.lastAccessed, hregs.host⟩
  | dispatched hid _ =>
    have hregs := s.setMc_writesRegs s.dispatchTarget
    exact ⟨hid ▸ hregs.regs, fun _ => rfl, fun _ _ => rfl, hregs.host⟩
  | returned hid =>
    have hregs := s.setMc_writesRegs 0
    exact ⟨hid ▸ hregs.regs, fun _ => rfl, fun _ _ => rfl, hregs.host⟩
  | halted _ =>
    obtain ⟨-, hregs, -, hhost⟩ := s.halt_spec .halt
    exact ⟨keepsRegsBut_of_nil hregs _, fun _ => rfl, fun _ _ => rfl, hhost⟩

/-- The micro-step of an id that counts `MC` up (R123, R124). -/
theorem microStep_counted {s : State} (hh : s.halted = false) (hinc : increments s.slotId = true) :
    microStep s = (effect s.slotId s).autoIncrement := by
  have hlegal : legalId s.slotId = true := (Bool.and_eq_true _ _ ▸ hinc : _ ∧ _).1
  have hzero : s.slotId ≠ 0 := fun h => by simp [h, increments] at hinc
  simp [microStep_eq_runId hh, runId, hlegal, hzero, hinc]

/-- Settles O14: the effect notifies of no clamp of `MC`, so the auto-increment's own write is the only one that can. -/
theorem autoIncrementNormalizesOnlyAtTheTop : Obligations.AutoIncrementNormalizesOnlyAtTheTop := by
  intro s hh hinc
  rw [microStep_counted hh hinc]
  obtain ⟨es, hes, hnot⟩ := (effect_rowFrame hinc s).events
  refine ⟨effect_autoIncrement_advancesMc hinc s, es ++ regEvents .mc 199 ((s.mc.val : Int) + 1), ?_, ?_, ?_⟩
  · rw [State.autoIncrement_spec, hes, effect_mc hinc s, List.append_assoc]
  · rw [List.mem_append, or_iff_right hnot, normalized_mem_regEvents, and_iff_right rfl]
    omega
  · exact List.mem_append_right _ ((registerChanged_mem_regEvents _ _ _ _).mpr rfl)

/-- Settles O20: a fault and a halt leave `MC`, the count and the dispatch of an opcode above 0 do not reach 0. -/
theorem onlyIdSevenReturnsToSlotZero : Obligations.OnlyIdSevenReturnsToSlotZero := by
  intro s hmc hzero
  obtain ⟨-, hstep⟩ | ⟨hh, houtcome⟩ := microStep_outcome s
  · rw [hstep] at hzero
    exact absurd hzero hmc
  generalize microStep s = t at hzero houtcome
  cases houtcome with
  | fault | halted => exact absurd hzero hmc
  | counted hinc =>
    have hnext := effect_autoIncrement_advancesMc hinc s
    rw [AdvancesMc, hzero] at hnext
    have hval : s.mc.val ≠ 0 := fun h => hmc (Fin.ext h)
    simp only [Fin.val_zero] at hnext
    omega
  | dispatched _ hopcode =>
    have htarget := s.dispatchTarget_mc
    rw [hzero] at htarget
    have hir : ¬ s.ir.val < 1000 := mt s.irOpcode_eq_zero_iff.mpr hopcode
    simp only [Fin.val_zero] at htarget
    omega
  | returned hid => exact ⟨hid, hh⟩

/-- At the first slot of the block of the opcode in `IR`, id 5 changes nothing: it jumps to where it is (R343). -/
theorem microStep_dispatchLoop {s : State} (hh : s.halted = false) (hir : 1000 ≤ s.ir.val)
    (hmc : s.mc.val = s.ir.val / 1000 * 10) (hslot : s.slotId = 5) : (microStep s).toArch = s.toArch := by
  have hopcode : s.irOpcode ≠ 0 := mt s.irOpcode_eq_zero_iff.mp (by omega)
  have hstay : (s.setMc s.dispatchTarget).mc = s.mc := Fin.ext (s.dispatchTarget_mc.trans hmc.symm)
  rw [microStep_ir2mc hh hslot, effIr2mc_of_opcode_ne_zero hopcode]
  exact congrArg (fun m => { s.toArch with mc := m }) hstay

/-- Settles O21, by induction on the number of micro-steps: in a loop of the dispatch nothing changes, so the loop goes
on; at slot 199 `MC` stays, and so does Microcode, so the same id runs again. -/
theorem nonReturningMicrocodeHangs : Obligations.NonReturningMicrocodeHangs := by
  constructor
  · intro s n hh hir hmc hslot
    induction n with
    | zero => rfl
    | succ n ih =>
      rw [Function.iterate_succ_apply', ← ih]
      generalize microStep^[n] s = u at ih
      have hslot' : u.slotId = s.slotId := congrArg (fun x : Arch => Store.read 0 x.microcode x.mc.val) ih
      have hir' : u.ir = s.ir := congrArg Arch.ir ih
      have hmc' : u.mc = s.mc := congrArg Arch.mc ih
      exact microStep_dispatchLoop ((congrArg Arch.halted ih).trans hh) (by rwa [hir']) (by rwa [hir', hmc'])
        (hslot'.trans hslot)
  · intro s n hh hmc hinc
    have hstay : (microStep^[n] s).mc = s.mc ∧ (microStep^[n] s).halted = false ∧
        (microStep^[n] s).microcode = s.microcode := by
      induction n with
      | zero => exact ⟨rfl, hh, rfl⟩
      | succ n ih =>
        rw [Function.iterate_succ_apply']
        generalize microStep^[n] s = u at ih
        obtain ⟨hmcU, hhU, hcodeU⟩ := ih
        have hslotU : u.slotId = s.slotId := by rw [State.slotId, State.mcRead, hmcU, hcodeU]; rfl
        have hincU : increments u.slotId = true := hslotU ▸ hinc
        have hnext := effect_autoIncrement_advancesMc hincU u
        have hregs := effect_autoIncrement_writesRegs hincU u
        obtain ⟨-, -, hcode, -⟩ := hregs.host
        obtain ⟨hhalted, -⟩ := hregs.outcome
        rw [microStep_counted hhU hincU]
        refine ⟨Fin.ext ?_, hhalted.trans hhU, hcode.trans hcodeU⟩
        rw [hnext, hmcU, hmc]
        rfl
    exact ⟨hstay.1 ▸ hmc, hstay.2.1⟩

end Sys2Proof.Machine
end

