-- ==== Sys2Proof/Proofs/CoreStep.lean ====
section
/-! SUPPORT. What the core by itself may do to a state, in one relation that every micro-step has and that composes: so
it holds of an instruction, of the loop of `macroStep` and of a tick, whose micro-steps are not counted here. -/

namespace Sys2Proof.Machine

/-- The records of a machine agree with its flag: one with an execution fault on record is halted, and it is halted
exactly if its end is on record (R296, R340). -/
def State.recordsOk (s : State) : Prop := (s.lastFault.isSome = true → s.halted = true) ∧ s.ending.isSome = s.halted

/-- What the core leaves alone from `s` to `u`: the host's state (R201, R302), a halted machine with the record of
its end (R31, R340), the form of Memory and the agreement of the records. -/
structure CoreStep (s u : State) : Prop where
  host : KeepsHostState s u
  halted : s.halted = true → u.halted = true ∧ u.ending = s.ending
  memoryWf : Memory.wf s.memory = true → Memory.wf u.memory = true
  recordsOk : s.recordsOk → u.recordsOk

theorem CoreStep.refl (s : State) : CoreStep s s :=
  ⟨⟨rfl, rfl, rfl, rfl, rfl, rfl⟩, fun h => ⟨h, rfl⟩, fun h => h, fun h => h⟩

theorem CoreStep.trans {s u v : State} (h : CoreStep s u) (h' : CoreStep u v) : CoreStep s v where
  host := by
    obtain ⟨hrun, hcur, hcode, hnames, hinbox, hprogress⟩ := h.host
    obtain ⟨hrun', hcur', hcode', hnames', hinbox', hprogress'⟩ := h'.host
    exact ⟨hrun'.trans hrun, hcur'.trans hcur, hcode'.trans hcode, hnames'.trans hnames, hinbox'.trans hinbox,
      hprogress'.trans hprogress⟩
  halted := fun hs =>
    have ⟨hu, hend⟩ := h.halted hs
    have ⟨hv, hend'⟩ := h'.halted hu
    ⟨hv, hend'.trans hend⟩
  memoryWf := fun hs => h'.memoryWf (h.memoryWf hs)
  recordsOk := fun hs => h'.recordsOk (h.recordsOk hs)

/-- What neither halts nor faults is a step of the core if it keeps the form of Memory. -/
theorem WritesRegs.coreStep {written : List Reg} {s u : State} (h : WritesRegs written s u)
    (hmem : Memory.wf s.memory = true → Memory.wf u.memory = true) : CoreStep s u := by
  obtain ⟨hhalted, -, hfault, hending⟩ := h.outcome
  refine ⟨h.host, fun hs => ⟨hhalted.trans hs, hending⟩, hmem, fun hs => ?_⟩
  rwa [State.recordsOk, hhalted, hfault, hending]

/-- Setting Halted with the record of the end (R340). -/
theorem State.halt_coreStep (s : State) (e : Ending) : CoreStep s (s.halt e) where
  host := ⟨rfl, rfl, rfl, rfl, rfl, rfl⟩
  halted := fun hs => ⟨rfl, by simp [hs]⟩
  memoryWf := fun h => h
  recordsOk := by
    rintro ⟨-, hend⟩
    refine ⟨fun _ => rfl, ?_⟩
    cases hh : s.halted <;> simp [hh, hend]

theorem State.takeFault_coreStep (s : State) (f : ExecFault) : CoreStep s (s.takeFault f) where
  host := (s.halt_coreStep (.fault f)).host
  halted := (s.halt_coreStep (.fault f)).halted
  memoryWf := fun h => h
  recordsOk := fun hs => ⟨fun _ => rfl, ((s.halt_coreStep (.fault f)).recordsOk hs).2⟩

theorem State.setMc_coreStep (s : State) (v : Int) : CoreStep s (s.setMc v) :=
  (s.setMc_writesRegs v).coreStep fun h => h

theorem effect_autoIncrement_coreStep {id : Nat} (h : increments id = true) (s : State) :
    CoreStep s (effect id s).autoIncrement :=
  (effect_autoIncrement_writesRegs h s).coreStep (effect_rowFrame h s).memoryWf

theorem MicroOutcome.coreStep {id : Nat} {s u : State} (h : MicroOutcome id s u) : CoreStep s u := by
  cases h with
  | fault f => exact s.takeFault_coreStep f
  | counted hinc => exact effect_autoIncrement_coreStep hinc s
  | dispatched => exact s.setMc_coreStep _
  | returned => exact s.setMc_coreStep 0
  | halted => exact s.halt_coreStep .halt

theorem runId_coreStep (id : Nat) (s : State) : CoreStep s (runId id s) := (runId_outcome id s).coreStep

theorem microStep_coreStep (s : State) : CoreStep s (microStep s) := by
  rcases microStep_outcome s with ⟨-, hnoop⟩ | ⟨-, houtcome⟩
  · rw [hnoop]
    exact ⟨⟨rfl, rfl, rfl, rfl, rfl, rfl⟩, fun h => ⟨h, rfl⟩, fun h => h, fun h => h⟩
  · exact houtcome.coreStep

/-- The loop of `macroStep`, however many micro-steps it does (R126). -/
theorem runMicro_coreStep (n : Nat) (s : State) : CoreStep s (runMicro n s) := by
  induction n generalizing s with
  | zero => exact .refl s
  | succ n ih =>
    unfold runMicro
    split
    · exact microStep_coreStep s
    · exact (microStep_coreStep s).trans (ih _)

/-- The effect of id 5 is a step of the core: a jump or a fault (R193). -/
theorem effIr2mc_coreStep (s : State) : CoreStep s (effIr2mc s) := by
  by_cases hopcode : s.irOpcode = 0
  · rw [effIr2mc_of_opcode_zero hopcode]
    exact s.takeFault_coreStep _
  · rw [effIr2mc_of_opcode_ne_zero hopcode]
    exact s.setMc_coreStep _

theorem State.withIr_coreStep (s : State) (w : Word) : CoreStep s (s.withIr w) :=
  ⟨⟨rfl, rfl, rfl, rfl, rfl, rfl⟩, fun h => ⟨h, rfl⟩, fun h => h, fun h => h⟩

theorem dispatchWord_coreStep (k : Opcode) (a : Nat) (s : State) : CoreStep s (dispatchWord k a s) := by
  have hdispatch : CoreStep s (effIr2mc (s.withIr (packWord k (operandField a)))) :=
    (s.withIr_coreStep _).trans (effIr2mc_coreStep _)
  simp only [dispatchWord]
  split
  · exact hdispatch
  · exact hdispatch.trans (runMicro_coreStep _ _)

/-- Every instruction is a step of the core: a micro-operation is what comes of its id, and an opcode with its operand
is the dispatch and micro-steps (R210). -/
theorem exec_coreStep {i : Instr} {s t : State} (h : exec i s = .next t) : CoreStep s t := by
  rcases micro_or_wordInstr i with ⟨id, hdecode, -⟩ | ⟨k, a, rfl⟩
  · rw [exec_of_decodeSlot hdecode] at h
    cases h
    exact runId_coreStep id s
  · rw [exec_wordInstr] at h
    cases h
    exact dispatchWord_coreStep k a s

/-- Settles O35: every instruction is a step of the core. -/
theorem noInstructionTouchesTheHostsState : Obligations.NoInstructionTouchesTheHostsState := by
  intro i s t h
  have hcore := exec_coreStep h
  exact ⟨hcore.host, fun hs => (hcore.halted hs).1⟩

/-- The micro-steps of one step of the model answer a next state, and are steps of the core (log entry 2). -/
theorem exists_runMacro (n : Nat) (s : State) : ∃ t, runMacro n s = .next t ∧ CoreStep s t := by
  induction n generalizing s with
  | zero => exact ⟨s, rfl, .refl s⟩
  | succ n ih =>
    unfold runMacro
    split
    · obtain ⟨t, ht⟩ := exec_next (instrOfWord s.ir) s
      exact ⟨t, ht, exec_coreStep ht⟩
    · rw [microStepExec_eq, andThen_next]
      split
      · exact ⟨_, rfl, microStep_coreStep s⟩
      · obtain ⟨t, ht, hcore⟩ := ih (microStep s)
        exact ⟨t, ht, (microStep_coreStep s).trans hcore⟩

end Sys2Proof.Machine
end

