-- ==== Sys2Proof/Proofs/HostStep.lean ====
section
/-! SUPPORT. What every command of the host keeps, `resetMachine` aside: a halted machine with the record of its end,
the forms of the three stores and the agreement of the records. Said once per operation on the state; it composes, and
each command is a few such operations. -/

namespace Sys2Proof.Machine

/-- The three stores have their forms (R40). -/
def State.storesWf (s : State) : Prop :=
  Memory.wf s.memory = true ∧ Microcode.wf s.microcode = true ∧ NameTable.wf s.names = true

/-- What the host keeps from `s` to `t` with a command other than `resetMachine` that leaves no `macroStep` in
progress. -/
structure HostStep (s t : State) : Prop where
  progress : t.progress = s.progress
  halted : s.halted = true → t.halted = true ∧ t.ending = s.ending
  recordsOk : s.recordsOk → t.recordsOk
  storesWf : s.storesWf → t.storesWf

theorem HostStep.refl (s : State) : HostStep s s := ⟨rfl, fun h => ⟨h, rfl⟩, fun h => h, fun h => h⟩

theorem HostStep.trans {s u v : State} (h : HostStep s u) (h' : HostStep u v) : HostStep s v where
  progress := h'.progress.trans h.progress
  halted := fun hs =>
    have ⟨hu, hend⟩ := h.halted hs
    have ⟨hv, hend'⟩ := h'.halted hu
    ⟨hv, hend'.trans hend⟩
  recordsOk := fun hs => h'.recordsOk (h.recordsOk hs)
  storesWf := fun hs => h'.storesWf (h.storesWf hs)

/-- The core touches Memory alone of the stores. -/
theorem CoreStep.storesWf {s u : State} (h : CoreStep s u) (hs : s.storesWf) : u.storesWf := by
  obtain ⟨hmem, hcode, hnames⟩ := hs
  obtain ⟨-, -, hcode', hnames', -⟩ := h.host
  exact ⟨h.memoryWf hmem, hcode' ▸ hcode, hnames' ▸ hnames⟩

theorem CoreStep.hostStep {s u : State} (h : CoreStep s u) : HostStep s u := by
  obtain ⟨-, -, -, -, -, hprogress⟩ := h.host
  exact ⟨hprogress, h.halted, h.recordsOk, h.storesWf⟩

/-! ## The operations of the host on the state -/

theorem State.answer_hostStep (s : State) (r : Response) : HostStep s (s.answer r) := ⟨rfl, (⟨·, rfl⟩), id, id⟩

theorem State.emitAll_hostStep (s : State) (es : List Event) : HostStep s (s.emitAll es) := ⟨rfl, (⟨·, rfl⟩), id, id⟩

theorem State.setRunning_hostStep (s : State) (b : Bool) : HostStep s (s.setRunning b) := ⟨rfl, (⟨·, rfl⟩), id, id⟩

theorem State.withCursor_hostStep (s : State) (c : Option Cursor) : HostStep s (s.withCursor c) :=
  ⟨rfl, (⟨·, rfl⟩), id, id⟩

theorem State.withInbox_hostStep (s : State) (l : List Input) : HostStep s (s.withInbox l) := ⟨rfl, (⟨·, rfl⟩), id, id⟩

theorem State.memWrite_hostStep {a : Nat} (ha : a < 1000) (s : State) (v : Word) : HostStep s (s.memWrite a v) :=
  ⟨rfl, (⟨·, rfl⟩), id, fun ⟨hmem, hcode, hnames⟩ => ⟨State.memWrite_wf hmem ha v, hcode, hnames⟩⟩

theorem State.mcWrite_hostStep {a i : Nat} (ha : a < 200) (hi : legalId i = true) (s : State) :
    HostStep s (s.mcWrite a i) :=
  ⟨rfl, (⟨·, rfl⟩), id, fun ⟨hmem, hcode, hnames⟩ => ⟨hmem, State.mcWrite_wf hcode ha hi, hnames⟩⟩

theorem State.nameWrite_hostStep {k : Nat} (hk : k < 20) {n : Text} (hn : validName n = true) (s : State) :
    HostStep s (s.nameWrite k (some n)) :=
  ⟨rfl, (⟨·, rfl⟩), id, fun ⟨hmem, hcode, hnames⟩ => ⟨hmem, hcode, State.nameWrite_wf hnames hk hn⟩⟩

theorem State.setMemory_hostStep {m : Memory} (hm : Memory.wf m = true) (s : State) : HostStep s (s.setMemory m) :=
  ⟨rfl, (⟨·, rfl⟩), id, fun ⟨_, hcode, hnames⟩ => ⟨hm, hcode, hnames⟩⟩

theorem State.setMicrocode_hostStep {m : Microcode} (hm : Microcode.wf m = true) (s : State) :
    HostStep s (s.setMicrocode m) :=
  ⟨rfl, (⟨·, rfl⟩), id, fun ⟨hmem, _, hnames⟩ => ⟨hmem, hm, hnames⟩⟩

theorem State.setNames_hostStep {m : NameTable} (hm : NameTable.wf m = true) (s : State) : HostStep s (s.setNames m) :=
  ⟨rfl, (⟨·, rfl⟩), id, fun ⟨hmem, hcode, _⟩ => ⟨hmem, hcode, hm⟩⟩

theorem State.answerOk_hostStep (s : State) : HostStep s s.answerOk := by
  unfold State.answerOk
  split
  · exact s.answer_hostStep _
  · exact .refl s

/-- What a command concludes with a fault changes nothing but the response (R305). -/
theorem State.conclude_hostStep {s : State} {r : Except HostFault State} (h : ∀ t, r = .ok t → HostStep s t) :
    HostStep s (s.conclude r) := by
  cases r with
  | error f => exact s.answer_hostStep _
  | ok t => exact (h t rfl).trans (t.answer_hostStep .ok)

/-! ## The ports (R62 to R69) -/

theorem HostNum.lt_of_upTo {x : HostNum} {top n : Nat} (h : x.upTo top = some n) : n < top + 1 :=
  Nat.lt_succ_of_le (HostNum.upTo_eq_some.mp h).2

theorem hostMemoryRead_hostStep (a : HostNum) (s : State) : HostStep s (hostMemoryRead a s) := by
  unfold hostMemoryRead
  split <;> exact s.answer_hostStep _

theorem hostMemoryWrite_hostStep (a v : HostNum) (s : State) : HostStep s (hostMemoryWrite a v s) := by
  unfold hostMemoryWrite
  split
  case h_1 => exact s.answer_hostStep _
  case h_2 n ha =>
    split
    · exact s.answer_hostStep _
    · exact (s.memWrite_hostStep (HostNum.lt_of_upTo ha) _).trans (State.answer_hostStep _ _)

theorem hostMicrocodeRead_hostStep (a : HostNum) (s : State) : HostStep s (hostMicrocodeRead a s) := by
  unfold hostMicrocodeRead
  split <;> exact s.answer_hostStep _

theorem State.portMicrocodeWrite_hostStep {s t : State} {a v : HostNum} (h : s.portMicrocodeWrite a v = .ok t) :
    HostStep s t := by
  obtain ⟨n, i, -, hn, -, hi, rfl⟩ := State.portMicrocodeWrite_ok.mp h
  exact s.mcWrite_hostStep hn hi

theorem hostInstructionName_hostStep (k : HostNum) (s : State) : HostStep s (hostInstructionName k s) := by
  unfold hostInstructionName
  split <;> exact s.answer_hostStep _

theorem hostSetInstructionName_hostStep (k : HostNum) (n : Text) (s : State) :
    HostStep s (hostSetInstructionName k n s) := by
  unfold hostSetInstructionName
  split
  case h_1 => exact s.answer_hostStep _
  case h_2 k hk =>
    split
    · rename_i hn
      exact (s.nameWrite_hostStep (HostNum.lt_of_upTo hk) hn).trans (State.answer_hostStep _ _)
    · exact s.answer_hostStep _

theorem hostMicrocodeReset_hostStep {p : Config.Params} (hp : paramsWf p = true) (s : State) :
    HostStep s (hostMicrocodeReset p s) := by
  simp only [paramsWf, Bool.and_eq_true] at hp
  obtain ⟨⟨-, hcode⟩, hnames⟩ := hp
  exact ((s.setMicrocode_hostStep hcode).trans (State.setNames_hostStep hnames _)).trans (State.answer_hostStep _ _)

theorem hostStop_hostStep (s : State) : HostStep s (hostStop s) := by
  unfold hostStop
  split
  · exact (s.setRunning_hostStep false).trans (State.answer_hostStep _ _)
  · exact s.answer_hostStep .ok

/-! ## The RamEditor (R250 to R256) -/

/-- From `s` to `t` words of Memory may be written, with notifications, and nothing else changes. -/
def WritesMemory (s t : State) : Prop := ∃ m es, t = { s with memory := m, events := es }

theorem WritesMemory.refl (s : State) : WritesMemory s s := ⟨s.memory, s.events, rfl⟩

theorem WritesMemory.trans {s u v : State} (h : WritesMemory s u) (h' : WritesMemory u v) : WritesMemory s v := by
  obtain ⟨m, es, rfl⟩ := h
  obtain ⟨m', es', rfl⟩ := h'
  exact ⟨m', es', rfl⟩

theorem WritesMemory.hostStep {s t : State} (h : WritesMemory s t)
    (hwf : Memory.wf s.memory = true → Memory.wf t.memory = true) : HostStep s t := by
  obtain ⟨m, es, rfl⟩ := h
  exact ⟨rfl, (⟨·, rfl⟩), id, fun ⟨hmem, hcode, hnames⟩ => ⟨hwf hmem, hcode, hnames⟩⟩

theorem State.memWrite_writesMemory (s : State) (a : Nat) (v : Word) : WritesMemory s (s.memWrite a v) := ⟨_, _, rfl⟩

theorem shiftRowsUp_writesMemory (sel n : Nat) (s : State) : WritesMemory s (shiftRowsUp sel n s) := by
  induction n generalizing s with
  | zero => exact .refl s
  | succ n ih => exact (s.memWrite_writesMemory _ _).trans (ih _)

theorem shiftRowsDown_writesMemory (sel n : Nat) (s : State) : WritesMemory s (shiftRowsDown sel n s) := by
  induction n generalizing sel s with
  | zero => exact .refl s
  | succ n ih => exact (s.memWrite_writesMemory _ _).trans (ih _ _)

theorem fixUpAt_writesMemory (hlt : Opcode) (sel : Nat) (delta : Int) (s : State) (x : Nat) :
    WritesMemory s (fixUpAt hlt sel delta s x) := by
  unfold fixUpAt
  split
  · exact .refl s
  · exact s.memWrite_writesMemory x _
  · exact ⟨_, _, rfl⟩

theorem fixUp_writesMemory (hlt : Opcode) (sel : Nat) (delta : Int) (s : State) :
    WritesMemory s (fixUp hlt sel delta s) := by
  unfold fixUp
  generalize List.range 1000 = l
  induction l generalizing s with
  | nil => exact .refl s
  | cons x r ih => exact (fixUpAt_writesMemory hlt sel delta s x).trans (ih _)

/-- A fix-up where it is enabled (R254). -/
def fixUpIf (fixup : Bool) (hlt : Opcode) (sel : Nat) (delta : Int) (s : State) : State :=
  if fixup then fixUp hlt sel delta s else s

@[simp] theorem fixUpIf_true (hlt : Opcode) (sel : Nat) (delta : Int) (s : State) :
    fixUpIf true hlt sel delta s = fixUp hlt sel delta s := if_pos rfl

@[simp] theorem fixUpIf_false (hlt : Opcode) (sel : Nat) (delta : Int) (s : State) :
    fixUpIf false hlt sel delta s = s := if_neg Bool.false_ne_true

theorem fixUpIf_writesMemory (fixup : Bool) (hlt : Opcode) (sel : Nat) (delta : Int) (s : State) :
    WritesMemory s (fixUpIf fixup hlt sel delta s) := by
  cases fixup with
  | true => simpa using fixUp_writesMemory hlt sel delta s
  | false => simpa using WritesMemory.refl s

theorem fixUpIf_wf {s : State} (h : Memory.wf s.memory = true) (fixup : Bool) (hlt : Opcode) (sel : Nat)
    (delta : Int) : Memory.wf (fixUpIf fixup hlt sel delta s).memory = true := by
  cases fixup with
  | true => simpa using fixUp_wf h
  | false => simpa using h

/-- The rows from `sel` to `last` moved one up, and 0 at `sel` (R250). -/
def openRow (sel last : Nat) (s : State) : State := (shiftRowsUp sel (last + 1 - sel) s).memWrite sel 0

/-- The rows after `sel` to `last` moved one down, and 0 at `last` (R252). -/
def closeRow (sel last : Nat) (s : State) : State := (shiftRowsDown sel (last - sel) s).memWrite last 0

theorem openRow_writesMemory (sel last : Nat) (s : State) : WritesMemory s (openRow sel last s) :=
  (shiftRowsUp_writesMemory _ _ s).trans (State.memWrite_writesMemory _ _ _)

theorem closeRow_writesMemory (sel last : Nat) (s : State) : WritesMemory s (closeRow sel last s) :=
  (shiftRowsDown_writesMemory _ _ s).trans (State.memWrite_writesMemory _ _ _)

theorem openRow_wf {s : State} (h : Memory.wf s.memory = true) {sel last : Nat} (hsel : sel < 1000)
    (hlast : last < 999) : Memory.wf (openRow sel last s).memory = true :=
  State.memWrite_wf (shiftRowsUp_wf (by omega) h) hsel 0

theorem closeRow_wf {s : State} (h : Memory.wf s.memory = true) {sel last : Nat} (hsel : sel ≤ last)
    (hlast : last < 1000) : Memory.wf (closeRow sel last s).memory = true :=
  State.memWrite_wf (shiftRowsDown_wf (by omega) h) hlast 0

/-- A selected row outside 0 to 999 fails (R250). -/
theorem hostInsertRowAbove_outside {selected : HostNum} (h : selected.upTo 999 = none) (p : Config.Params)
    (fixup : Bool) (s : State) :
    hostInsertRowAbove p selected fixup s = s.answer (.failed (.addressOutOfRange selected)) := by
  simp [hostInsertRowAbove, h]

/-- With no word in use there is nothing to move (R250). -/
theorem hostInsertRowAbove_unused {selected : HostNum} {sel : Nat} {s : State} (h : selected.upTo 999 = some sel)
    (hlast : s.lastUsedAddress = none) (p : Config.Params) (fixup : Bool) :
    hostInsertRowAbove p selected fixup s = s.answer .ok := by
  simp [hostInsertRowAbove, h, hlast]

/-- With the last word in use there is no room (R250). -/
theorem hostInsertRowAbove_full {selected : HostNum} {sel : Nat} {s : State} (h : selected.upTo 999 = some sel)
    (hlast : s.lastUsedAddress = some 999) (p : Config.Params) (fixup : Bool) :
    hostInsertRowAbove p selected fixup s = s.answer (.failed .memoryFull) := by
  simp [hostInsertRowAbove, h, hlast]

theorem hostInsertRowAbove_opens {selected : HostNum} {sel last : Nat} {s : State} (h : selected.upTo 999 = some sel)
    (hlast : s.lastUsedAddress = some last) (hne : last ≠ 999) (p : Config.Params) (fixup : Bool) :
    hostInsertRowAbove p selected fixup s =
      (fixUpIf fixup p.hltOpcode sel 1 (openRow sel last s)).answer .ok := by
  simp [hostInsertRowAbove, h, hlast, hne, fixUpIf, openRow]

/-- A selected row outside 0 to 999 fails (R252). -/
theorem hostDeleteRow_outside {selected : HostNum} (h : selected.upTo 999 = none) (p : Config.Params) (fixup : Bool)
    (s : State) : hostDeleteRow p selected fixup s = s.answer (.failed (.addressOutOfRange selected)) := by
  simp [hostDeleteRow, h]

/-- With no word in use from the selected row up nothing moves (R252). -/
theorem hostDeleteRow_unused {selected : HostNum} {sel : Nat} {s : State} (h : selected.upTo 999 = some sel)
    (hlast : ∀ last, s.lastUsedAddress = some last → last < sel) (p : Config.Params) (fixup : Bool) :
    hostDeleteRow p selected fixup s = s.answer .ok := by
  cases hl : s.lastUsedAddress with
  | none => simp [hostDeleteRow, h, hl]
  | some last => simp [hostDeleteRow, h, hl, hlast last hl]

theorem hostDeleteRow_closes {selected : HostNum} {sel last : Nat} {s : State} (h : selected.upTo 999 = some sel)
    (hlast : s.lastUsedAddress = some last) (hle : sel ≤ last) (p : Config.Params) (fixup : Bool) :
    hostDeleteRow p selected fixup s =
      (fixUpIf fixup p.hltOpcode sel (-1) (closeRow sel last s)).answer .ok := by
  simp [hostDeleteRow, h, hlast, not_lt.mpr hle, fixUpIf, closeRow]

/-- The last used address of a canonical Memory is an address of it (R64). -/
theorem State.lastUsedAddress_lt {s : State} (h : Memory.wf s.memory = true) {last : Nat}
    (hlast : s.lastUsedAddress = some last) : last < 1000 := by
  by_contra hge
  obtain ⟨hread, -⟩ := Store.highest_of_lastUsed 0 h hlast
  exact hread (Store.read_outside 0 h (not_lt.mp hge))

theorem hostInsertRowAbove_hostStep (p : Config.Params) (selected : HostNum) (fixup : Bool) (s : State) :
    HostStep s (hostInsertRowAbove p selected fixup s) := by
  cases hsel : selected.upTo 999 with
  | none =>
    rw [hostInsertRowAbove_outside hsel]
    exact s.answer_hostStep _
  | some sel =>
    cases hlast : s.lastUsedAddress with
    | none =>
      rw [hostInsertRowAbove_unused hsel hlast]
      exact s.answer_hostStep _
    | some last =>
      by_cases hfull : last = 999
      · rw [hostInsertRowAbove_full hsel (hfull ▸ hlast)]
        exact s.answer_hostStep _
      · rw [hostInsertRowAbove_opens hsel hlast hfull]
        refine (WritesMemory.hostStep ?_ fun hwf => ?_).trans (State.answer_hostStep _ _)
        · exact (openRow_writesMemory sel last s).trans (fixUpIf_writesMemory _ _ _ _ _)
        · have hlt := State.lastUsedAddress_lt hwf hlast
          exact fixUpIf_wf (openRow_wf hwf (HostNum.lt_of_upTo hsel) (by omega)) _ _ _ _

theorem hostDeleteRow_hostStep (p : Config.Params) (selected : HostNum) (fixup : Bool) (s : State) :
    HostStep s (hostDeleteRow p selected fixup s) := by
  cases hsel : selected.upTo 999 with
  | none =>
    rw [hostDeleteRow_outside hsel]
    exact s.answer_hostStep _
  | some sel =>
    by_cases hused : ∀ last, s.lastUsedAddress = some last → last < sel
    · rw [hostDeleteRow_unused hsel hused]
      exact s.answer_hostStep _
    · simp only [not_forall, not_lt] at hused
      obtain ⟨last, hlast, hle⟩ := hused
      rw [hostDeleteRow_closes hsel hlast hle]
      refine (WritesMemory.hostStep ?_ fun hwf => ?_).trans (State.answer_hostStep _ _)
      · exact (closeRow_writesMemory sel last s).trans (fixUpIf_writesMemory _ _ _ _ _)
      · exact fixUpIf_wf (closeRow_wf hwf hle (State.lastUsedAddress_lt hwf hlast)) _ _ _ _

/-! ## The Recorder and `manualStep` (R133 to R135, R260 to R264) -/

theorem hostRecorderStart_hostStep (a : HostNum) (n : Text) (s : State) : HostStep s (hostRecorderStart a n s) := by
  unfold hostRecorderStart
  split
  case h_1 => exact s.answer_hostStep _
  case h_2 k ha =>
    split
    case isTrue hok =>
      have hk : k / 10 < 20 := by
        have := HostNum.lt_of_upTo ha
        omega
      exact ((s.nameWrite_hostStep hk hok.2).trans (State.withCursor_hostStep _ _)).trans (State.answer_hostStep _ _)
    case isFalse => exact s.answer_hostStep _

theorem State.record_hostStep {s t : State} {x : HostNum} (h : s.record x = .ok t) : HostStep s t := by
  unfold State.record at h
  split at h
  · cases h
    exact .refl s
  · split at h
    · cases h
    · rename_i hport
      cases h
      exact (State.portMicrocodeWrite_hostStep hport).trans (State.withCursor_hostStep _ _)

/-- The effect alone of an id of the dispatch table is a step of the core (R133). -/
theorem effect_coreStep {i : Nat} (hi : legalId i = true) (s : State) : CoreStep s (effect i s) := by
  rcases increments_or hi with hinc | rfl | rfl | rfl | rfl
  · have hrow := effect_rowFrame hinc s
    obtain ⟨written, -, -, hregs⟩ := hrow.regs
    exact hregs.coreStep hrow.memoryWf
  · exact .refl s
  · exact effIr2mc_coreStep s
  · exact s.setMc_coreStep 0
  · exact s.halt_coreStep .halt

/-- The end put on record by a failed recording is that of this step, where this step halted the machine (R134,
R340). -/
theorem State.recordFailed_hostStep {s u : State} (h : CoreStep s u) : HostStep s (s.recordFailed u) where
  progress := h.hostStep.progress
  halted := fun hs => by simpa [hs] using h.halted hs
  recordsOk := by
    intro hs
    obtain ⟨hfault, hend⟩ := h.recordsOk hs
    refine ⟨hfault, ?_⟩
    cases hh : s.halted <;> simpa [hh] using hend
  storesWf := h.storesWf

theorem HostNum.dispatchId_eq_some {x : HostNum} {i : Nat} : x.dispatchId = some i ↔ x = .int i ∧ legalId i = true :=
  HostNum.microId_eq_some

theorem hostManualStep_hostStep (x : HostNum) (s : State) : HostStep s (hostManualStep x s) := by
  unfold hostManualStep
  split
  case h_1 => exact (s.takeFault_coreStep _).hostStep
  case h_2 i hi =>
    have hcore := effect_coreStep (HostNum.dispatchId_eq_some.mp hi).2 s
    split
    · exact (s.takeFault_coreStep _).hostStep
    · split
      · exact (State.recordFailed_hostStep hcore).trans (State.answer_hostStep _ _)
      · rename_i hrecord
        exact (hcore.hostStep.trans (State.record_hostStep hrecord)).trans (State.answer_hostStep _ _)

/-! ## The ProjectStore (R268 to R278) -/

/-- A list is mapped as a whole exactly where every element of it is. -/
theorem mapM_eq_some_iff {α β : Type} {f : α → Option β} {l : List α} {r : List β} :
    l.mapM f = some r ↔ l.map f = r.map some := by
  induction l generalizing r with
  | nil => cases r <;> simp
  | cons x l ih => cases r <;> simp [List.mapM_cons, Option.bind_eq_some_iff, ih]

theorem length_of_mapM_eq_some {α β : Type} {f : α → Option β} {l : List α} {r : List β} (h : l.mapM f = some r) :
    r.length = l.length := by
  simpa using (congrArg List.length (mapM_eq_some_iff.mp h)).symm

/-- What is in the result comes from an element of the list. -/
theorem exists_of_mem_mapM {α β : Type} {f : α → Option β} {l : List α} {r : List β} (h : l.mapM f = some r) {y : β}
    (hy : y ∈ r) : ∃ x ∈ l, f x = some y := by
  have hmem : some y ∈ l.map f := mapM_eq_some_iff.mp h ▸ List.mem_map_of_mem hy
  exact List.mem_map.mp hmem

/-- A list with an element that is not mapped is not mapped. -/
theorem mapM_eq_none_of_mem {α β : Type} {f : α → Option β} {l : List α} {x : α} (hx : x ∈ l) (hf : f x = none) :
    l.mapM f = none := by
  rw [Option.eq_none_iff_forall_ne_some]
  intro r h
  have hmem : f x ∈ r.map some := mapM_eq_some_iff.mp h ▸ List.mem_map_of_mem hx
  simp [hf] at hmem

/-- What a snapshot that passes the checks gives: the stores of its elements, each in its range (R270). -/
theorem RawSnapshot.check_eq_some {x : RawSnapshot} {m : Memory} {code : Microcode} {names : NameTable}
    (h : x.check = some (m, code, names)) :
    ∃ ram mc entries words ids checked, x.ram = some ram ∧ x.microCode = some mc ∧ x.instructionNames = some entries ∧
      ram.length ≤ 1000 ∧ mc.length ≤ 200 ∧ ram.mapM HostNum.word = some words ∧ mc.mapM HostNum.microId = some ids ∧
      entries.mapM checkName = some checked ∧ m = Store.ofList 0 words ∧ code = Store.ofList 0 ids ∧
      names = NameTable.ofEntries checked := by
  unfold RawSnapshot.check at h
  split at h
  case h_2 => cases h
  case h_1 ram mc entries hram hmc hentries =>
    split at h
    case isFalse => cases h
    case isTrue hlen =>
      split at h
      case h_2 => cases h
      case h_1 words ids checked hwords hids hchecked =>
        cases h
        exact ⟨ram, mc, entries, words, ids, checked, hram, hmc, hentries, hlen.1, hlen.2, hwords, hids, hchecked, rfl,
          rfl, rfl⟩

/-- A checked entry names an opcode with a valid name (R270). -/
theorem checkName_eq_some {e : HostNum × Text} {k : Nat} {n : Text} :
    checkName e = some (k, n) ↔ e = (.int k, n) ∧ k < 20 ∧ validName n = true := by
  obtain ⟨x, name⟩ := e
  unfold checkName
  cases hx : x.upTo 19 with
  | none =>
    simp only [reduceCtorEq, Prod.mk.injEq, false_iff, not_and]
    rintro ⟨rfl, rfl⟩ hk
    rw [HostNum.upTo_natCast (by omega)] at hx
    cases hx
  | some k' =>
    obtain ⟨rfl, hk'⟩ := HostNum.upTo_eq_some.mp hx
    simp only [Option.ite_none_right_eq_some, Option.some.injEq, Prod.mk.injEq, HostNum.int.injEq, Nat.cast_inj]
    constructor
    · rintro ⟨hn, rfl, rfl⟩
      exact ⟨⟨rfl, rfl⟩, by omega, hn⟩
    · rintro ⟨⟨rfl, rfl⟩, -, hn⟩
      exact ⟨hn, rfl, rfl⟩

theorem HostNum.microId_legal {x : HostNum} {i : Nat} (h : x.microId = some i) : legalId i = true :=
  (HostNum.microId_eq_some.mp h).2

/-- The stores of a snapshot that passes the checks have their forms (R40, R270). -/
theorem RawSnapshot.check_wf {x : RawSnapshot} {m : Memory} {code : Microcode} {names : NameTable}
    (h : x.check = some (m, code, names)) :
    Memory.wf m = true ∧ Microcode.wf code = true ∧ NameTable.wf names = true := by
  obtain ⟨ram, mc, entries, words, ids, checked, -, -, -, hram, hmc, hwords, hids, hchecked, rfl, rfl, rfl⟩ :=
    RawSnapshot.check_eq_some h
  refine ⟨Memory.ofList_wf (length_of_mapM_eq_some hwords ▸ hram),
    Microcode.ofList_wf (length_of_mapM_eq_some hids ▸ hmc) fun i hi => ?_, NameTable.ofEntries_wf fun e he => ?_⟩
  · obtain ⟨v, -, hv⟩ := exists_of_mem_mapM hids hi
    exact HostNum.microId_legal hv
  · obtain ⟨e', -, he'⟩ := exists_of_mem_mapM hchecked he
    exact (checkName_eq_some.mp he').2

theorem hostImport_hostStep (x : RawSnapshot) (s : State) : HostStep s (hostImport x s) := by
  unfold hostImport
  split
  · exact s.answer_hostStep _
  · rename_i hcheck
    obtain ⟨hm, hcode, hnames⟩ := RawSnapshot.check_wf hcheck
    exact (((s.setMemory_hostStep hm).trans (State.setMicrocode_hostStep hcode _)).trans
      (State.setNames_hostStep hnames _)).trans (State.answer_hostStep _ _)

theorem hostImportRam_hostStep (lines : List Text) (s : State) : HostStep s (hostImportRam lines s) :=
  ((s.emitAll_hostStep _).trans (State.setMemory_hostStep (Memory.ofList_wf (List.length_take_le _ _)) _)).trans
    (State.answer_hostStep _ _)

/-- The stores a `.mc` text that passes the checks gives (R275, R276). -/
theorem checkMc_eq_some {lines : List Text} {code : Microcode} {names : NameTable}
    (h : checkMc lines = some (code, names)) :
    ∃ ids, 200 ≤ (dataLines lines).length ∧
      (((dataLines lines).map Prod.snd).take 200).mapM mcToken = some ids ∧ code = Store.ofList 0 ids ∧
      names = Store.ofList none (((((dataLines lines).map Prod.snd).drop 200).take 20).map some) ∧
      ∀ n ∈ (((dataLines lines).map Prod.snd).drop 200).take 20, n.length ≤ 5 := by
  simp only [checkMc] at h
  split at h
  case isTrue => cases h
  case isFalse hlen =>
    split at h
    case h_1 => cases h
    case h_2 ids hids =>
      split at h
      case isFalse => cases h
      case isTrue hnames =>
        cases h
        refine ⟨ids, by simpa using hlen, hids, rfl, rfl, fun n hn => ?_⟩
        simpa using List.all_eq_true.mp hnames n hn

/-- A data line holds something (R272). -/
theorem ne_nil_of_mem_dataLines {lines : List Text} {n : Text} (h : n ∈ (dataLines lines).map Prod.snd) : n ≠ [] := by
  obtain ⟨x, hx, rfl⟩ := List.mem_map.mp h
  simpa using (List.mem_filter.mp hx).2

/-- The stores of a `.mc` text that passes the checks have their forms (R40, R275). -/
theorem checkMc_wf {lines : List Text} {code : Microcode} {names : NameTable} (h : checkMc lines = some (code, names)) :
    Microcode.wf code = true ∧ NameTable.wf names = true := by
  obtain ⟨ids, -, hids, rfl, rfl, hshort⟩ := checkMc_eq_some h
  have hlen : ids.length ≤ 200 := by
    rw [length_of_mapM_eq_some hids]
    exact List.length_take_le _ _
  refine ⟨Microcode.ofList_wf hlen fun i hi => ?_, ?_⟩
  · obtain ⟨t, -, ht⟩ := exists_of_mem_mapM hids hi
    exact (Option.filter_eq_some_iff.mp ht).2
  · simp only [NameTable.wf, Bool.and_eq_true, List.all_eq_true]
    refine ⟨Store.ofList_wf none _ (by simp), fun e he => ?_⟩
    obtain ⟨n, hn, hen⟩ := List.mem_map.mp (Store.mem_ofList none he)
    have hne := ne_nil_of_mem_dataLines (List.mem_of_mem_drop (List.mem_of_mem_take hn))
    simp [← hen, validName, hshort n hn, Nat.one_le_iff_ne_zero, hne]

theorem hostImportMc_hostStep (lines : List Text) (s : State) : HostStep s (hostImportMc lines s) := by
  unfold hostImportMc
  split
  · exact s.answer_hostStep _
  · rename_i hcheck
    obtain ⟨hcode, hnames⟩ := checkMc_wf hcheck
    exact ((s.setMicrocode_hostStep hcode).trans (State.setNames_hostStep hnames _)).trans (State.answer_hostStep _ _)

end Sys2Proof.Machine
end

