-- ==== Sys2Proof/Proofs/StepInvariant.lean ====
section
/-! SUPPORT. What a step of the machine is, by what the host does first, and what every step keeps: the halted state
until `resetMachine`, and the invariants of R40. -/

namespace Sys2Proof.Machine

/-- What a step is: the rest of a `macroStep` or of a tick, a tick of a run, the micro-step of an empty inbox, nothing,
or a command the host issues (R75, R129, R240, R243). -/
inductive StepsAs (s : State) : Host.Outcome State Fault Refusal → Prop where
  | macroStep (h : s.progress = .macroStep) : StepsAs s (doMacroStep s.clearOutputs)
  | tick (l : List Input) (h : s.progress = .tick ∨ s.progress = .idle ∧ s.running = true) :
    StepsAs s (doTick (s.clearOutputs.withInbox l))
  | microStep (h : s.progress = .idle) (hr : s.running = false) : StepsAs s (doMicroStep s.clearOutputs)
  | quiet (l : List Input) (h : s.progress = .idle) (hr : s.running = false) :
    StepsAs s (.next (s.clearOutputs.withInbox l))
  | command (c : Command) (h : s.asks c) :
    StepsAs s (issue Config.params c (s.clearOutputs.withInbox s.inbox.tail))

theorem step_of_macroStep {s : State} (h : s.progress = .macroStep) : step s = doMacroStep s.clearOutputs := by
  simp [step, stepWith, h]

theorem step_of_tick {s : State} (h : s.progress = .tick) : step s = doTick s.clearOutputs := by
  simp [step, stepWith, h]

/-- The step of an empty inbox is the host's `microStep()` (R17). -/
theorem step_of_empty {s : State} (h : s.progress = .idle) (hinbox : s.inbox = []) (hr : s.running = false) :
    step s = doMicroStep s.clearOutputs := by
  simp [step, stepWith, stepIdle, h, hinbox, hr]

/-- Putting a machine's own inbox into it changes nothing. -/
theorem State.withInbox_inbox_self (s : State) : s.withInbox s.inbox = s := rfl

/-- Where the host lets a running machine be, the next tick is due (R129). -/
theorem step_of_due {s : State} (h : s.progress = .idle) (hr : s.running = true)
    (hinbox : s.inbox = [] ∨ s.inbox.head? = some .quiet) :
    step s = doTick (s.clearOutputs.withInbox s.inbox.tail) := by
  rcases hinbox with hinbox | hinbox
  · have htail : s.inbox.tail = s.clearOutputs.inbox := by simp [hinbox]
    rw [htail, State.withInbox_inbox_self]
    simp [step, stepWith, stepIdle, h, hinbox, hr]
  · obtain ⟨rest, hrest⟩ := List.head?_eq_some_iff.mp hinbox
    simp [step, stepWith, stepIdle, h, hrest, doQuiet, hr]

/-- Where the host lets a machine be that does not run, nothing happens (R243). -/
theorem step_of_quiet {s : State} (h : s.progress = .idle) (hr : s.running = false)
    (hinbox : s.inbox.head? = some .quiet) : step s = .next (s.clearOutputs.withInbox s.inbox.tail) := by
  obtain ⟨rest, hrest⟩ := List.head?_eq_some_iff.mp hinbox
  simp [step, stepWith, stepIdle, h, hrest, doQuiet, hr]

theorem step_stepsAs (s : State) : StepsAs s (step s) := by
  cases h : s.progress with
  | macroStep => exact step_of_macroStep h ▸ .macroStep h
  | tick => exact step_of_tick h ▸ .tick s.inbox (.inl h)
  | idle =>
    cases hhead : s.inbox.head? with
    | none =>
      have hinbox := List.head?_eq_none_iff.mp hhead
      cases hr : s.running with
      | true => exact step_of_due h hr (.inl hinbox) ▸ .tick _ (.inr ⟨h, hr⟩)
      | false => exact step_of_empty h hinbox hr ▸ .microStep h hr
    | some input =>
      cases input with
      | command c => exact step_of_asks ⟨h, hhead⟩ ▸ .command c ⟨h, hhead⟩
      | quiet =>
        cases hr : s.running with
        | true => exact step_of_due h hr (.inr hhead) ▸ .tick _ (.inr ⟨h, hr⟩)
        | false => exact step_of_quiet h hr hhead ▸ .quiet _ h hr

/-! ## What performs micro-steps -/

theorem doMicroStep_eq (s : State) : doMicroStep s = .next (microStep s).answerOk := by
  rw [doMicroStep, microStepExec_eq, andThen_next]

theorem microStep_answerOk_hostStep (s : State) : HostStep s (microStep s).answerOk :=
  (microStep_coreStep s).hostStep.trans (State.answerOk_hostStep _)

/-- A `macroStep`, or its rest, is steps of the core and then the settling of R126. -/
theorem exists_doMacroStep (s : State) :
    ∃ u, runMacro Config.burst s = .next u ∧ CoreStep s u ∧ doMacroStep s = .next (settleMacro u) := by
  obtain ⟨u, hu, hcore⟩ := exists_runMacro Config.burst s
  exact ⟨u, hu, hcore, by rw [doMacroStep, hu, andThen_next]⟩

/-- A tick, or its rest, is steps of the core and then the settling of R129. -/
theorem exists_doTick (s : State) :
    ∃ u, runMacro Config.burst s = .next u ∧ CoreStep s u ∧ doTick s = .next (settleTick u) := by
  obtain ⟨u, hu, hcore⟩ := exists_runMacro Config.burst s
  exact ⟨u, hu, hcore, by rw [doTick, hu, andThen_next]⟩

theorem settleMacro_of_ended {u : State} (h : u.macroEnded = true) :
    settleMacro u = (u.withProgress .idle).answerOk := if_pos h

theorem settleMacro_of_not_ended {u : State} (h : u.macroEnded = false) :
    settleMacro u = u.withProgress .macroStep := if_neg (by simp [h])

theorem settleTick_of_halted {u : State} (h : u.halted = true) :
    settleTick u = (u.withProgress .idle).setRunning false := by
  simp [settleTick, State.macroEnded, h]

theorem settleTick_of_ended {u : State} (h : u.macroEnded = true) (hh : u.halted = false) :
    settleTick u = u.withProgress .idle := by
  simp [settleTick, h, hh]

theorem settleTick_of_not_ended {u : State} (h : u.macroEnded = false) : settleTick u = u.withProgress .tick :=
  if_neg (by simp [h])

/-- A halted machine has ended its `macroStep` (R126). -/
theorem State.macroEnded_of_halted {s : State} (h : s.halted = true) : s.macroEnded = true := by
  simp [State.macroEnded, h]

/-! ## Commands -/

/-- The parameters of this hardware meet the invariants of R40. -/
theorem paramsWf_params : paramsWf Config.params = true := by decide

/-- Every command answers a next state (log entry 5). -/
theorem exists_perform (p : Config.Params) (c : Command) (s : State) : ∃ t, perform p c s = .next t := by
  cases c with
  | microStep => exact ⟨_, doMicroStep_eq s⟩
  | macroStep =>
    obtain ⟨u, -, -, hu⟩ := exists_doMacroStep s
    exact ⟨_, hu⟩
  | _ => exact ⟨_, rfl⟩

/-- What every command but `macroStep` and `resetMachine` keeps. -/
theorem perform_hostStep {p : Config.Params} (hp : paramsWf p = true) {c : Command} (hmacro : c ≠ .macroStep)
    (hreset : c ≠ .resetMachine) {s t : State} (h : perform p c s = .next t) : HostStep s t := by
  cases c with
  | macroStep => exact absurd rfl hmacro
  | resetMachine => exact absurd rfl hreset
  | microStep => cases (doMicroStep_eq s).symm.trans h; exact microStep_answerOk_hostStep s
  | run delay => cases h; exact (s.setRunning_hostStep true).trans (State.answer_hostStep _ _)
  | stop => cases h; exact hostStop_hostStep s
  | manualStep x => cases h; exact hostManualStep_hostStep x s
  | memoryRead a => cases h; exact hostMemoryRead_hostStep a s
  | memoryWrite a v => cases h; exact hostMemoryWrite_hostStep a v s
  | lastUsedAddress => cases h; exact s.answer_hostStep _
  | memoryReset => cases h; exact (s.setMemory_hostStep rfl).trans (State.answer_hostStep _ _)
  | microcodeRead a => cases h; exact hostMicrocodeRead_hostStep a s
  | microcodeWrite a v => cases h; exact State.conclude_hostStep fun _ => State.portMicrocodeWrite_hostStep
  | instructionName k => cases h; exact hostInstructionName_hostStep k s
  | setInstructionName k n => cases h; exact hostSetInstructionName_hostStep k n s
  | microcodeReset => cases h; exact hostMicrocodeReset_hostStep hp s
  | insertRowAbove selected fixup => cases h; exact hostInsertRowAbove_hostStep p selected fixup s
  | deleteRow selected fixup => cases h; exact hostDeleteRow_hostStep p selected fixup s
  | recorderStart a n => cases h; exact hostRecorderStart_hostStep a n s
  | recorderRecord x => cases h; exact State.conclude_hostStep fun _ => State.record_hostStep
  | recorderStop => cases h; exact (s.withCursor_hostStep none).trans (State.answer_hostStep _ _)
  | importSnapshot x => cases h; exact hostImport_hostStep x s
  | importRam ls => cases h; exact hostImportRam_hostStep ls s
  | importMc ls => cases h; exact hostImportMc_hostStep ls s
  | exportSnapshot | exportRam | exportMc | readState => cases h; exact s.answer_hostStep _

/-- A command the gate refuses changes nothing but the response (R242). -/
theorem issue_of_refused {p : Config.Params} {c : Command} {s : State} (hr : s.running = true)
    (hc : acceptedWhileRunning p c = false) : issue p c s = .next (s.answer .rejectedWhileRunning) := by
  simp [issue, hr, hc]

/-- A command is refused, of a machine that runs, or it is performed (R242). -/
theorem issue_cases (p : Config.Params) (c : Command) (s : State) :
    (s.running = true ∧ acceptedWhileRunning p c = false ∧ issue p c s = .next (s.answer .rejectedWhileRunning)) ∨
    ((s.running = true → acceptedWhileRunning p c = true) ∧ issue p c s = perform p c s) := by
  cases hr : s.running with
  | false => exact .inr ⟨nofun, issue_of_not_running hr p c⟩
  | true =>
    cases hc : acceptedWhileRunning p c with
    | false => exact .inl ⟨rfl, rfl, issue_of_refused hr hc⟩
    | true => exact .inr ⟨fun _ => rfl, issue_of_accepted hc s⟩

/-- Settles O36, by the kinds of step. -/
theorem everyStepHasANextState : Obligations.EveryStepHasANextState := by
  intro s
  have hstep := step_stepsAs s
  generalize step s = o at hstep ⊢
  cases hstep with
  | macroStep =>
    obtain ⟨u, -, -, hu⟩ := exists_doMacroStep s.clearOutputs
    exact ⟨_, hu⟩
  | tick l =>
    obtain ⟨u, -, -, hu⟩ := exists_doTick (s.clearOutputs.withInbox l)
    exact ⟨_, hu⟩
  | microStep => exact ⟨_, doMicroStep_eq _⟩
  | quiet => exact ⟨_, rfl⟩
  | command c =>
    obtain ⟨-, -, hissue⟩ | ⟨-, hissue⟩ := issue_cases Config.params c (s.clearOutputs.withInbox s.inbox.tail)
    · exact ⟨_, hissue⟩
    · rw [hissue]
      exact exists_perform _ _ _

/-! ## The halted state -/

/-- From `s` to `t` a halted machine stays halted, with the record of its end (R31, R340). -/
def KeepsEnd (s t : State) : Prop := s.halted = true → t.halted = true ∧ t.ending = s.ending

/-- Settling what the micro-steps left keeps the flag and the record. -/
theorem CoreStep.settleMacro_keepsEnd {s u : State} (h : CoreStep s u) : KeepsEnd s (settleMacro u) := by
  intro hs
  obtain ⟨hu, hend⟩ := h.halted hs
  rw [settleMacro_of_ended (State.macroEnded_of_halted hu)]
  obtain ⟨hv, hend'⟩ := (u.withProgress .idle).answerOk_hostStep.halted hu
  exact ⟨hv, hend'.trans hend⟩

theorem CoreStep.settleTick_keepsEnd {s u : State} (h : CoreStep s u) : KeepsEnd s (settleTick u) := by
  intro hs
  obtain ⟨hu, hend⟩ := h.halted hs
  rw [settleTick_of_halted hu]
  exact ⟨hu, hend⟩

/-- A performed command other than `resetMachine` keeps the halted state. -/
theorem perform_keepsEnd {c : Command} (hreset : c ≠ .resetMachine) {s t : State}
    (h : perform Config.params c s = .next t) : KeepsEnd s t := by
  by_cases hmacro : c = .macroStep
  · subst hmacro
    obtain ⟨u, -, hcore, hu⟩ := exists_doMacroStep s
    cases hu.symm.trans h
    exact hcore.settleMacro_keepsEnd
  · exact (perform_hostStep paramsWf_params hmacro hreset h).halted

/-- A step that is no `resetMachine` of a machine that does not run keeps the halted state. -/
theorem step_keepsEnd {s t : State} (h : step s = .next t) (hreset : ¬ (s.asks .resetMachine ∧ s.running = false)) :
    KeepsEnd s t := by
  have hstep := step_stepsAs s
  rw [h] at hstep
  generalize ho : (Host.Outcome.next t : Host.Outcome State Fault Refusal) = o at hstep
  cases hstep with
  | macroStep =>
    obtain ⟨u, -, hcore, hu⟩ := exists_doMacroStep s.clearOutputs
    cases ho.trans hu
    exact hcore.settleMacro_keepsEnd
  | tick l =>
    obtain ⟨u, -, hcore, hu⟩ := exists_doTick (s.clearOutputs.withInbox l)
    cases ho.trans hu
    exact hcore.settleTick_keepsEnd
  | microStep =>
    cases ho.trans (doMicroStep_eq _)
    exact (microStep_answerOk_hostStep s.clearOutputs).halted
  | quiet => cases ho; exact (⟨·, rfl⟩)
  | command c hasks =>
    obtain ⟨-, -, hissue⟩ | ⟨hgate, hissue⟩ := issue_cases Config.params c (s.clearOutputs.withInbox s.inbox.tail)
    · cases ho.trans hissue
      exact (⟨·, rfl⟩)
    · have hc : c ≠ .resetMachine := by
        rintro rfl
        exact hreset ⟨hasks, Bool.eq_false_iff.mpr fun hr => Bool.false_ne_true (hgate hr)⟩
      have hkeeps : KeepsEnd (s.clearOutputs.withInbox s.inbox.tail) t := perform_keepsEnd hc (ho.trans hissue).symm
      exact hkeeps

/-- An idle machine with the parameters `p` takes the command out of its inbox and issues it (R240). -/
theorem stepWith_of_asks {s : State} {c : Command} (h : s.asks c) (p : Config.Params) :
    stepWith p s = issue p c (s.clearOutputs.withInbox s.inbox.tail) := by
  obtain ⟨hidle, hhead⟩ := h
  obtain ⟨rest, hinbox⟩ := List.head?_eq_some_iff.mp hhead
  simp [stepWith, stepIdle, hidle, hinbox]

/-- A machine that does not run performs what it is asked (R242). -/
theorem stepWith_of_asks_not_running {s : State} {c : Command} (h : s.asks c) (hr : s.running = false)
    (p : Config.Params) : stepWith p s = perform p c (s.clearOutputs.withInbox s.inbox.tail) :=
  (stepWith_of_asks h p).trans (issue_of_not_running (s := s.clearOutputs.withInbox s.inbox.tail) hr p c)

theorem step_of_asks_not_running {s : State} {c : Command} (h : s.asks c) (hr : s.running = false) :
    step s = perform Config.params c (s.clearOutputs.withInbox s.inbox.tail) :=
  stepWith_of_asks_not_running h hr Config.params

/-- Settles O34: only `resetMachine` on a machine that does not run clears Halted, and every other step keeps it with
the record. -/
theorem onlyResetMachineClearsHalted : Obligations.OnlyResetMachineClearsHalted := by
  intro s t hs h
  by_cases hreset : s.asks .resetMachine ∧ s.running = false
  · cases (step_of_asks_not_running hreset.1 hreset.2).symm.trans h
    exact ⟨fun _ => hreset, nofun⟩
  · obtain ⟨ht, hend⟩ := step_keepsEnd h hreset hs
    exact ⟨fun hf => by simp [ht] at hf, fun _ => hend⟩

/-- Settles O39: the command passes the gate of a machine that does not run, and its effect is that of R332. -/
theorem resetMachineRestoresRegistersOnly : Obligations.ResetMachineRestoresRegistersOnly := by
  intro s h hr
  exact ⟨_, step_of_asks_not_running h hr, rfl, rfl, rfl, rfl, rfl, rfl, rfl, rfl, rfl, rfl, rfl, rfl, hr, rfl⟩

/-! ## The invariants of R40 -/

theorem State.inv_iff (s : State) : s.inv = true ↔ s.storesWf ∧ s.progressOk = true ∧ s.recordsOk := by
  simp only [State.inv, State.storesWf, State.recordsOk, Bool.and_eq_true, Bool.or_eq_true, beq_iff_eq,
    Option.isNone_iff_eq_none, Option.isSome_iff_ne_none, ne_eq, ← or_iff_not_imp_left]
  tauto

theorem State.progressOk_of_idle {s : State} (h : s.progress = .idle) : s.progressOk = true := by
  simp [State.progressOk, h]

/-- What keeps the forms and the records of an idle machine keeps the invariants. -/
theorem HostStep.inv {s t : State} (h : HostStep s t) (hidle : s.progress = .idle) (hs : s.storesWf)
    (hrec : s.recordsOk) : t.inv = true :=
  t.inv_iff.mpr ⟨h.storesWf hs, State.progressOk_of_idle (h.progress.trans hidle), h.recordsOk hrec⟩

/-- The micro-steps of a `macroStep` on a machine that does not run keep the invariants: what stays in progress has not
ended. -/
theorem CoreStep.settleMacro_inv {s u : State} (h : CoreStep s u) (hs : s.storesWf) (hrec : s.recordsOk)
    (hr : s.running = false) : (settleMacro u).inv = true := by
  have hstores : u.storesWf := h.storesWf hs
  have hrecords : u.recordsOk := h.recordsOk hrec
  cases hended : u.macroEnded with
  | true =>
    rw [settleMacro_of_ended hended]
    exact (State.answerOk_hostStep _).inv (s := u.withProgress .idle) rfl hstores hrecords
  | false =>
    rw [settleMacro_of_not_ended hended]
    refine (State.inv_iff _).mpr ⟨hstores, ?_, hrecords⟩
    simp [State.progressOk, hended, h.host.1, hr]

/-- The micro-steps of a tick of a run keep the invariants. -/
theorem CoreStep.settleTick_inv {s u : State} (h : CoreStep s u) (hs : s.storesWf) (hrec : s.recordsOk)
    (hr : s.running = true) : (settleTick u).inv = true := by
  have hstores : u.storesWf := h.storesWf hs
  have hrecords : u.recordsOk := h.recordsOk hrec
  cases hended : u.macroEnded with
  | true =>
    cases hh : u.halted with
    | true =>
      rw [settleTick_of_halted hh]
      exact (State.setRunning_hostStep _ _).inv (s := u.withProgress .idle) rfl hstores hrecords
    | false =>
      rw [settleTick_of_ended hended hh]
      exact (HostStep.refl _).inv (s := u.withProgress .idle) rfl hstores hrecords
  | false =>
    rw [settleTick_of_not_ended hended]
    refine (State.inv_iff _).mpr ⟨hstores, ?_, hrecords⟩
    simp [State.progressOk, hended, h.host.1, hr]

/-- `resetMachine` keeps the forms of the stores, and starts the records anew (R332). -/
theorem hostResetMachine_inv {s : State} (hidle : s.progress = .idle) (hs : s.storesWf) :
    (hostResetMachine s).inv = true :=
  (State.inv_iff _).mpr ⟨hs, State.progressOk_of_idle hidle, nofun, rfl⟩

/-- A performed command keeps the invariants; `macroStep` is not performed on a machine that runs (R242). -/
theorem perform_inv {c : Command} {s t : State} (h : perform Config.params c s = .next t)
    (hgate : s.running = true → acceptedWhileRunning Config.params c = true) (hidle : s.progress = .idle)
    (hs : s.storesWf) (hrec : s.recordsOk) : t.inv = true := by
  by_cases hmacro : c = .macroStep
  · subst hmacro
    obtain ⟨u, -, hcore, hu⟩ := exists_doMacroStep s
    cases hu.symm.trans h
    exact hcore.settleMacro_inv hs hrec (Bool.eq_false_iff.mpr fun hr => Bool.false_ne_true (hgate hr))
  · by_cases hreset : c = .resetMachine
    · subst hreset
      cases h
      exact hostResetMachine_inv hidle hs
    · exact (perform_hostStep paramsWf_params hmacro hreset h).inv hidle hs hrec

/-- Settles O37, by the kinds of step: each keeps the forms and the records, and leaves in progress only what has not
ended. -/
theorem everyStepKeepsTheInvariant : Obligations.EveryStepKeepsTheInvariant := by
  intro s t hinv h
  obtain ⟨hs, hprogress, hrec⟩ := s.inv_iff.mp hinv
  have hstep := step_stepsAs s
  rw [h] at hstep
  generalize ho : (Host.Outcome.next t : Host.Outcome State Fault Refusal) = o at hstep
  cases hstep with
  | macroStep hmacro =>
    have hr : s.running = false := by simp_all [State.progressOk]
    obtain ⟨u, -, hcore, hu⟩ := exists_doMacroStep s.clearOutputs
    cases ho.trans hu
    exact hcore.settleMacro_inv hs hrec hr
  | tick l htick =>
    have hr : s.running = true := by
      rcases htick with htick | ⟨-, hr⟩
      · simp_all [State.progressOk]
      · exact hr
    obtain ⟨u, -, hcore, hu⟩ := exists_doTick (s.clearOutputs.withInbox l)
    cases ho.trans hu
    exact hcore.settleTick_inv hs hrec hr
  | microStep hidle =>
    cases ho.trans (doMicroStep_eq _)
    exact (microStep_answerOk_hostStep s.clearOutputs).inv hidle hs hrec
  | quiet l hidle =>
    cases ho
    exact (State.withInbox_hostStep s.clearOutputs l).inv hidle hs hrec
  | command c hasks =>
    have hidle : s.progress = .idle := hasks.1
    obtain ⟨-, -, hissue⟩ | ⟨hgate, hissue⟩ := issue_cases Config.params c (s.clearOutputs.withInbox s.inbox.tail)
    · cases ho.trans hissue
      exact (State.answer_hostStep (s.clearOutputs.withInbox s.inbox.tail) _).inv hidle hs hrec
    · exact perform_inv (ho.trans hissue).symm hgate hidle hs hrec

/-- Settles O38: the empty Memory, the reference Microcode and the default names have their forms. -/
theorem resetMeetsTheInvariant : Obligations.ResetMeetsTheInvariant := by
  have hp := paramsWf_params
  simp only [paramsWf, Bool.and_eq_true] at hp
  obtain ⟨⟨hmem, hcode⟩, hnames⟩ := hp
  exact State.reset.inv_iff.mpr ⟨⟨hmem, hcode, hnames⟩, rfl, nofun, rfl⟩

end Sys2Proof.Machine
end

