-- ==== Sys2Proof/Proofs/MacroLoop.lean ====
section
/-! SUPPORT. The loop of `macroStep` is `microStep` iterated, in one step of the model or in several (R126, log entry
2), and the steps that perform it: a `macroStep`, a tick, a run on a halted machine. -/

namespace Sys2Proof.Machine

/-- From `s` to `t` one micro-step or more are performed, the loop's test holding after none but the last; where it does
not hold after the last, at least `n` were (R126). -/
def Iterates (n : Nat) (s t : State) : Prop :=
  ∃ k, 1 ≤ k ∧ t = microStep^[k] s ∧ (∀ j, 1 ≤ j → j < k → (microStep^[j] s).macroEnded = false) ∧
    (t.macroEnded = true ∨ n ≤ k)

theorem Iterates.mono {m n : Nat} {s t : State} (h : Iterates n s t) (hmn : m ≤ n) : Iterates m s t := by
  obtain ⟨k, hk, ht, hbefore, hend⟩ := h
  exact ⟨k, hk, ht, hbefore, hend.imp_right hmn.trans⟩

/-- One micro-step that ends the loop, or that is all there was to perform. -/
theorem Iterates.one {n : Nat} {s : State} (h : (microStep s).macroEnded = true ∨ n ≤ 1) :
    Iterates n s (microStep s) :=
  ⟨1, Nat.le_refl 1, rfl, fun j h1 h2 => absurd h1 (by omega), h⟩

/-- One micro-step more before the others, where it does not end the loop. -/
theorem Iterates.cons {n : Nat} {s t : State} (h : Iterates n (microStep s) t)
    (hgo : (microStep s).macroEnded = false) :
    Iterates (n + 1) s t := by
  obtain ⟨k, hk, ht, hbefore, hend⟩ := h
  refine ⟨k + 1, Nat.le_add_left 1 k, ht, fun j h1 h2 => ?_, hend.imp_right Nat.succ_le_succ⟩
  obtain ⟨j, rfl⟩ := Nat.exists_eq_add_of_le' h1
  cases j with
  | zero => exact hgo
  | succ j => exact hbefore (j + 1) (by omega) (by omega)

theorem runMicro_iterates (n : Nat) (s : State) : Iterates (n + 1) s (runMicro (n + 1) s) := by
  induction n generalizing s with
  | zero =>
    have hone : runMicro 1 s = microStep s := by simp [runMicro]
    exact hone ▸ .one (.inr (Nat.le_refl 1))
  | succ n ih =>
    cases h : (microStep s).macroEnded with
    | true => exact runMicro_stop h ▸ .one (.inl h)
    | false => exact runMicro_go h ▸ (ih (microStep s)).cons h

/-- At a dispatch the micro-steps go on in the meaning of the Word in `IR`, which is id 5's micro-step and those after
it (R193, R210). -/
theorem runMacro_of_atDispatch {s : State} (h : s.atDispatch = true) (n : Nat) :
    runMacro (n + 1) s = exec (instrOfWord s.ir) s := by
  simp [runMacro, h]

theorem runMacro_of_ended {s : State} (h : s.atDispatch = false) (hend : (microStep s).macroEnded = true) (n : Nat) :
    runMacro (n + 1) s = .next (microStep s) := by
  simp [runMacro, h, microStepExec_eq, hend]

theorem runMacro_of_not_ended {s : State} (h : s.atDispatch = false) (hend : (microStep s).macroEnded = false)
    (n : Nat) : runMacro (n + 1) s = runMacro n (microStep s) := by
  simp [runMacro, h, microStepExec_eq, hend]

/-- The Word in `IR`, executed at a dispatch, is `microStep` iterated. -/
theorem exec_atDispatch {s : State} (h : s.atDispatch = true) :
    ∃ t, exec (instrOfWord s.ir) s = .next t ∧ Iterates (Config.burst + 1) s t := by
  refine ⟨_, exec_wordInstr _ _ _, ?_⟩
  have hdispatch := dispatchWord_eq h
  rw [State.irOpcode, State.irOperand] at hdispatch
  rw [hdispatch]
  split
  case isTrue hend => exact .one (.inl hend)
  case isFalse hend => exact (runMicro_iterates _ _).cons (Bool.not_eq_true _ ▸ hend)

/-- The micro-steps of one step of the model are `microStep` iterated (R126, log entry 2). -/
theorem runMacro_iterates {n : Nat} (hn : n ≤ Config.burst) (s : State) :
    ∃ t, runMacro (n + 1) s = .next t ∧ Iterates (n + 1) s t := by
  induction n generalizing s with
  | zero =>
    cases hd : s.atDispatch with
    | true =>
      obtain ⟨t, ht, hiter⟩ := exec_atDispatch hd
      exact ⟨t, (runMacro_of_atDispatch hd 0).trans ht, hiter.mono (by omega)⟩
    | false =>
      refine ⟨microStep s, ?_, .one (.inr (Nat.le_refl 1))⟩
      cases hend : (microStep s).macroEnded with
      | true => exact runMacro_of_ended hd hend 0
      | false => exact runMacro_of_not_ended hd hend 0
  | succ n ih =>
    cases hd : s.atDispatch with
    | true =>
      obtain ⟨t, ht, hiter⟩ := exec_atDispatch hd
      exact ⟨t, (runMacro_of_atDispatch hd _).trans ht, hiter.mono (by omega)⟩
    | false =>
      cases hend : (microStep s).macroEnded with
      | true => exact ⟨_, runMacro_of_ended hd hend _, .one (.inl hend)⟩
      | false =>
        obtain ⟨t, ht, hiter⟩ := ih (by omega) (microStep s)
        exact ⟨t, (runMacro_of_not_ended hd hend _).trans ht, hiter.cons hend⟩

/-- Answering Ok unless a fault has answered (R126). -/
theorem State.answerOk_eq (s : State) : s.answerOk = s.answer (s.response.getD .ok) := by
  unfold State.answerOk
  split
  case h_1 h => rw [h]; rfl
  case h_2 r h => rw [h, Option.getD_some, State.answer, ← h]

/-- The settling of a `macroStep` command is what R126 says of its end. -/
theorem settleMacro_endsMacroStep (u : State) : EndsMacroStep u (settleMacro u) := by
  cases h : u.macroEnded with
  | true =>
    rw [settleMacro_of_ended h, State.answerOk_eq]
    exact ⟨rfl, rfl, rfl, rfl, rfl, fun _ => ⟨rfl, rfl⟩, fun hgo => (nomatch h.symm.trans hgo)⟩
  | false =>
    rw [settleMacro_of_not_ended h]
    exact ⟨rfl, rfl, rfl, rfl, rfl, fun hend => (nomatch h.symm.trans hend), fun _ => ⟨rfl, rfl⟩⟩

/-- The settling of a tick of a run is what R129 says of its end. -/
theorem settleTick_endsTick {u : State} (hr : u.running = true) : EndsTick u (settleTick u) := by
  cases hh : u.halted with
  | true =>
    have hend := State.macroEnded_of_halted hh
    rw [settleTick_of_halted hh]
    exact ⟨rfl, rfl, rfl, rfl, rfl, fun _ => ⟨rfl, by simp [hh]⟩, fun hgo => (nomatch hend.symm.trans hgo),
      by simp [hh]⟩
  | false =>
    cases h : u.macroEnded with
    | true =>
      rw [settleTick_of_ended h hh]
      exact ⟨rfl, rfl, rfl, rfl, rfl, fun _ => ⟨rfl, by simp [hh, hr]⟩, fun hgo => (nomatch h.symm.trans hgo),
        by simp [hh]⟩
    | false =>
      rw [settleTick_of_not_ended h]
      exact ⟨rfl, rfl, rfl, rfl, rfl, fun hend => (nomatch h.symm.trans hend), fun _ => ⟨rfl, hr⟩, by simp [hh]⟩

/-- The step that performs `macroStep`, or its rest: the micro-steps, and then the end R126 gives them. -/
theorem doMacroStep_endsMacroStep (s : State) :
    ∃ u t, runMacro Config.burst s = .next u ∧ doMacroStep s = .next t ∧ EndsMacroStep u t ∧ t.inbox = s.inbox := by
  obtain ⟨u, hu, hcore, ht⟩ := exists_doMacroStep s
  have hends := settleMacro_endsMacroStep u
  obtain ⟨-, -, -, -, hinbox, -⟩ := hcore.host
  exact ⟨u, _, hu, ht, hends, hends.2.1.trans hinbox⟩

/-- The step that performs a tick of a run, or its rest: the micro-steps, and then the end R129 gives them. -/
theorem doTick_endsTick {s : State} (hr : s.running = true) :
    ∃ u t, runMacro Config.burst s = .next u ∧ doTick s = .next t ∧ EndsTick u t ∧ t.inbox = s.inbox := by
  obtain ⟨u, hu, hcore, ht⟩ := exists_doTick s
  obtain ⟨hrun, -, -, -, hinbox, -⟩ := hcore.host
  have hends := settleTick_endsTick (hrun.trans hr)
  exact ⟨u, _, hu, ht, hends, hends.2.1.trans hinbox⟩

/-- Settles O19: the micro-steps of one step are `microStep` iterated, and the two kinds of step that perform them for a
`macroStep` end it or leave it in progress. -/
theorem macroStepIteratesMicroStep : Obligations.MacroStepIteratesMicroStep := by
  intro s
  refine ⟨?loop, fun hasks hr => ?command, fun hprogress => ?rest⟩
  case loop =>
    obtain ⟨t, ht, k, hk, hiter, hbefore, hend⟩ := runMacro_iterates (n := 199) (by decide) s
    exact ⟨t, k, ht, hk, hiter, hbefore, hend⟩
  case command =>
    rw [step_of_asks_not_running hasks hr]
    exact doMacroStep_endsMacroStep _
  case rest =>
    rw [step_of_macroStep hprogress]
    exact doMacroStep_endsMacroStep _

/-- Settles O46: the two kinds of step that perform a tick end it or leave it in progress, and letting a machine be that
does not run changes nothing. -/
theorem tickRunsOneMacroStep : Obligations.TickRunsOneMacroStep := by
  refine ⟨fun s hidle hr hinbox => ?due, fun s hprogress hr => ?rest, fun s hidle hr hquiet => ?quiet⟩
  case due =>
    rw [step_of_due hidle hr hinbox]
    exact doTick_endsTick (s := s.clearOutputs.withInbox s.inbox.tail) hr
  case rest =>
    rw [step_of_tick hprogress]
    exact doTick_endsTick (s := s.clearOutputs) hr
  case quiet => exact ⟨_, step_of_quiet hidle hr hquiet, rfl, rfl, rfl, rfl⟩

/-- Settles O17: the micro-step of the machine is `exec` of what its slot decodes to. -/
theorem stepRunsTheDecodedMicroOp : Obligations.StepRunsTheDecodedMicroOp := by
  intro s i hasked hh hr hdecode
  have hstep : step s = doMicroStep (s.clearOutputs.withInbox s.inbox.tail) := by
    rcases hasked with hasks | ⟨hidle, hinbox⟩
    · exact step_of_asks_not_running hasks hr
    · have htail : s.inbox.tail = s.clearOutputs.inbox := by simp [hinbox]
      rw [htail, State.withInbox_inbox_self]
      exact step_of_empty hidle hinbox hr
  rw [hstep]
  generalize hu : s.clearOutputs.withInbox s.inbox.tail = u
  have hhu : u.halted = false := hu ▸ hh
  have hdecodeU : decodeSlot u.slotId = .ok i := hu ▸ hdecode
  refine ⟨_, exec_of_decodeSlot hdecodeU u, ?_⟩
  rw [doMicroStep_eq, microStep_eq_runId hhu]

/-- Settles O45: both commands pass the gate, and each is one write of Running at most. -/
theorem runAndStopSwitchRunning : Obligations.RunAndStopSwitchRunning := by
  refine ⟨fun s d hasks hr => ⟨_, step_of_asks_not_running hasks hr, rfl, rfl, rfl⟩, fun s hasks => ?stop⟩
  refine ⟨hostStop (s.clearOutputs.withInbox s.inbox.tail), ?_, ?_⟩
  · rw [step_of_asks hasks, issue_of_accepted rfl]
    rfl
  · cases hr : s.running with
    | true => simp [hostStop, hr, State.setRunning, State.answer, State.withInbox, State.clearOutputs]
    | false =>
      have hself : { s.toArch with running := false } = s.toArch := by rw [← hr]
      simp [hostStop, hr, State.answer, State.withInbox, State.clearOutputs, hself]

/-- The tick of a halted machine reports HaltedNoOp and ends the run (R121, R131). -/
theorem doTick_of_halted {s : State} (hh : s.halted = true) :
    doTick s = .next (((s.emit .haltedNoOp).withProgress .idle).setRunning false) := by
  have hd : s.atDispatch = false := by simp [State.atDispatch, hh]
  have hnoop : microStep s = s.emit .haltedNoOp := microStep_halted hh
  have hend : (microStep s).macroEnded = true := hnoop ▸ State.macroEnded_of_halted hh
  have hrun : runMacro Config.burst s = .next (s.emit .haltedNoOp) := hnoop ▸ runMacro_of_ended hd hend 199
  rw [doTick, hrun, andThen_next]
  exact congrArg _ (settleTick_of_halted hh)

/-- Settles O47: `run` sets Running, and the tick that is then due meets the halted machine and clears it. -/
theorem runOnHaltedMachineChangesNothing : Obligations.RunOnHaltedMachineChangesNothing := by
  intro s d hidle hinbox hh hr
  have hasks : s.asks (.run d) := ⟨hidle, by simp [hinbox]⟩
  have hfirst : step s = .next (hostRun d (s.clearOutputs.withInbox s.inbox.tail)) := step_of_asks_not_running hasks hr
  have hself : { s.toArch with running := false } = s.toArch := by rw [← hr]
  generalize ht : hostRun d (s.clearOutputs.withInbox s.inbox.tail) = t at hfirst
  have htail : t.inbox = [] := by simp [← ht, hostRun, hinbox]
  have hdue := step_of_due (s := t) (ht ▸ hidle) (ht ▸ rfl) (.inl htail)
  rw [doTick_of_halted (ht ▸ hh)] at hdue
  exact ⟨t, _, hfirst, hdue, by rw [← hself, ← ht]; rfl, ht ▸ rfl, rfl⟩

end Sys2Proof.Machine
end

