-- ==== Sys2Proof/Proofs/BlockRun.lean ====
section
/-! SUPPORT. A run of micro-steps over slots that hold known ids: as long as the ids count `MC` up, the micro-steps are
their effects one after the other, and none of them ends the loop of `macroStep`. What a Word in `IR` means is the dispatch,
such a run over the opcode's block, and the id that ends it. -/

namespace Sys2Proof.Machine

/-- `n` micro-steps lead from `s` to `t`, and none of them ends the loop of `macroStep` (R126). -/
def Runs (n : Nat) (s t : State) : Prop :=
  microStep^[n] s = t ∧ ∀ j, 1 ≤ j → j ≤ n → (microStep^[j] s).macroEnded = false

theorem Runs.refl (s : State) : Runs 0 s s := ⟨rfl, fun j h1 h2 => absurd h1 (by omega)⟩

theorem Runs.one {s t : State} (h : microStep s = t) (hgo : t.macroEnded = false) : Runs 1 s t := by
  refine ⟨h, fun j h1 h2 => ?_⟩
  obtain rfl : j = 1 := by omega
  rwa [Function.iterate_one, h]

theorem Runs.trans {m n : Nat} {s u t : State} (h : Runs m s u) (h' : Runs n u t) : Runs (n + m) s t := by
  obtain ⟨hu, hbefore⟩ := h
  obtain ⟨ht, hbefore'⟩ := h'
  refine ⟨by rw [Function.iterate_add_apply, hu, ht], fun j h1 h2 => ?_⟩
  by_cases hj : j ≤ m
  · exact hbefore j h1 hj
  · obtain ⟨i, rfl⟩ := Nat.exists_eq_add_of_le' (not_le.mp hj).le
    rw [Function.iterate_add_apply, hu]
    exact hbefore' i (by omega) (by omega)

/-- The loop goes on where a run stands (R126). -/
theorem Runs.runMicro {n : Nat} {s t : State} (h : Runs n s t) (k : Nat) : runMicro (k + n) s = runMicro k t := by
  induction n generalizing s with
  | zero => rw [← h.1]; rfl
  | succ n ih =>
    obtain ⟨ht, hbefore⟩ := h
    rw [← Nat.add_assoc, runMicro_go (hbefore 1 (by omega) (by omega))]
    exact ih ⟨ht, fun j h1 h2 => hbefore (j + 1) (by omega) (by omega)⟩

/-- After a run, the micro-step that ends the loop is its last. -/
theorem Runs.runMicro_last {n k : Nat} {s t : State} (h : Runs n s t) (hend : (microStep t).macroEnded = true)
    (hk : n < k) : Machine.runMicro k s = microStep t := by
  obtain ⟨i, rfl⟩ := Nat.exists_eq_add_of_lt hk
  rw [show n + i + 1 = (i + 1) + n by omega, h.runMicro, runMicro_stop hend]

/-- From the address `m` on, Microcode holds these ids. -/
def State.holds (s : State) (m : Nat) (ids : List Nat) : Prop :=
  ∀ i, i < ids.length → s.mcRead (m + i) = ids.getD i 0

theorem State.holds_cons {s : State} {m id : Nat} {ids : List Nat} :
    s.holds m (id :: ids) ↔ s.mcRead m = id ∧ s.holds (m + 1) ids := by
  constructor
  · intro h
    exact ⟨h 0 (by simp), fun i hi => by simpa [Nat.add_assoc, Nat.add_comm 1] using h (i + 1) (by simpa using hi)⟩
  · rintro ⟨hid, hids⟩ i hi
    cases i with
    | zero => exact hid
    | succ i => simpa [Nat.add_assoc, Nat.add_comm 1] using hids i (by simpa using hi)

theorem State.holds_append {s : State} {m : Nat} {ids ids' : List Nat} :
    s.holds m (ids ++ ids') ↔ s.holds m ids ∧ s.holds (m + ids.length) ids' := by
  induction ids generalizing m with
  | nil => simp [State.holds]
  | cons id ids ih =>
    rw [List.cons_append, State.holds_cons, State.holds_cons, ih, and_assoc, List.length_cons]
    simp [Nat.add_assoc, Nat.add_comm 1]

/-- What Microcode holds depends on Microcode alone. -/
theorem State.holds_congr {s t : State} (h : t.microcode = s.microcode) {m : Nat} {ids : List Nat}
    (hs : s.holds m ids) : t.holds m ids := by
  intro i hi
  rw [State.mcRead, h]
  exact hs i hi

/-- A block holds its ids from its first slot on (R97). -/
theorem State.holds_of_blockIs {s : State} {k : Nat} {ids : List Nat} (h : s.blockIs k ids) (hlen : ids.length ≤ 10) :
    s.holds (10 * k) ids :=
  fun i hi => h i (by omega)

/-- The effects of ids that count `MC` up, each with the auto-increment (R124). -/
def countedRun (ids : List Nat) (s : State) : State := ids.foldl (fun u id => (effect id u).autoIncrement) s

@[simp] theorem countedRun_nil (s : State) : countedRun [] s = s := rfl

@[simp] theorem countedRun_cons (id : Nat) (ids : List Nat) (s : State) :
    countedRun (id :: ids) s = countedRun ids (effect id s).autoIncrement := rfl

/-- The host's state is untouched and nothing halts or faults (R201). -/
structure Undisturbed (s t : State) : Prop where
  host : KeepsHostState s t
  outcome : KeepsOutcome s t

theorem WritesRegs.undisturbed {written : List Reg} {s t : State} (h : WritesRegs written s t) : Undisturbed s t :=
  ⟨h.host, h.outcome⟩

theorem Undisturbed.trans {s u t : State} (h : Undisturbed s u) (h' : Undisturbed u t) : Undisturbed s t := by
  obtain ⟨⟨hrun, hcur, hcode, hnames, hinbox, hprog⟩, hhalt, hresp, hfault, hend⟩ := h
  obtain ⟨⟨hrun', hcur', hcode', hnames', hinbox', hprog'⟩, hhalt', hresp', hfault', hend'⟩ := h'
  exact ⟨⟨hrun'.trans hrun, hcur'.trans hcur, hcode'.trans hcode, hnames'.trans hnames, hinbox'.trans hinbox,
    hprog'.trans hprog⟩, hhalt'.trans hhalt, hresp'.trans hresp, hfault'.trans hfault, hend'.trans hend⟩

theorem countedRun_undisturbed {ids : List Nat} (h : ∀ id ∈ ids, increments id = true) (s : State) :
    Undisturbed s (countedRun ids s) := by
  induction ids generalizing s with
  | nil => exact (WritesRegs.refl [] s).undisturbed
  | cons id ids ih =>
    have hid := effect_autoIncrement_writesRegs (h id List.mem_cons_self) s
    exact hid.undisturbed.trans (ih (fun x hx => h x (List.mem_cons_of_mem id hx)) _)

/-- Counted ids count `MC` up by their number, inside Microcode (R124). -/
theorem countedRun_mc {ids : List Nat} (h : ∀ id ∈ ids, increments id = true) {s : State}
    (hmc : s.mc.val + ids.length < 200) : (countedRun ids s).mc.val = s.mc.val + ids.length := by
  induction ids generalizing s with
  | nil => rfl
  | cons id ids ih =>
    have hnext := effect_autoIncrement_advancesMc (h id List.mem_cons_self) s
    rw [List.length_cons] at hmc
    have hval : (effect id s).autoIncrement.mc.val = s.mc.val + 1 := by
      rw [hnext]
      omega
    rw [countedRun_cons, ih (fun x hx => h x (List.mem_cons_of_mem id hx)) (by omega), hval, List.length_cons]
    omega

/-- One micro-step over a slot that holds a counted id does not end the loop, and leads to the next slot (R124, R126).
-/
theorem microStep_counted_spec {s : State} (hh : s.halted = false) (hinc : increments s.slotId = true)
    (hmc : s.mc.val + 1 < 200) :
    (microStep s).mc.val = s.mc.val + 1 ∧ (microStep s).halted = false ∧ (microStep s).microcode = s.microcode ∧
      (microStep s).macroEnded = false := by
  have hregs := effect_autoIncrement_writesRegs hinc s
  have hnext := effect_autoIncrement_advancesMc hinc s
  rw [← microStep_counted hh hinc] at hregs hnext
  obtain ⟨-, -, hcode, -⟩ := hregs.host
  have hhalted : (microStep s).halted = false := hregs.outcome.1.trans hh
  have hval : (microStep s).mc.val = s.mc.val + 1 := by
    rw [hnext]
    omega
  have hne : (microStep s).mc ≠ 0 := fun h0 => by simp [h0] at hval
  exact ⟨hval, hhalted, hcode, by simp [State.macroEnded, hhalted, hne]⟩

/-- Over slots that hold counted ids the micro-steps are the effects, and none ends the loop (R123, R126). -/
theorem runs_countedRun {ids : List Nat} (h : ∀ id ∈ ids, increments id = true) {s : State} (hh : s.halted = false)
    (hmc : s.mc.val + ids.length < 200) (hids : s.holds s.mc.val ids) : Runs ids.length s (countedRun ids s) := by
  induction ids generalizing s with
  | nil => exact .refl s
  | cons id ids ih =>
    obtain ⟨hslot : s.slotId = id, hrest⟩ := State.holds_cons.mp hids
    have hinc : increments s.slotId = true := hslot ▸ h id List.mem_cons_self
    rw [List.length_cons] at hmc
    obtain ⟨hval, hhalted, hcode, hgo⟩ := microStep_counted_spec hh hinc (by omega)
    have hrun := ih (fun x hx => h x (List.mem_cons_of_mem id hx)) hhalted (by omega)
      (hval ▸ State.holds_congr hcode hrest)
    rw [countedRun_cons, ← hslot, ← microStep_counted hh hinc]
    exact (Runs.one rfl hgo).trans hrun

/-- The micro-steps of one step of the model over counted ids: none of them is a dispatch (R126, R193). -/
theorem runMacro_countedRun {ids : List Nat} (h : ∀ id ∈ ids, increments id = true) {s : State} (hh : s.halted = false)
    (hmc : s.mc.val + ids.length < 200) (hids : s.holds s.mc.val ids) (n : Nat) :
    runMacro (n + ids.length) s = runMacro n (countedRun ids s) := by
  induction ids generalizing s with
  | nil => rfl
  | cons id ids ih =>
    obtain ⟨hslot : s.slotId = id, hrest⟩ := State.holds_cons.mp hids
    have hinc : increments s.slotId = true := hslot ▸ h id List.mem_cons_self
    rw [List.length_cons] at hmc
    obtain ⟨hval, hhalted, hcode, hgo⟩ := microStep_counted_spec hh hinc (by omega)
    have hd : s.atDispatch = false := by
      have hfive : s.slotId ≠ 5 := fun h5 => by rw [h5] at hinc; exact absurd hinc (by decide)
      simp [State.atDispatch, hfive]
    rw [List.length_cons, ← Nat.add_assoc, runMacro_of_not_ended hd hgo,
      ih (fun x hx => h x (List.mem_cons_of_mem id hx))
      hhalted (by omega) (hval ▸ State.holds_congr hcode hrest), countedRun_cons, ← hslot, ← microStep_counted hh hinc]

/-! ## The dispatch and the block of an opcode -/

/-- The state at the first slot of the block of opcode `k`, with its Word in `IR` (R193, R210). -/
def State.dispatched (s : State) (k : Opcode) (a : Nat) : State :=
  (s.withIr (packWord k (operandField a))).setMc (k.val * 10 : Nat)

theorem State.dispatched_mc (s : State) (k : Opcode) (a : Nat) : (s.dispatched k a).mc.val = 10 * k.val := by
  rw [Nat.mul_comm]
  exact clampSlot_of_lt (by omega)

theorem State.dispatched_undisturbed (s : State) (k : Opcode) (a : Nat) : Undisturbed s (s.dispatched k a) :=
  ⟨⟨rfl, rfl, rfl, rfl, rfl, rfl⟩, rfl, rfl, rfl, rfl⟩

theorem State.dispatched_irOperand (s : State) (k : Opcode) {a : Nat} (ha : a < 1000) :
    (s.dispatched k a).irOperand.val = a := by
  have hir : (s.dispatched k a).irOperand = operandOf (packWord k (operandField a)) := rfl
  rw [hir, operandOf_packWord, operandField_val ha]

theorem packWord_operandField_val (k : Opcode) {a : Nat} (ha : a < 1000) :
    (packWord k (operandField a)).val = 1000 * k.val + a := by
  rw [packWord_val, operandField_val ha, Nat.mul_comm]

/-- The meaning of an opcode other than 0 is the loop from the first slot of its block on (R210). -/
theorem exec_wordInstr_dispatched {k : Opcode} (hk : k ≠ 0) {s : State} (hh : s.halted = false) (a : Nat) :
    exec (wordInstr k a) s = .next (runMicro Config.burst (s.dispatched k a)) := by
  rw [exec_wordInstr, dispatchWord_start a hk hh]
  rfl

/-- The run of a dispatched opcode over the counted ids its block begins with. -/
theorem runs_block {k : Opcode} {ids rest : List Nat} (hids : ∀ id ∈ ids, increments id = true) {s : State}
    (hh : s.halted = false) (hmc : s.mc.val = 10 * k.val) (hlen : ids.length + rest.length ≤ 10)
    (hrest : rest ≠ []) (hblock : s.blockIs k.val (ids ++ rest)) :
    Runs ids.length s (countedRun ids s) ∧ (countedRun ids s).slotId = rest.getD 0 0 := by
  have hpos := List.length_pos_of_ne_nil hrest
  have hholds := State.holds_of_blockIs hblock (by simpa using hlen)
  obtain ⟨hfirst, hlast⟩ := State.holds_append.mp hholds
  have hlt : s.mc.val + ids.length < 200 := by omega
  refine ⟨runs_countedRun hids hh hlt (hmc.symm ▸ hfirst), ?_⟩
  obtain ⟨-, -, hcode, -⟩ := (countedRun_undisturbed hids s).host
  rw [State.slotId, State.mcRead, hcode, countedRun_mc hids hlt, hmc]
  exact hlast 0 hpos

/-- What the block of an opcode does that holds counted ids and then 7: the effects of the ids, and `MC` back at 0
(R194, R210). -/
theorem exec_returningBlock {k : Opcode} (hk : k ≠ 0) {ids : List Nat} (hids : ∀ id ∈ ids, increments id = true)
    (hlen : ids.length ≤ 9) {s : State} (hh : s.halted = false) (hblock : s.blockIs k.val (ids ++ [7])) (a : Nat) :
    exec (wordInstr k a) s = .next ((countedRun ids (s.dispatched k a)).setMc 0) := by
  obtain ⟨hrun, hslot⟩ :=
    runs_block (s := s.dispatched k a) (rest := [7]) hids hh (s.dispatched_mc k a) (Nat.succ_le_succ hlen) (by simp)
      hblock
  have hhalted := (countedRun_undisturbed hids (s.dispatched k a)).outcome.1.trans hh
  have hlast : microStep (countedRun ids (s.dispatched k a)) = (countedRun ids (s.dispatched k a)).setMc 0 :=
    microStep_mc0 hhalted hslot
  rw [exec_wordInstr_dispatched hk hh, hrun.runMicro_last _ (by simp only [Config.burst]; omega), hlast]
  rw [hlast]
  exact Bool.or_eq_true_iff.mpr (.inl rfl)

/-- A block that begins with 19 halts the machine at its first slot (R199, R229). -/
theorem exec_haltingBlock {k : Opcode} (hk : k ≠ 0) {s : State} (hh : s.halted = false) (hblock : s.blockIs k.val [19])
    (a : Nat) : exec (wordInstr k a) s = .next ((s.dispatched k a).halt .halt) := by
  have hslot : (s.dispatched k a).slotId = 19 := by
    rw [State.slotId, s.dispatched_mc]
    exact hblock 0 (by omega)
  have hlast : microStep (s.dispatched k a) = (s.dispatched k a).halt .halt := microStep_halt hh hslot
  have hend : (microStep (s.dispatched k a)).macroEnded = true := hlast ▸ State.macroEnded_of_halted rfl
  rw [exec_wordInstr_dispatched hk hh, (Runs.refl _).runMicro_last hend (by decide), hlast]

/-- A block that is empty faults at its first slot (R191, R230). -/
theorem exec_emptyBlock {k : Opcode} (hk : k ≠ 0) {s : State} (hh : s.halted = false) (hblock : s.blockIs k.val [])
    (a : Nat) :
    exec (wordInstr k a) s =
      .next ((s.dispatched k a).takeFault (.invalidMicroOp (.int 0) (s.dispatched k a).mc)) := by
  have hslot : (s.dispatched k a).slotId = 0 := by
    rw [State.slotId, s.dispatched_mc]
    exact hblock 0 (by omega)
  have hlast := microStep_nop0 (s := s.dispatched k a) hh hslot
  have hend : (microStep (s.dispatched k a)).macroEnded = true := hlast ▸ State.macroEnded_of_halted rfl
  rw [exec_wordInstr_dispatched hk hh, (Runs.refl _).runMicro_last hend (by decide), hlast]

end Sys2Proof.Machine
end

