-- ==== Sys2Proof/Proofs/ReferenceBlocks.lean ====
section
/-! SUPPORT. The opcodes under the blocks of R216: three that load and compute share one shape, two that load, compute
and store share another, and each of the rest is the run over its own block (R219 to R232). -/

namespace Sys2Proof.Machine

/-! ## The effects of the ids the blocks are made of -/

@[simp] theorem effect_db2ram (s : State) : effect 1 s = (s.memWrite s.ab.val s.db).markAccess := rfl
@[simp] theorem effect_ram2db (s : State) : effect 2 s = (s.setDb (s.memRead s.ab.val).val).markAccess := rfl
@[simp] theorem effect_ir2ab (s : State) : effect 4 s = s.setAb s.irOperand.val := rfl
@[simp] theorem effect_pcinc (s : State) : effect 9 s = s.setPc ((s.pc.val : Int) + 1) := rfl
@[simp] theorem effect_skipz (s : State) :
    effect 10 s = if s.acc = 0 then s.setPc ((s.pc.val : Int) + 1) else s := by
  by_cases h : s.acc = 0 <;> simp [effect, effSkipz, State.accIsZero, h]
@[simp] theorem effect_ir2pc (s : State) : effect 11 s = s.setPc s.irOperand.val := rfl
@[simp] theorem effect_acc0 (s : State) : effect 12 s = s.setAcc 0 := rfl
@[simp] theorem effect_plus (s : State) : effect 13 s = s.setAcc ((s.acc.val : Int) + s.db.val) := rfl
@[simp] theorem effect_minus (s : State) : effect 14 s = s.setAcc ((s.acc.val : Int) - s.db.val) := rfl
@[simp] theorem effect_acc2db (s : State) : effect 15 s = s.setDb s.acc.val := rfl
@[simp] theorem effect_accinc (s : State) : effect 16 s = s.setAcc ((s.acc.val : Int) + 1) := rfl
@[simp] theorem effect_accdec (s : State) : effect 17 s = s.setAcc ((s.acc.val : Int) - 1) := rfl
@[simp] theorem effect_db2acc (s : State) : effect 18 s = s.setAcc s.db.val := rfl

section AutoIncrement

variable (s : State)

@[simp] theorem State.autoIncrement_ab : s.autoIncrement.ab = s.ab := rfl
@[simp] theorem State.autoIncrement_db : s.autoIncrement.db = s.db := rfl
@[simp] theorem State.autoIncrement_acc : s.autoIncrement.acc = s.acc := rfl
@[simp] theorem State.autoIncrement_pc : s.autoIncrement.pc = s.pc := rfl
@[simp] theorem State.autoIncrement_ir : s.autoIncrement.ir = s.ir := rfl
@[simp] theorem State.autoIncrement_irOperand : s.autoIncrement.irOperand = s.irOperand := rfl
@[simp] theorem State.autoIncrement_memory : s.autoIncrement.memory = s.memory := rfl
@[simp] theorem State.autoIncrement_memRead (x : Nat) : s.autoIncrement.memRead x = s.memRead x := rfl
@[simp] theorem State.autoIncrement_lastAccessed : s.autoIncrement.lastAccessed = s.lastAccessed := rfl

end AutoIncrement

section Dispatched

variable (s : State) (k : Opcode) (a : Nat)

@[simp] theorem State.dispatched_ab : (s.dispatched k a).ab = s.ab := rfl
@[simp] theorem State.dispatched_db : (s.dispatched k a).db = s.db := rfl
@[simp] theorem State.dispatched_acc : (s.dispatched k a).acc = s.acc := rfl
@[simp] theorem State.dispatched_pc : (s.dispatched k a).pc = s.pc := rfl
@[simp] theorem State.dispatched_ir : (s.dispatched k a).ir = packWord k (operandField a) := rfl
@[simp] theorem State.dispatched_memory : (s.dispatched k a).memory = s.memory := rfl
@[simp] theorem State.dispatched_memRead (x : Nat) : (s.dispatched k a).memRead x = s.memRead x := rfl
@[simp] theorem State.dispatched_lastAccessed : (s.dispatched k a).lastAccessed = s.lastAccessed := rfl

end Dispatched

/-- What a returning block leaves is undisturbed, whatever its counted ids write. -/
theorem returningBlock_undisturbed {ids : List Nat} (h : ∀ id ∈ ids, increments id = true) (s : State) (k : Opcode)
    (a : Nat) : Undisturbed s ((countedRun ids (s.dispatched k a)).setMc 0) :=
  ((s.dispatched_undisturbed k a).trans (countedRun_undisturbed h _)).trans (State.setMc_writesRegs _ 0).undisturbed

/-- The words are as before where Memory is. -/
theorem keepsMemory_of_eq {s t : State} (h : t.memory = s.memory) : KeepsMemory s t :=
  fun a => congrArg (fun m => Store.read 0 m a) h

/-- A Memory that is the old one with one word written differs from it in that word only. -/
theorem storesOnly_of_memory {s t : State} (hwf : Memory.wf s.memory = true) {a : Nat} {v : Word}
    (h : t.memory = Store.write 0 s.memory a v) : StoresOnly a v.val s t := by
  have hread : ∀ x, t.memRead x = if x = a then v else s.memRead x := fun x => by
    rw [State.memRead, h]
    exact State.memRead_memWrite hwf a x v
  exact ⟨by rw [hread, if_pos rfl], fun x hx => by rw [hread, if_neg hx]⟩

theorem countedRun_append (ids ids' : List Nat) (s : State) :
    countedRun (ids ++ ids') s = countedRun ids' (countedRun ids s) := List.foldl_append

/-! ## Loading and computing: TAKE, ADD and SUB -/

/-- The block that loads the word at the operand and writes to `ACC` what `op` makes of `ACC` and that word (R219 to
R221). -/
theorem exec_loadComputeBlock {k : Opcode} (hk : k ≠ 0) {op : Nat} (hop : increments op = true)
    {v : Word → Word → Int} (heffect : ∀ u, effect op u = u.setAcc (v u.acc u.db)) {s : State}
    (hh : s.halted = false) {a : Nat} (ha : a < 1000) (hblock : s.blockIs k.val [4, 2, op, 9, 7]) :
    ∃ t, exec (wordInstr k a) s = .next t ∧ t.acc = clampWord (v s.acc (s.memRead a)) ∧
      t.pc.val = min (s.pc.val + 1) 999 ∧ t.ab.val = a ∧ t.db = s.memRead a ∧ t.ir.val = 1000 * k.val + a ∧ t.mc = 0 ∧
      KeepsMemory s t ∧ t.lastAccessed = some t.ab ∧ KeepsHostState s t ∧ KeepsOutcome s t := by
  have hids : ∀ id ∈ [4, 2, op, 9], increments id = true := by simp [hop, show ∀ x ∈ [4, 2, 9], increments x by decide]
  have hexec := exec_returningBlock hk hids (by simp) hh hblock a
  obtain ⟨hhost, houtcome⟩ := returningBlock_undisturbed hids s k a
  refine ⟨_, hexec, ?_, ?_, ?_, ?_, ?_, rfl, keepsMemory_of_eq ?_, ?_, hhost, houtcome⟩ <;>
    simp [heffect, s.dispatched_irOperand k ha, clampAddr_of_lt ha, clampAddr_succ_val,
      packWord_operandField_val k ha]

/-- Settles O23: the three blocks load and compute, and differ in the id that computes. -/
theorem takeAddSubLoadAndCompute : Obligations.TakeAddSubLoadAndCompute := by
  intro s a ha hh
  refine ⟨fun hblock => ?take, fun hblock => ?add, fun hblock => ?sub⟩
  case take =>
    obtain ⟨t, hexec, hacc, hrest⟩ := exec_loadComputeBlock (k := 1) (v := fun _ db => db.val) (by decide) rfl
      effect_db2acc hh ha hblock
    exact ⟨t, hexec, by rw [hacc, clampWord_word], hrest⟩
  case add =>
    obtain ⟨t, hexec, hacc, hrest⟩ := exec_loadComputeBlock (k := 2) (v := fun acc db => (acc.val : Int) + db.val)
      (by decide) rfl effect_plus hh ha hblock
    exact ⟨t, hexec, by rw [hacc, clampWord_add_val], hrest⟩
  case sub =>
    obtain ⟨t, hexec, hacc, hrest⟩ := exec_loadComputeBlock (k := 3) (v := fun acc db => (acc.val : Int) - db.val)
      (by decide) rfl effect_minus hh ha hblock
    exact ⟨t, hexec, by rw [hacc]; exact clampWord_val_of_le (by omega), hrest⟩

/-! ## Storing: SAVE, INC, DEC and NULL -/

/-- What the storing blocks end with, ids 15, 1, 9 and 7: `ACC` is stored at `AB` and `PC` counts up (R222, R224, R225,
R228). -/
def State.stored (u : State) : State := (countedRun [15, 1, 9] u).setMc 0

section Stored

variable (u : State)

theorem State.stored_acc : u.stored.acc = u.acc := by simp [State.stored]
theorem State.stored_db : u.stored.db = u.acc := by simp [State.stored]
theorem State.stored_ab : u.stored.ab = u.ab := by simp [State.stored]
theorem State.stored_ir : u.stored.ir = u.ir := by simp [State.stored]
theorem State.stored_mc : u.stored.mc = 0 := rfl
theorem State.stored_lastAccessed : u.stored.lastAccessed = some u.stored.ab := by simp [State.stored]

theorem State.stored_pc : u.stored.pc.val = min (u.pc.val + 1) 999 := by simp [State.stored, clampAddr_succ_val]

/-- One word is written: that of `AB`, which becomes `ACC`. -/
theorem State.stored_storesOnly {s : State} (hwf : Memory.wf s.memory = true) (hmem : u.memory = s.memory) :
    StoresOnly u.ab.val u.acc.val s u.stored := by
  refine storesOnly_of_memory hwf ?_
  simp [State.stored, hmem]

end Stored

/-- A block whose ids bring the operand into `AB`, and touch neither `PC` nor Memory before they store, stores the
`ACC` they leave and completes (R222, R224, R225, R228). -/
theorem exec_storingBlock {k : Opcode} (hk : k ≠ 0) {ids : List Nat} (hids : ∀ id ∈ ids, increments id = true)
    (hlen : ids.length ≤ 6) {s : State} (hh : s.halted = false) (hwf : Memory.wf s.memory = true) {a : Nat}
    (ha : a < 1000) (hblock : s.blockIs k.val (ids ++ [15, 1, 9] ++ [7])) {u : State}
    (hu : countedRun ids (s.dispatched k a) = u) (hab : u.ab.val = a) (hpc : u.pc = s.pc)
    (hir : u.ir = (s.dispatched k a).ir) (hmem : u.memory = s.memory) :
    ∃ t, exec (wordInstr k a) s = .next t ∧ StoresOnly a u.acc.val s t ∧ t.acc = u.acc ∧ t.db = u.acc ∧
      t.pc.val = min (s.pc.val + 1) 999 ∧ t.ab.val = a ∧ t.ir.val = 1000 * k.val + a ∧ t.mc = 0 ∧
      t.lastAccessed = some t.ab ∧ KeepsHostState s t ∧ KeepsOutcome s t := by
  have hstore : ∀ x ∈ [15, 1, 9], increments x = true := by decide
  have hall : ∀ x ∈ ids ++ [15, 1, 9], increments x = true := fun x hx =>
    (List.mem_append.mp hx).elim (hids x) (hstore x)
  have hexec := exec_returningBlock hk hall (by simp; omega) hh hblock a
  have hend := returningBlock_undisturbed hall s k a
  rw [countedRun_append, hu] at hexec hend
  refine ⟨u.stored, hexec, hab ▸ u.stored_storesOnly hwf hmem, u.stored_acc, u.stored_db, hpc ▸ u.stored_pc,
    u.stored_ab ▸ hab, ?_, u.stored_mc, u.stored_lastAccessed, hend.host, hend.outcome⟩
  rw [u.stored_ir, hir]
  exact packWord_operandField_val k ha

/-- Settles O24: block 4 brings the operand into `AB` and stores. -/
theorem saveStoresTheAccumulator : Obligations.SaveStoresTheAccumulator := by
  intro s a ha hh hwf hblock
  obtain ⟨t, hexec, hstore, hacc, hdb, hpc, hab, hir, hrest⟩ :=
    exec_storingBlock (k := 4) (ids := [4]) (by decide) (by decide) (by decide) hh hwf ha hblock rfl
      (by simp [s.dispatched_irOperand 4 ha, clampAddr_of_lt ha]) (by simp) (by simp) (by simp)
  exact ⟨t, hexec, hstore, hacc, hpc, hab, hdb, hir, hrest⟩

/-- What three of the blocks begin with, ids 4, 2 and 18: the word at the operand is in `ACC` and `DB`, and its
address in `AB` (R223 to R225). -/
def State.loaded (u : State) : State := countedRun [4, 2, 18] u

section Loaded

variable (u : State)

theorem State.loaded_ab : u.loaded.ab = u.irOperand := by simp [State.loaded]
theorem State.loaded_db : u.loaded.db = u.memRead u.irOperand.val := by simp [State.loaded]
theorem State.loaded_acc : u.loaded.acc = u.memRead u.irOperand.val := by simp [State.loaded]
theorem State.loaded_pc : u.loaded.pc = u.pc := by simp [State.loaded]
theorem State.loaded_ir : u.loaded.ir = u.ir := by simp [State.loaded]
theorem State.loaded_memory : u.loaded.memory = u.memory := by simp [State.loaded]
theorem State.loaded_lastAccessed : u.loaded.lastAccessed = some u.loaded.ab := by simp [State.loaded]

end Loaded

/-- The block that loads the word at the operand, writes to `ACC` what `op` makes of it, and stores that back (R224,
R225). -/
theorem exec_loadStoreBlock {k : Opcode} (hk : k ≠ 0) {op : Nat} (hop : increments op = true) {v : Word → Int}
    (heffect : ∀ u, effect op u = u.setAcc (v u.acc)) {s : State} (hh : s.halted = false)
    (hwf : Memory.wf s.memory = true) {a : Nat} (ha : a < 1000)
    (hblock : s.blockIs k.val [4, 2, 18, op, 15, 1, 9, 7]) :
    ∃ t, exec (wordInstr k a) s = .next t ∧ StoresOnly a (clampWord (v (s.memRead a))).val s t ∧ t.acc = t.memRead a ∧
      t.db = t.memRead a ∧ t.pc.val = min (s.pc.val + 1) 999 ∧ t.ab.val = a ∧ t.ir.val = 1000 * k.val + a ∧ t.mc = 0 ∧
      t.lastAccessed = some t.ab ∧ KeepsHostState s t ∧ KeepsOutcome s t := by
  have hids : ∀ id ∈ [4, 2, 18, op], increments id = true := by
    simp [hop, show ∀ x ∈ [4, 2, 18], increments x by decide]
  have hu : countedRun [4, 2, 18, op] (s.dispatched k a) =
      ((s.dispatched k a).loaded.setAcc (v (s.memRead a))).autoIncrement := by
    rw [show [4, 2, 18, op] = [4, 2, 18] ++ [op] from rfl, countedRun_append, countedRun_cons, countedRun_nil, heffect,
      ← State.loaded, State.loaded_acc, s.dispatched_irOperand k ha, State.dispatched_memRead]
  obtain ⟨t, hexec, hstore, hacc, hdb, hrest⟩ := exec_storingBlock hk hids (by simp) hh hwf ha hblock hu
    (by simp [State.loaded_ab, s.dispatched_irOperand k ha]) (by simp [State.loaded_pc]) (by simp [State.loaded_ir])
    (by simp [State.loaded_memory])
  have hread : t.memRead a = clampWord (v (s.memRead a)) := Fin.ext hstore.1
  exact ⟨t, hexec, hstore, hacc.trans hread.symm, hdb.trans hread.symm, hrest⟩

/-- Settles O26: INC and DEC load, compute and store, and NULL stores 0. -/
theorem incDecNullRewriteTheirWord : Obligations.IncDecNullRewriteTheirWord := by
  intro s a ha hh hwf
  refine ⟨fun hblock => ?inc, fun hblock => ?dec, fun hblock => ?null⟩
  case inc =>
    obtain ⟨t, hexec, hstore, hrest⟩ := exec_loadStoreBlock (k := 7) (v := fun acc => (acc.val : Int) + 1) (by decide)
      rfl effect_accinc hh hwf ha hblock
    exact ⟨t, hexec, clampWord_succ_val (s.memRead a) ▸ hstore, hrest⟩
  case dec =>
    obtain ⟨t, hexec, hstore, hrest⟩ := exec_loadStoreBlock (k := 8) (v := fun acc => (acc.val : Int) - 1) (by decide)
      rfl effect_accdec hh hwf ha hblock
    exact ⟨t, hexec, clampWord_pred_val (s.memRead a) ▸ hstore, hrest⟩
  case null =>
    have hzero : (countedRun [4, 12] (s.dispatched 9 a)).acc = 0 := rfl
    obtain ⟨t, hexec, hstore, hacc, hdb, hrest⟩ :=
      exec_storingBlock (k := 9) (ids := [4, 12]) (by decide) (by decide) (by decide) hh hwf ha hblock rfl
        (by simp [s.dispatched_irOperand 9 ha, clampAddr_of_lt ha]) (by simp) (by simp) (by simp)
    rw [hzero] at hstore hacc hdb
    exact ⟨t, hexec, hstore, hacc, hdb, hrest⟩

/-! ## Sequencing: JMP, TST and HLT -/

/-- What the block of TST ends with, ids 10, 9 and 7: `PC` counts up, once more where `ACC` is 0 (R223). -/
def State.skipped (u : State) : State := (countedRun [10, 9] u).setMc 0

/-- Id 10 writes `PC` only, if anything. -/
theorem State.skipped_spec (u : State) :
    u.skipped.acc = u.acc ∧ u.skipped.ab = u.ab ∧ u.skipped.db = u.db ∧ u.skipped.ir = u.ir ∧ u.skipped.mc = 0 ∧
      u.skipped.memory = u.memory ∧ u.skipped.lastAccessed = u.lastAccessed := by
  by_cases h : u.acc = 0 <;> simp [State.skipped, h]

theorem State.skipped_pc (u : State) :
    u.skipped.pc.val = if u.acc.val = 0 then min (u.pc.val + 2) 999 else min (u.pc.val + 1) 999 := by
  by_cases h : u.acc = 0
  · have hval : u.acc.val = 0 := congrArg Fin.val h
    have htwice : u.skipped.pc = clampAddr ((clampAddr ((u.pc.val : Int) + 1)).val + 1) := by simp [State.skipped, h]
    rw [htwice, clampAddr_succ_val, clampAddr_succ_val, if_pos hval]
    omega
  · have hval : u.acc.val ≠ 0 := fun h0 => h (Fin.ext h0)
    have honce : u.skipped.pc = clampAddr ((u.pc.val : Int) + 1) := by simp [State.skipped, h]
    rw [honce, clampAddr_succ_val, if_neg hval]

/-- Settles O25: JMP is the run over block 5; TST loads, and counts `PC` up once or twice by what it has loaded. -/
theorem jumpAndTestMoveTheProgramCounter : Obligations.JumpAndTestMoveTheProgramCounter := by
  intro s a ha hh
  refine ⟨fun hblock => ?jmp, fun hblock => ?tst⟩
  case jmp =>
    have hids : ∀ id ∈ [11], increments id = true := by decide
    have hexec := exec_returningBlock (k := 5) (by decide) hids (by decide) hh hblock a
    obtain ⟨hhost, houtcome⟩ := returningBlock_undisturbed hids s 5 a
    refine ⟨_, hexec, ⟨?_, ?_, rfl⟩, ?_, keepsMemory_of_eq ?_, ?_, hhost, houtcome⟩ <;>
      simp [KeepsRegsBut, s.dispatched_irOperand 5 ha, clampAddr_of_lt ha, packWord_operandField_val 5 ha]
  case tst =>
    have hids : ∀ id ∈ [4, 2, 18, 10, 9], increments id = true := by decide
    have hexec := exec_returningBlock (k := 6) (by decide) hids (by decide) hh hblock a
    have hend := returningBlock_undisturbed hids s 6 a
    rw [show [4, 2, 18, 10, 9] = [4, 2, 18] ++ [10, 9] from rfl, countedRun_append, ← State.loaded] at hexec hend
    rw [← State.skipped] at hexec hend
    have hword : (s.dispatched 6 a).memRead (s.dispatched 6 a).irOperand.val = s.memRead a := by
      rw [s.dispatched_irOperand 6 ha, State.dispatched_memRead]
    obtain ⟨hacc, hab, hdb, hir, hmc, hmem, haccess⟩ := (s.dispatched 6 a).loaded.skipped_spec
    have hpc := (s.dispatched 6 a).loaded.skipped_pc
    rw [State.loaded_acc, hword] at hacc hpc
    rw [State.loaded_db, hword] at hdb
    rw [State.loaded_pc] at hpc
    rw [State.loaded_ir] at hir
    rw [State.loaded_memory] at hmem
    rw [State.loaded_lastAccessed, ← hab] at haccess
    refine ⟨_, hexec, hacc, hpc, ?_, hdb, ?_, hmc, keepsMemory_of_eq hmem, haccess, hend.host, hend.outcome⟩
    · rw [hab, State.loaded_ab, s.dispatched_irOperand 6 ha]
    · rw [hir]
      exact packWord_operandField_val 6 ha

/-- Settles O27: the dispatch leads to a slot that holds 19. -/
theorem hltHaltsWithItsOperandIgnored : Obligations.HltHaltsWithItsOperandIgnored := by
  intro s a ha hh hblock
  have hexec := exec_haltingBlock (k := 10) (by decide) hh hblock a
  refine ⟨_, hexec, ⟨rfl, rfl⟩, s.dispatched_mc 10 a, packWord_operandField_val 10 ha, rfl, rfl, ?_, fun _ => rfl, rfl,
    rfl, rfl, rfl, rfl, rfl, rfl⟩
  simp [KeepsRegsBut]

/-- Settles O22: the dispatch of opcode 0 takes FetchFault and looks at no slot. -/
theorem opcodeZeroTakesFetchFault : Obligations.OpcodeZeroTakesFetchFault := by
  intro s a ha
  have hexec : exec (.fetch a) s = .next (dispatchWord 0 a s) := rfl
  rw [dispatchWord_zero] at hexec
  refine ⟨_, hexec, ?_, State.takeFault_spec _ _⟩
  rw [State.takeFault_ir, State.withIr_ir, packWord_operandField_val 0 ha]
  simp

/-! ## The opcodes the host may define: 11 to 19 -/

/-- The opcodes without a reference block, one by one (R212, R230). -/
theorem userDefined_wordInstr {a : Nat} {i : Instr} {k : Nat}
    (h : (i, k) ∈ [(Instr.op11 a, 11), (.op12 a, 12), (.op13 a, 13), (.op14 a, 14), (.op15 a, 15), (.op16 a, 16),
      (.op17 a, 17), (.op18 a, 18), (.op19 a, 19)]) :
    ∃ o : Opcode, o ≠ 0 ∧ o.val = k ∧ i = wordInstr o a := by
  simp only [List.mem_cons, Prod.mk.injEq, List.not_mem_nil, or_false] at h
  rcases h with ⟨rfl, rfl⟩ | ⟨rfl, rfl⟩ | ⟨rfl, rfl⟩ | ⟨rfl, rfl⟩ | ⟨rfl, rfl⟩ | ⟨rfl, rfl⟩ | ⟨rfl, rfl⟩ | ⟨rfl, rfl⟩ |
    ⟨rfl, rfl⟩
  · exact ⟨11, by decide, rfl, rfl⟩
  · exact ⟨12, by decide, rfl, rfl⟩
  · exact ⟨13, by decide, rfl, rfl⟩
  · exact ⟨14, by decide, rfl, rfl⟩
  · exact ⟨15, by decide, rfl, rfl⟩
  · exact ⟨16, by decide, rfl, rfl⟩
  · exact ⟨17, by decide, rfl, rfl⟩
  · exact ⟨18, by decide, rfl, rfl⟩
  · exact ⟨19, by decide, rfl, rfl⟩

/-- Settles O28: the dispatch leads to a slot that holds 0. -/
theorem unprogrammedOpcodesFaultAtTheirBlock : Obligations.UnprogrammedOpcodesFaultAtTheirBlock := by
  intro s a i k ha hh hi hblock
  obtain ⟨o, ho, rfl, rfl⟩ := userDefined_wordInstr hi
  refine ⟨_, exec_emptyBlock ho hh hblock a, packWord_operandField_val o ha, s.dispatched_mc o a,
    (s.dispatched o a).takeFault_spec _⟩

/-- Settles O29: the run over the block doubles `ACC` by adding it to itself through `DB`. -/
theorem userDefinedOpcodesRunTheirBlock : Obligations.UserDefinedOpcodesRunTheirBlock := by
  intro s a i k ha hh hi hblock
  obtain ⟨o, ho, rfl, rfl⟩ := userDefined_wordInstr hi
  have hids : ∀ id ∈ [15, 13, 9], increments id = true := by decide
  have hexec := exec_returningBlock ho hids (by decide) hh hblock a
  obtain ⟨hhost, houtcome⟩ := returningBlock_undisturbed hids s o a
  refine ⟨_, hexec, ⟨?_, ?_, ?_, ?_, rfl⟩, ?_, keepsMemory_of_eq ?_, ?_, hhost, houtcome⟩ <;>
    simp [KeepsRegsBut, clampAddr_succ_val, clampWord_add_val, packWord_operandField_val o ha,
      Nat.two_mul]

end Sys2Proof.Machine
end

