-- ==== Sys2Proof/Proofs/ReferenceSet.lean ====
section
/-! SUPPORT. The whole of a `macroStep` under the reference fetch: the fetch sequence as a run of counted ids, the
step of the machine as fetch, dispatch and end, and with it the net effects and the counts of the reference
instruction set (R218 to R231). -/

namespace Sys2Proof.Machine

/-! ## The fetch -/

/-- What the fetch has done when it stands at the dispatch: the word at `PC` is in `DB` and `IR`, its address in `AB`
(R218). -/
structure Fetches (s f : State) : Prop where
  ab : f.ab = s.pc
  db : f.db = s.memRead s.pc.val
  ir : f.ir = s.memRead s.pc.val
  acc : f.acc = s.acc
  pc : f.pc = s.pc
  memory : f.memory = s.memory

theorem State.fetched_eq (s : State) : s.fetched = countedRun [8, 2, 3] s := rfl

theorem State.fetched_fetches (s : State) : Fetches s s.fetched := by
  constructor <;> simp [State.fetched, effPc2ab, effRam2db, effDb2ir, State.coreLoad]

/-- What the fetch does is said of the registers and Memory only, which a step's clearing leaves as they are. -/
theorem Fetches.of_withInbox_clearOutputs (s : State) {f : State} {inbox : List Input}
    (h : Fetches (s.clearOutputs.withInbox inbox) f) : Fetches s f :=
  ⟨h.ab, h.db, h.ir, h.acc, h.pc, h.memory⟩

theorem fetchIds_increment : ∀ id ∈ [8, 2, 3], increments id = true := by decide

theorem State.fetched_undisturbed (s : State) : Undisturbed s s.fetched :=
  countedRun_undisturbed fetchIds_increment s

theorem State.fetched_mc {s : State} (hmc : s.mc = 0) : s.fetched.mc.val = 3 := by
  have hval : s.mc.val = 0 := congrArg Fin.val hmc
  rw [s.fetched_eq, countedRun_mc fetchIds_increment (by simp [hval]), hval]
  rfl

/-- With the reference fetch in block 0 a machine at slot 0 holds the counted ids of the fetch from `MC` on. -/
theorem State.holds_fetch {s : State} (hmc : s.mc = 0) (hblock : s.blockIs 0 (referenceBlock 0)) :
    s.holds s.mc.val [8, 2, 3] := by
  rw [hmc]
  intro i hi
  have hslot := hblock i (by simp at hi; omega)
  simp only [List.length_cons, List.length_nil] at hi
  interval_cases i <;> exact hslot

/-- After the fetch the slot at `MC` holds id 5 (R218). -/
theorem State.fetched_atDispatch {s : State} (hh : s.halted = false) (hmc : s.mc = 0)
    (hblock : s.blockIs 0 (referenceBlock 0)) : s.fetched.halted = false ∧ s.fetched.slotId = 5 := by
  obtain ⟨⟨-, -, hcode, -⟩, hhalted, -⟩ := s.fetched_undisturbed
  refine ⟨hhalted.trans hh, ?_⟩
  rw [State.slotId, State.mcRead, hcode, State.fetched_mc hmc]
  exact hblock 3 (by omega)

/-- The fetch is three micro-steps, none of which ends the loop (R218, R126). -/
theorem State.fetched_runs {s : State} (hh : s.halted = false) (hmc : s.mc = 0)
    (hblock : s.blockIs 0 (referenceBlock 0)) : Runs 3 s s.fetched :=
  runs_countedRun fetchIds_increment hh (by rw [hmc]; decide) (State.holds_fetch hmc hblock)

/-- The micro-steps of a `macroStep` at slot 0 are the fetch and the meaning of the Word fetched (R210, R218). -/
theorem runMacro_fetch {s : State} (hh : s.halted = false) (hmc : s.mc = 0)
    (hblock : s.blockIs 0 (referenceBlock 0)) :
    runMacro Config.burst s = exec (instrOfWord (s.memRead s.pc.val)) s.fetched := by
  obtain ⟨hhalted, hslot⟩ := State.fetched_atDispatch hh hmc hblock
  have hd : s.fetched.atDispatch = true := by simp [State.atDispatch, hhalted, hslot]
  have hrun : runMacro Config.burst s = runMacro (196 + 1) s.fetched :=
    runMacro_countedRun fetchIds_increment hh (by rw [hmc]; decide) (State.holds_fetch hmc hblock) 197
  rw [hrun, runMacro_of_atDispatch hd, s.fetched_fetches.ir]

/-- A `macroStep` with the reference fetch is the fetch, the meaning of the Word at `PC`, and the end of R126. -/
theorem step_macroStep_fetch {s : State} (hasks : s.asks .macroStep) (hh : s.halted = false)
    (hr : s.running = false) (hmc : s.mc = 0) (hblock : s.blockIs 0 (referenceBlock 0)) :
    ∃ t, exec (instrOfWord (s.memRead s.pc.val)) (s.clearOutputs.withInbox s.inbox.tail).fetched = .next t ∧
      step s = .next (settleMacro t) := by
  have hfetch := runMacro_fetch (s := s.clearOutputs.withInbox s.inbox.tail) hh hmc hblock
  obtain ⟨t, ht, -, hstep⟩ := exists_doMacroStep (s.clearOutputs.withInbox s.inbox.tail)
  exact ⟨t, hfetch.symm.trans ht, (step_of_asks_not_running hasks hr).trans hstep⟩

/-- Settles O18: what decodes is the Word at `PC`, and the step executes it after the fetch. -/
theorem stepRunsTheDecodedWord : Obligations.StepRunsTheDecodedWord := by
  intro s i hasks hh hr hmc hblock hdecode
  obtain ⟨-, rfl⟩ := decodeWord_ok.mp hdecode
  exact step_macroStep_fetch hasks hh hr hmc hblock

/-- The instruction of a Word whose digits are an opcode and an operand (R91). -/
theorem instrOfWord_of_val {w : Word} {k : Nat} (hk : k < 20) {a : Addr} (h : w.val = 1000 * k + a.val) :
    w = packWord ⟨k, hk⟩ a ∧ instrOfWord w = wordInstr ⟨k, hk⟩ a.val := by
  have hw : w = packWord ⟨k, hk⟩ a := Fin.ext (by rw [packWord_val, h, Nat.mul_comm])
  exact ⟨hw, hw ▸ instrOfWord_packWord _ a⟩

/-! ## The missing halt -/

/-- Settling a `macroStep` that has ended without a response before answers Ok (R126). -/
theorem settleMacro_of_completed {t : State} (hend : t.macroEnded = true) (hresp : t.response = none) :
    settleMacro t = (t.withProgress .idle).answer .ok := by
  rw [settleMacro_of_ended hend]
  exact State.answerOk_of_response_none hresp

/-- Settling a `macroStep` that a fault has ended keeps the fault as the response (R126, R296). -/
theorem settleMacro_takeFault (s : State) (f : ExecFault) :
    settleMacro (s.takeFault f) = (s.takeFault f).withProgress .idle := by
  rw [settleMacro_of_ended (State.macroEnded_of_halted rfl)]
  rfl

/-- A Word below 1000 is its own operand field with opcode 0 (R99). -/
theorem instrOfWord_of_lt {w : Word} (h : w.val < 1000) : w = packWord 0 (operandField w.val) ∧
    instrOfWord w = .fetch w.val := by
  obtain ⟨hw, hi⟩ := instrOfWord_of_val (w := w) (k := 0) (by decide) (a := ⟨w.val, h⟩) (by simp)
  exact ⟨hw.trans (congrArg (packWord 0) (operandField_addr ⟨w.val, h⟩).symm), hi⟩

/-- Settles O32: the fetch brings the Word into `IR`, and its dispatch takes FetchFault at slot 3. -/
theorem fetchingAWordBelowThousandFaults : Obligations.FetchingAWordBelowThousandFaults := by
  intro s hasks hh hr hmc hblock hword
  obtain ⟨t, ht, hstep⟩ := step_macroStep_fetch hasks hh hr hmc hblock
  obtain ⟨hpack, hi⟩ := instrOfWord_of_lt hword
  have hfetches := (s.clearOutputs.withInbox s.inbox.tail).fetched_fetches
  have hmcF : (s.clearOutputs.withInbox s.inbox.tail).fetched.mc.val = 3 := State.fetched_mc hmc
  have hhaltedF : (s.clearOutputs.withInbox s.inbox.tail).fetched.halted = false :=
    (State.fetched_undisturbed _).outcome.1.trans hh
  generalize (s.clearOutputs.withInbox s.inbox.tail).fetched = f at ht hfetches hmcF hhaltedF
  obtain ⟨hab, hdb, hir, hacc, hpc, hmem⟩ := hfetches
  have hexec : exec (.fetch (s.memRead s.pc.val).val) f = .next (f.takeFault (.fetchFault f.ir f.pc f.mc)) := by
    have hdispatch : exec (.fetch (s.memRead s.pc.val).val) f = .next (dispatchWord 0 (s.memRead s.pc.val).val f) := rfl
    have hself : f.withIr (packWord 0 (operandField (s.memRead s.pc.val).val)) = f := by
      rw [← hpack]
      exact hir ▸ rfl
    rw [hdispatch, dispatchWord_zero, hself, ← hpack]
    exact hir ▸ rfl
  rw [hi, hexec] at ht
  cases ht
  rw [settleMacro_takeFault] at hstep
  refine ⟨_, hstep, rfl, hab, hdb, hir, hmcF, hpc, hacc, keepsMemory_of_eq hmem, ?_, ?_, rfl⟩
  · simp [show f.pc = s.pc from hpc]
  · simp [State.endedByFault, hhaltedF]

/-! ## The net effects -/

/-- The instruction `i`, executed on the fetched state `f`, has the net effect of opcode `k` on the state `s` before the
fetch, and is back at slot 0 with nothing disturbed (R219 to R228). -/
def Completes (k : Nat) (i : Instr) (a : Addr) (s f : State) : Prop :=
  ∃ t, exec i f = .next t ∧ NetEffect k a s t ∧ Undisturbed f t ∧ t.mc = 0

section NetEffects

variable {s f : State} (hf : Fetches s f) (hh : f.halted = false) {a : Addr}
include hf

theorem Fetches.keepsMemory : KeepsMemory s f := keepsMemory_of_eq hf.memory

theorem Fetches.keepsMemory_of {t : State} (h : KeepsMemory f t) : KeepsMemory s t :=
  fun x => (h x).trans (hf.keepsMemory x)

theorem Fetches.storesOnly_of {t : State} {x v : Nat} (h : StoresOnly x v f t) : StoresOnly x v s t :=
  ⟨h.1, fun y hy => (h.2 y hy).trans (hf.keepsMemory y)⟩

theorem Fetches.nextPc {t : State} (h : t.pc.val = min (f.pc.val + 1) 999) : t.pc.val = nextPc s.pc.val := by
  rw [h, hf.pc]
  rfl

include hh

theorem take_completes (hblock : f.blockIs 1 [4, 2, 18, 9, 7]) : Completes 1 (.take a.val) a s f := by
  obtain ⟨t, hexec, hacc, hpc, hab, hdb, hir, hmc, hmem, -, hhost, houtcome⟩ :=
    (takeAddSubLoadAndCompute f a.val a.isLt hh).1 hblock
  have hword : f.memRead a.val = s.memRead a.val := hf.keepsMemory a.val
  rw [hword] at hacc hdb
  exact ⟨t, hexec, ⟨hir, congrArg Fin.val hacc, hf.nextPc hpc, Fin.ext hab, congrArg Fin.val hdb, hmc,
    houtcome.1.trans hh, hf.keepsMemory_of hmem⟩, ⟨hhost, houtcome⟩, hmc⟩

theorem add_completes (hblock : f.blockIs 2 [4, 2, 13, 9, 7]) : Completes 2 (.add a.val) a s f := by
  obtain ⟨t, hexec, hacc, hpc, hab, hdb, hir, hmc, hmem, -, hhost, houtcome⟩ :=
    (takeAddSubLoadAndCompute f a.val a.isLt hh).2.1 hblock
  have hword : f.memRead a.val = s.memRead a.val := hf.keepsMemory a.val
  rw [hword] at hacc hdb
  rw [hf.acc] at hacc
  exact ⟨t, hexec, ⟨hir, hacc, hf.nextPc hpc, Fin.ext hab, congrArg Fin.val hdb, hmc, houtcome.1.trans hh,
    hf.keepsMemory_of hmem⟩, ⟨hhost, houtcome⟩, hmc⟩

theorem sub_completes (hblock : f.blockIs 3 [4, 2, 14, 9, 7]) : Completes 3 (.sub a.val) a s f := by
  obtain ⟨t, hexec, hacc, hpc, hab, hdb, hir, hmc, hmem, -, hhost, houtcome⟩ :=
    (takeAddSubLoadAndCompute f a.val a.isLt hh).2.2 hblock
  have hword : f.memRead a.val = s.memRead a.val := hf.keepsMemory a.val
  rw [hword] at hacc hdb
  rw [hf.acc] at hacc
  have hdiff : t.acc.val = s.acc.val - (s.memRead a.val).val := by omega
  exact ⟨t, hexec, ⟨hir, hdiff, hf.nextPc hpc, Fin.ext hab, congrArg Fin.val hdb, hmc, houtcome.1.trans hh,
    hf.keepsMemory_of hmem⟩, ⟨hhost, houtcome⟩, hmc⟩

theorem jmp_completes (hblock : f.blockIs 5 [11, 7]) (hword : (s.memRead s.pc.val).val = 5000 + a.val) :
    Completes 5 (.jmp a.val) a s f := by
  obtain ⟨t, hexec, ⟨hpc, hir, hmc⟩, ⟨hab, hdb, hacc, -⟩, hmem, -, hhost, houtcome⟩ :=
    (jumpAndTestMoveTheProgramCounter f a.val a.isLt hh).1 hblock
  have hdbS : t.db.val = 5000 + a.val := by rw [hdb rfl, hf.db, hword]
  exact ⟨t, hexec, ⟨hir, (hacc rfl).trans hf.acc, Fin.ext hpc, (hab rfl).trans hf.ab, hdbS, hmc, houtcome.1.trans hh,
    hf.keepsMemory_of hmem⟩, ⟨hhost, houtcome⟩, hmc⟩

theorem tst_completes (hblock : f.blockIs 6 [4, 2, 18, 10, 9, 7]) : Completes 6 (.tst a.val) a s f := by
  obtain ⟨t, hexec, hacc, hpc, hab, hdb, hir, hmc, hmem, -, hhost, houtcome⟩ :=
    (jumpAndTestMoveTheProgramCounter f a.val a.isLt hh).2 hblock
  have hword : f.memRead a.val = s.memRead a.val := hf.keepsMemory a.val
  rw [hword] at hacc hdb hpc
  rw [hf.pc] at hpc
  have hskip : t.pc.val = if (s.memRead a.val).val = 0 then Machine.nextPc (Machine.nextPc s.pc.val)
      else Machine.nextPc s.pc.val := by
    rw [hpc]
    simp only [Machine.nextPc]
    split <;> omega
  exact ⟨t, hexec, ⟨hir, congrArg Fin.val hacc, hskip, Fin.ext hab, congrArg Fin.val hdb, hmc, houtcome.1.trans hh,
    hf.keepsMemory_of hmem⟩, ⟨hhost, houtcome⟩, hmc⟩

variable (hwf : Memory.wf f.memory = true)
include hwf

theorem save_completes (hblock : f.blockIs 4 [4, 15, 1, 9, 7]) : Completes 4 (.save a.val) a s f := by
  obtain ⟨t, hexec, hstore, hacc, hpc, hab, hdb, hir, hmc, haccess, hhost, houtcome⟩ :=
    saveStoresTheAccumulator f a.val a.isLt hh hwf hblock
  have habS : t.ab = a := Fin.ext hab
  rw [hf.acc] at hstore hacc hdb
  exact ⟨t, hexec, ⟨hir, hacc, hf.nextPc hpc, habS, hdb, hmc, houtcome.1.trans hh, habS ▸ haccess,
    hf.storesOnly_of hstore⟩, ⟨hhost, houtcome⟩, hmc⟩

theorem inc_completes (hblock : f.blockIs 7 [4, 2, 18, 16, 15, 1, 9, 7]) : Completes 7 (.inc a.val) a s f := by
  obtain ⟨t, hexec, hstore, hacc, hdb, hpc, hab, hir, hmc, haccess, hhost, houtcome⟩ :=
    (incDecNullRewriteTheirWord f a.val a.isLt hh hwf).1 hblock
  have habS : t.ab = a := Fin.ext hab
  rw [hf.keepsMemory a.val] at hstore
  have haccS : t.acc.val = min ((s.memRead a.val).val + 1) 19999 := by rw [hacc, hstore.1]
  exact ⟨t, hexec, ⟨hir, haccS, hf.nextPc hpc, habS, hdb.trans hacc.symm, hmc, houtcome.1.trans hh, habS ▸ haccess,
    hf.storesOnly_of hstore⟩, ⟨hhost, houtcome⟩, hmc⟩

theorem dec_completes (hblock : f.blockIs 8 [4, 2, 18, 17, 15, 1, 9, 7]) : Completes 8 (.dec a.val) a s f := by
  obtain ⟨t, hexec, hstore, hacc, hdb, hpc, hab, hir, hmc, haccess, hhost, houtcome⟩ :=
    (incDecNullRewriteTheirWord f a.val a.isLt hh hwf).2.1 hblock
  have habS : t.ab = a := Fin.ext hab
  rw [hf.keepsMemory a.val] at hstore
  have haccS : t.acc.val = (s.memRead a.val).val - 1 := by rw [hacc, hstore.1]
  exact ⟨t, hexec, ⟨hir, haccS, hf.nextPc hpc, habS, hdb.trans hacc.symm, hmc, houtcome.1.trans hh, habS ▸ haccess,
    hf.storesOnly_of hstore⟩, ⟨hhost, houtcome⟩, hmc⟩

theorem null_completes (hblock : f.blockIs 9 [4, 12, 15, 1, 9, 7]) : Completes 9 (.null a.val) a s f := by
  obtain ⟨t, hexec, hstore, hacc, hdb, hpc, hab, hir, hmc, haccess, hhost, houtcome⟩ :=
    (incDecNullRewriteTheirWord f a.val a.isLt hh hwf).2.2 hblock
  have habS : t.ab = a := Fin.ext hab
  exact ⟨t, hexec, ⟨hir, hacc, hf.nextPc hpc, habS, hdb, hmc, houtcome.1.trans hh, habS ▸ haccess,
    hf.storesOnly_of hstore⟩, ⟨hhost, houtcome⟩, hmc⟩

/-- The nine opcodes of the reference set that return to slot 0, under their blocks (R216). -/
theorem completes_of_referenceBlock {k : Nat} (hk : k < 20) (h1 : 1 ≤ k) (h9 : k ≤ 9)
    (hword : (s.memRead s.pc.val).val = 1000 * k + a.val) (hblock : f.blockIs k (referenceBlock k)) :
    Completes k (wordInstr ⟨k, hk⟩ a.val) a s f := by
  interval_cases k
  · exact take_completes hf hh hblock
  · exact add_completes hf hh hblock
  · exact sub_completes hf hh hblock
  · exact save_completes hf hh hwf hblock
  · exact jmp_completes hf hh hblock hword
  · exact tst_completes hf hh hblock
  · exact inc_completes hf hh hwf hblock
  · exact dec_completes hf hh hwf hblock
  · exact null_completes hf hh hwf hblock

end NetEffects

/-- The net effect speaks of the machine alone, not of the response or the progress. -/
theorem NetEffect.settled {k : Nat} {a : Addr} {s t : State} (h : NetEffect k a s t) (p : Progress) (r : Response) :
    NetEffect k a s ((t.withProgress p).answer r) := by
  obtain ⟨hir, hrest⟩ := h
  refine ⟨hir, ?_⟩
  split at hrest <;> exact hrest

/-- HLT under its block halts normally, with the net effect of R229. -/
theorem hlt_halts {s f : State} (hf : Fetches s f) (hh : f.halted = false) {a : Addr} (hblock : f.blockIs 10 [19])
    (hword : (s.memRead s.pc.val).val = 10000 + a.val) :
    ∃ t, exec (.hlt a.val) f = .next t ∧ NetEffect 10 a s t ∧ t.halted = true ∧ t.ending = some .halt ∧
      t.response = f.response ∧ t.lastFault = f.lastFault ∧ KeepsHostState f t := by
  obtain ⟨t, hexec, ⟨hhalted, hend⟩, hmc, hir, hresp, hfault, ⟨hab, hdb, hacc, hpc, -⟩, hmem, -, hhost⟩ :=
    hltHaltsWithItsOperandIgnored f a.val a.isLt hh hblock
  have hdbS : t.db.val = 10000 + a.val := by rw [hdb rfl, hf.db, hword]
  refine ⟨t, hexec, ⟨hir, (hacc rfl).trans hf.acc, (hpc rfl).trans hf.pc, (hab rfl).trans hf.ab, hdbS, hmc, hhalted,
    hf.keepsMemory_of hmem⟩, hhalted, ?_, hresp, hfault, hhost⟩
  rw [hend, hh]
  rfl

/-- Settles O30: the step is the fetch, `exec` with its net effect, and the end of R126, which answers Ok. -/
theorem referenceInstructionSetOnTheMachine : Obligations.ReferenceInstructionSetOnTheMachine := by
  intro s k a hasks hh hr hmc hwf h1 h10 hfetch hblock hword
  have hk : k < 20 := by omega
  obtain ⟨t, ht, hstep⟩ := step_macroStep_fetch hasks hh hr hmc hfetch
  rw [(instrOfWord_of_val hk hword).2] at ht
  have hf : Fetches s (s.clearOutputs.withInbox s.inbox.tail).fetched :=
    Fetches.of_withInbox_clearOutputs s (s.clearOutputs.withInbox s.inbox.tail).fetched_fetches
  have hu := (s.clearOutputs.withInbox s.inbox.tail).fetched_undisturbed
  generalize (s.clearOutputs.withInbox s.inbox.tail).fetched = f at ht hf hu
  obtain ⟨⟨hrun, hcur, hcode, hnames, hinbox, hprog⟩, hhalted, hresp, hfault, hending⟩ := hu
  have hhF : f.halted = false := hhalted.trans hh
  have hblockF : f.blockIs k (referenceBlock k) := fun i hi => by
    rw [State.mcRead, hcode]
    exact hblock i hi
  by_cases h9 : k ≤ 9
  · obtain ⟨t', ht', hnet, ⟨⟨hrun', hcur', hcode', hnames', hinbox', -⟩, hhalted', hresp', hfault', -⟩, hmcT⟩ :=
      completes_of_referenceBlock hf hhF (hf.memory ▸ hwf) hk h1 h9 hword hblockF
    cases ht.symm.trans ht'
    have hhT : t.halted = false := hhalted'.trans hhF
    rw [settleMacro_of_completed (by simp [State.macroEnded, hmcT]) (hresp'.trans hresp)] at hstep
    exact ⟨_, hstep, hnet.settled _ _, rfl, hfault'.trans hfault, by simp [State.endedNormally, hhT], rfl,
      hinbox'.trans hinbox, (hrun'.trans hrun).trans hr, hcur'.trans hcur, hcode'.trans hcode, hnames'.trans hnames⟩
  · obtain rfl : k = 10 := by omega
    obtain ⟨t', ht', hnet, hhT, hendT, hresp', hfault', hrun', hcur', hcode', hnames', hinbox', -⟩ :=
      hlt_halts hf hhF hblockF hword
    cases ht.symm.trans ht'
    rw [settleMacro_of_completed (State.macroEnded_of_halted hhT) (hresp'.trans hresp)] at hstep
    exact ⟨_, hstep, hnet.settled _ _, rfl, hfault'.trans hfault, by simp [State.endedNormally, hhT, hendT], rfl,
      hinbox'.trans hinbox, (hrun'.trans hrun).trans hr, hcur'.trans hcur, hcode'.trans hcode, hnames'.trans hnames⟩

/-! ## The counts of micro-steps -/

/-- Each reference block is ids that count `MC` up, as many as R231 counts beside the fetch, the dispatch and the last,
and then the id that ends the `macroStep`: 7 or 19. -/
theorem referenceBlock_split {k : Nat} (h1 : 1 ≤ k) (h10 : k ≤ 10) :
    ∃ ids e, referenceBlock k = ids ++ [e] ∧ (e = 7 ∨ e = 19) ∧ (∀ id ∈ ids, increments id = true) ∧
      ids.length + 5 = referenceSteps k := by
  interval_cases k
  · exact ⟨[4, 2, 18, 9], 7, rfl, .inl rfl, by decide, rfl⟩
  · exact ⟨[4, 2, 13, 9], 7, rfl, .inl rfl, by decide, rfl⟩
  · exact ⟨[4, 2, 14, 9], 7, rfl, .inl rfl, by decide, rfl⟩
  · exact ⟨[4, 15, 1, 9], 7, rfl, .inl rfl, by decide, rfl⟩
  · exact ⟨[11], 7, rfl, .inl rfl, by decide, rfl⟩
  · exact ⟨[4, 2, 18, 10, 9], 7, rfl, .inl rfl, by decide, rfl⟩
  · exact ⟨[4, 2, 18, 16, 15, 1, 9], 7, rfl, .inl rfl, by decide, rfl⟩
  · exact ⟨[4, 2, 18, 17, 15, 1, 9], 7, rfl, .inl rfl, by decide, rfl⟩
  · exact ⟨[4, 12, 15, 1, 9], 7, rfl, .inl rfl, by decide, rfl⟩
  · exact ⟨[], 19, rfl, .inr rfl, by decide, rfl⟩

/-- Ids 7 and 19 end the `macroStep` (R126). -/
theorem microStep_ends {s : State} (hh : s.halted = false) (hslot : s.slotId = 7 ∨ s.slotId = 19) :
    (microStep s).macroEnded = true := by
  rcases hslot with hslot | hslot
  · rw [microStep_mc0 hh hslot]
    exact Bool.or_eq_true_iff.mpr (.inl rfl)
  · rw [microStep_halt hh hslot]
    exact State.macroEnded_of_halted rfl

/-- The dispatch of the Word in `IR` is one micro-step, which leads to the block of its opcode (R193). -/
theorem runs_dispatch {f : State} {k : Opcode} {a : Addr} (hk : k ≠ 0) (hh : f.halted = false) (hslot : f.slotId = 5)
    (hir : f.ir = packWord k a) : Runs 1 f (f.dispatched k a.val) := by
  have hopcode : f.irOpcode = k := by rw [State.irOpcode, hir, opcodeOf_packWord]
  have hself : f.withIr (packWord k (operandField a.val)) = f := by
    rw [operandField_addr, ← hir]
    rfl
  have hstep : microStep f = f.dispatched k a.val := by
    rw [microStep_ir2mc hh hslot, effIr2mc_of_opcode_ne_zero (hopcode ▸ hk), State.dispatched, hself,
      State.dispatchTarget, hopcode]
  have hmc := f.dispatched_mc k a.val
  have hpos : 0 < k.val := Nat.pos_of_ne_zero fun h => hk (Fin.ext h)
  have hne : (f.dispatched k a.val).mc ≠ 0 := fun h0 => by
    rw [h0] at hmc
    simp only [Fin.val_zero] at hmc
    omega
  have hhalted : (f.dispatched k a.val).halted = false := hh
  exact Runs.one hstep (by simp [State.macroEnded, hhalted, hne])

/-- Settles O31: the fetch, the dispatch and the counted ids of the block do not end the `macroStep`, and the id after
them does. -/
theorem referenceMicroStepCounts : Obligations.ReferenceMicroStepCounts := by
  intro s k a hh hmc h1 h10 hfetch hblock hword
  obtain ⟨ids, e, hsplit, he, hids, hcount⟩ := referenceBlock_split h1 h10
  have hk : k < 20 := by omega
  obtain ⟨hhF, hslotF⟩ := State.fetched_atDispatch hh hmc hfetch
  obtain ⟨-, -, hcodeF, -⟩ := s.fetched_undisturbed.host
  have hne : (⟨k, hk⟩ : Opcode) ≠ 0 := fun h => by simpa [← Fin.val_inj] using (by omega : k ≠ 0) (congrArg Fin.val h)
  have hirF := s.fetched_fetches.ir.trans (instrOfWord_of_val hk hword).1
  have hdispatch := runs_dispatch hne hhF hslotF hirF
  have hblockD : (s.fetched.dispatched ⟨k, hk⟩ a.val).blockIs k (ids ++ [e]) := fun i hi => by
    rw [← hsplit, State.mcRead]
    exact (congrArg (fun m => Store.read 0 m _) hcodeF).trans (hblock i hi)
  have hlen : ids.length ≤ 9 := by
    have : referenceSteps k ≤ 12 := by interval_cases k <;> decide
    omega
  obtain ⟨hrun, hslot⟩ := runs_block (s := s.fetched.dispatched ⟨k, hk⟩ a.val) (rest := [e]) hids hhF
    (s.fetched.dispatched_mc _ _) (Nat.succ_le_succ hlen) (by simp) hblockD
  have hhalted := (countedRun_undisturbed hids (s.fetched.dispatched ⟨k, hk⟩ a.val)).outcome.1.trans hhF
  obtain ⟨hall, hbefore⟩ := ((State.fetched_runs hh hmc hfetch).trans hdispatch).trans hrun
  rw [← hcount, show ids.length + 5 = ids.length + (1 + 3) + 1 from rfl]
  refine ⟨?_, fun j hj1 hj2 => hbefore j hj1 (by omega)⟩
  rw [Function.iterate_succ_apply', hall]
  exact microStep_ends hhalted (by rcases he with rfl | rfl <;> simp [hslot])

end Sys2Proof.Machine
end

