-- ==== Sys2Proof/Proofs/Ports.lean ====
section
/-! SUPPORT. The ports of the stores: an equation per case for each, and the statements on them. -/

namespace Sys2Proof.Machine

/-- What is outside a range (R62, R63, R67, R192). -/
theorem HostNum.upTo_eq_none_iff {x : HostNum} {top : Nat} :
    x.upTo top = none ↔ ∀ n : Nat, n < top + 1 → x ≠ .int n := by
  simp only [Option.eq_none_iff_forall_ne_some, ne_eq, HostNum.upTo_eq_some, not_and, Nat.lt_succ_iff]
  exact ⟨fun h n hn hx => h n hx hn, fun h n hx hn => h n hn hx⟩

theorem HostNum.upTo_of_lt {top n : Nat} (h : n < top + 1) : (HostNum.int n).upTo top = some n :=
  HostNum.upTo_natCast (Nat.le_of_lt_succ h)

theorem HostNum.word_of_lt {w : Nat} (h : w < 20000) : (HostNum.int w).word = some ⟨w, h⟩ := by
  rw [HostNum.word, HostNum.upTo_of_lt h, Option.map_some]
  exact congrArg some (Fin.ext (Nat.mod_eq_of_lt h))

theorem HostNum.word_eq_none {v : HostNum} (h : ∀ w : Nat, w < 20000 → v ≠ .int w) : v.word = none := by
  rw [HostNum.word, HostNum.upTo_eq_none_iff.mpr h, Option.map_none]

theorem HostNum.microId_of_legal {id : Nat} (h : legalId id = true) : (HostNum.int id).microId = some id :=
  HostNum.microId_eq_some.mpr ⟨rfl, h⟩

theorem HostNum.microId_eq_none {v : HostNum} (h : ∀ id : Nat, legalId id = true → v ≠ .int id) : v.microId = none :=
  Option.eq_none_iff_forall_ne_some.mpr fun _ hid =>
    have ⟨hv, hlegal⟩ := HostNum.microId_eq_some.mp hid
    h _ hlegal hv

theorem validName_iff {n : Text} : validName n = true ↔ 1 ≤ n.length ∧ n.length ≤ 5 := by
  simp [validName]

theorem validName_eq_false {n : Text} (h : n.length = 0 ∨ 5 < n.length) : validName n = false :=
  Bool.eq_false_iff.mpr (mt validName_iff.mp (by omega))

/-! ## Memory (R62, R63) -/

theorem hostMemoryRead_of_lt {n : Nat} (h : n < 1000) (s : State) :
    hostMemoryRead (.int n) s = s.answer (.word (s.memRead n)) := by
  simp only [hostMemoryRead, HostNum.upTo_of_lt h]

theorem hostMemoryRead_outside {a : HostNum} (h : ∀ n : Nat, n < 1000 → a ≠ .int n) (s : State) :
    hostMemoryRead a s = s.answer (.failed (.addressOutOfRange a)) := by
  simp only [hostMemoryRead, HostNum.upTo_eq_none_iff.mpr h]

theorem hostMemoryRead_arch (a : HostNum) (s : State) : (hostMemoryRead a s).toArch = s.toArch := by
  unfold hostMemoryRead
  split <;> rfl

theorem hostMemoryWrite_of_lt {n w : Nat} (hn : n < 1000) (hw : w < 20000) (s : State) :
    hostMemoryWrite (.int n) (.int w) s = (s.memWrite n ⟨w, hw⟩).answer .ok := by
  simp only [hostMemoryWrite, HostNum.upTo_of_lt hn, HostNum.word_of_lt hw]

theorem hostMemoryWrite_outside {a : HostNum} (h : ∀ n : Nat, n < 1000 → a ≠ .int n) (v : HostNum) (s : State) :
    hostMemoryWrite a v s = s.answer (.failed (.addressOutOfRange a)) := by
  simp only [hostMemoryWrite, HostNum.upTo_eq_none_iff.mpr h]

theorem hostMemoryWrite_noWord {n : Nat} (hn : n < 1000) {v : HostNum} (h : ∀ w : Nat, w < 20000 → v ≠ .int w)
    (s : State) : hostMemoryWrite (.int n) v s = s.answer (.failed (.valueOutOfRange v)) := by
  simp only [hostMemoryWrite, HostNum.upTo_of_lt hn, HostNum.word_eq_none h]

/-- Settles O48: the port's cases, on the state without the outputs and the command. -/
theorem memoryPortReadsWritesOrFails : Obligations.MemoryPortReadsWritesOrFails := by
  refine ⟨fun s a hasks => ?read, fun s a v hasks hr hwf => ?write⟩
  case read =>
    refine ⟨_, (step_of_asks hasks).trans (issue_of_accepted rfl _), hostMemoryRead_arch a _, ?_, fun hout => ?_⟩
    · rintro n hn rfl
      rw [hostMemoryRead_of_lt hn]
      rfl
    · rw [hostMemoryRead_outside hout]
      rfl
  case write =>
    refine ⟨_, step_of_asks_not_running hasks hr, ?_, fun hout => ?_, ?_⟩
    · rintro n w rfl rfl hn hw
      rw [hostMemoryWrite_of_lt hn hw]
      exact ⟨rfl, storesOnly_of_memory (v := ⟨w, hw⟩) hwf rfl, rfl, rfl⟩
    · rw [hostMemoryWrite_outside hout]
      exact ⟨rfl, rfl⟩
    · rintro ⟨n, hn, rfl⟩ hout
      rw [hostMemoryWrite_noWord hn hout]
      exact ⟨rfl, rfl⟩

/-! ## Microcode (R66, R67) -/

theorem hostMicrocodeRead_of_lt {n : Nat} (h : n < 200) (s : State) :
    hostMicrocodeRead (.int n) s = s.answer (.slot (s.mcRead n)) := by
  simp only [hostMicrocodeRead, HostNum.upTo_of_lt h]

theorem hostMicrocodeRead_outside {a : HostNum} (h : ∀ n : Nat, n < 200 → a ≠ .int n) (s : State) :
    hostMicrocodeRead a s = s.answer (.failed (.addressOutOfRange a)) := by
  simp only [hostMicrocodeRead, HostNum.upTo_eq_none_iff.mpr h]

theorem hostMicrocodeRead_arch (a : HostNum) (s : State) : (hostMicrocodeRead a s).toArch = s.toArch := by
  unfold hostMicrocodeRead
  split <;> rfl

theorem State.portMicrocodeWrite_of_legal {n id : Nat} (hn : n < 200) (hid : legalId id = true) (s : State) :
    s.portMicrocodeWrite (.int n) (.int id) = .ok (s.mcWrite n id) :=
  State.portMicrocodeWrite_ok.mpr ⟨n, id, rfl, hn, rfl, hid, rfl⟩

theorem State.portMicrocodeWrite_outside {a : HostNum} (h : ∀ n : Nat, n < 200 → a ≠ .int n) (v : HostNum)
    (s : State) : s.portMicrocodeWrite a v = .error (.addressOutOfRange a) := by
  simp only [State.portMicrocodeWrite, HostNum.upTo_eq_none_iff.mpr h]

theorem State.portMicrocodeWrite_illegal {n : Nat} (hn : n < 200) {v : HostNum}
    (h : ∀ id : Nat, legalId id = true → v ≠ .int id) (s : State) :
    s.portMicrocodeWrite (.int n) v = .error (.invalidMicroOp v) := by
  simp only [State.portMicrocodeWrite, HostNum.upTo_of_lt hn, HostNum.microId_eq_none h]

/-- Settles O49: the port's cases, on the state without the outputs and the command. -/
theorem microcodePortReadsWritesOrFails : Obligations.MicrocodePortReadsWritesOrFails := by
  refine ⟨fun s a hasks => ?read, fun s a v hasks hr hwf => ?write⟩
  case read =>
    refine ⟨_, (step_of_asks hasks).trans (issue_of_accepted rfl _), hostMicrocodeRead_arch a _, ?_, fun hout => ?_⟩
    · rintro n hn rfl
      rw [hostMicrocodeRead_of_lt hn]
      rfl
    · rw [hostMicrocodeRead_outside hout]
      rfl
  case write =>
    refine ⟨_, step_of_asks_not_running hasks hr, ?_, fun hout => ?_, ?_⟩
    · rintro n id rfl rfl hn hid
      rw [hostMicrocodeWrite, State.portMicrocodeWrite_of_legal hn hid]
      exact ⟨rfl, fun x => State.mcRead_mcWrite hwf n x id, rfl, rfl⟩
    · rw [hostMicrocodeWrite, State.portMicrocodeWrite_outside hout]
      exact ⟨rfl, rfl⟩
    · rintro ⟨n, hn, rfl⟩ hout
      rw [hostMicrocodeWrite, State.portMicrocodeWrite_illegal hn hout]
      exact ⟨rfl, rfl⟩

/-! ## The names (R68) -/

theorem hostInstructionName_of_lt {n : Nat} (h : n < 20) (s : State) :
    hostInstructionName (.int n) s = s.answer (.name (s.nameRead n)) := by
  simp only [hostInstructionName, HostNum.upTo_of_lt h]

theorem hostInstructionName_outside {k : HostNum} (h : ∀ n : Nat, n < 20 → k ≠ .int n) (s : State) :
    hostInstructionName k s = s.answer (.name none) := by
  simp only [hostInstructionName, HostNum.upTo_eq_none_iff.mpr h]

theorem hostInstructionName_arch (k : HostNum) (s : State) : (hostInstructionName k s).toArch = s.toArch := by
  unfold hostInstructionName
  split <;> rfl

theorem hostSetInstructionName_valid {o : Nat} (ho : o < 20) {n : Text} (hn : validName n = true) (s : State) :
    hostSetInstructionName (.int o) n s = (s.nameWrite o (some n)).answer .ok := by
  simp only [hostSetInstructionName, HostNum.upTo_of_lt ho, hn, if_true]

theorem hostSetInstructionName_outside {k : HostNum} (h : ∀ o : Nat, o < 20 → k ≠ .int o) (n : Text) (s : State) :
    hostSetInstructionName k n s = s.answer (.failed (.invalidOpcode k)) := by
  simp only [hostSetInstructionName, HostNum.upTo_eq_none_iff.mpr h]

theorem hostSetInstructionName_invalid {o : Nat} (ho : o < 20) {n : Text} (hn : validName n = false) (s : State) :
    hostSetInstructionName (.int o) n s = s.answer (.failed (.invalidName n)) := by
  simp only [hostSetInstructionName, HostNum.upTo_of_lt ho, hn, Bool.false_eq_true, if_false]

/-- Reading a name after naming an opcode (R68). -/
theorem State.nameRead_nameWrite {s : State} (h : NameTable.wf s.names = true) (k x : Nat) (n : Option Text) :
    (s.nameWrite k n).nameRead x = if x = k then n else s.nameRead x := by
  simp only [NameTable.wf, Bool.and_eq_true] at h
  exact Store.wf_read_write none h.1 k x n

/-- Settles O51: the port's cases, on the state without the outputs and the command. -/
theorem namePortReadsWritesOrFails : Obligations.NamePortReadsWritesOrFails := by
  refine ⟨fun s k hasks => ?read, fun s k n hasks hr hwf => ?write⟩
  case read =>
    refine ⟨_, (step_of_asks hasks).trans (issue_of_accepted rfl _), hostInstructionName_arch k _, ?_, fun hout => ?_⟩
    · rintro n hn rfl
      rw [hostInstructionName_of_lt hn]
      rfl
    · rw [hostInstructionName_outside hout]
      rfl
  case write =>
    refine ⟨_, step_of_asks_not_running hasks hr, ?_, fun hout => ?_, ?_⟩
    · rintro o rfl ho h1 h5
      rw [hostSetInstructionName_valid ho (validName_iff.mpr ⟨h1, h5⟩)]
      exact ⟨rfl, fun x => State.nameRead_nameWrite hwf o x (some n), rfl⟩
    · rw [hostSetInstructionName_outside hout]
      exact ⟨rfl, rfl⟩
    · rintro ⟨o, ho, rfl⟩ hbad
      rw [hostSetInstructionName_invalid ho (validName_eq_false hbad)]
      exact ⟨rfl, rfl⟩

/-- Settles O52: each reset replaces its stores by their defaults. -/
theorem storeResetsRestoreTheirDefaults : Obligations.StoreResetsRestoreTheirDefaults := by
  refine fun p s hr => ⟨fun hasks => ?_, fun hasks => ?_⟩
  · exact ⟨_, stepWith_of_asks_not_running hasks hr p, rfl, fun _ => rfl, rfl⟩
  · exact ⟨_, stepWith_of_asks_not_running hasks hr p, rfl, rfl⟩

end Sys2Proof.Machine
end

