-- ==== Sys2Proof/Proofs/Gate.lean ====
section
/-! SUPPORT. The gate of R242: what it refuses changes nothing, the pure reads pass it and change nothing, and a setter
that passes it does not look at Running. -/

namespace Sys2Proof.Machine

/-- A refused command is answered with `RejectedWhileRunning` and changes nothing (R242). -/
theorem isRejected_of_refused {p : Config.Params} {s : State} {c : Command} (h : s.asks c) (hr : s.running = true)
    (hc : acceptedWhileRunning p c = false) : IsRejected p s :=
  ⟨_, (stepWith_of_asks h p).trans (issue_of_refused (s := s.clearOutputs.withInbox s.inbox.tail) hr hc), rfl, rfl, rfl,
    rfl, rfl, rfl, h.1⟩

/-- A command that keeps Running, is not refused, and does the same on a machine that runs as on one that does not. -/
structure IgnoresRunning (f : State → State) : Prop where
  running : ∀ s, (f s).running = s.running
  response : ∀ s, (f s).response ≠ some .rejectedWhileRunning
  commutes : ∀ s b, f { s with running := b } = { f s with running := b }

theorem IgnoresRunning.answer {r : Response} (h : r ≠ .rejectedWhileRunning) : IgnoresRunning (·.answer r) :=
  ⟨fun _ => rfl, fun _ hr => h (Option.some.inj hr), fun _ _ => rfl⟩

theorem hostMemoryWrite_ignoresRunning (a v : HostNum) : IgnoresRunning (hostMemoryWrite a v) := by
  unfold hostMemoryWrite
  split
  · exact .answer (by simp)
  · split
    · exact .answer (by simp)
    · exact ⟨fun _ => rfl, fun _ => by simp, fun _ _ => rfl⟩

theorem hostMicrocodeWrite_ignoresRunning (a v : HostNum) : IgnoresRunning (hostMicrocodeWrite a v) := by
  unfold hostMicrocodeWrite State.portMicrocodeWrite
  split
  · exact .answer (by simp)
  · split
    · exact .answer (by simp)
    · exact ⟨fun _ => rfl, fun _ => by simp [State.conclude], fun _ _ => rfl⟩

theorem hostSetInstructionName_ignoresRunning (k : HostNum) (n : Text) :
    IgnoresRunning (hostSetInstructionName k n) := by
  unfold hostSetInstructionName
  split
  · exact .answer (by simp)
  · split
    · exact ⟨fun _ => rfl, fun _ => by simp, fun _ _ => rfl⟩
    · exact .answer (by simp)

/-- A setter the gate lets pass does on a machine that runs what it does on one that does not (R242). -/
theorem setter_of_accepted {p : Config.Params} {s : State} {c : Command} {f : State → State} (h : s.asks c)
    (hr : s.running = true) (hf : IgnoresRunning f) (hc : acceptedWhileRunning p c = true)
    (hperform : ∀ u, perform p c u = .next (f u)) :
    ∃ t, stepWith p s = .next t ∧ t.response ≠ some .rejectedWhileRunning ∧ t.running = true ∧
      stepWith p { s with running := false } = .next { t with running := false } := by
  refine ⟨f (s.clearOutputs.withInbox s.inbox.tail), ?_, hf.response _, (hf.running _).trans hr, ?_⟩
  · rw [stepWith_of_asks h, issue_of_accepted hc, hperform]
  · rw [stepWith_of_asks (s := { s with running := false }) h, issue_of_accepted hc, hperform, ← hf.commutes]
    rfl

/-- Settles O43: of what the gate refuses nothing changes, and the three setters do not look at Running. -/
theorem gateRefusesWhileRunning : Obligations.GateRefusesWhileRunning := by
  intro p s c hasks hr
  refine ⟨fun hc => ?plain, fun x b n y ls hc => ?parameters, fun a v n hc => ⟨fun hp => ?reject, fun hp => ?accept⟩⟩
  case plain =>
    simp only [List.mem_cons, List.not_mem_nil, or_false] at hc
    rcases hc with rfl | rfl | rfl | rfl | rfl | rfl <;> exact isRejected_of_refused hasks hr rfl
  case parameters =>
    simp only [List.mem_cons, List.not_mem_nil, or_false] at hc
    rcases hc with rfl | rfl | rfl | rfl | rfl | rfl | rfl | rfl | rfl <;> exact isRejected_of_refused hasks hr rfl
  case reject =>
    simp only [List.mem_cons, List.not_mem_nil, or_false] at hc
    rcases hc with rfl | rfl | rfl <;>
      exact isRejected_of_refused hasks hr (by simp [acceptedWhileRunning, hp])
  case accept =>
    have hpass : (p.hostWrites == .betweenMacroSteps) = true := by simp [hp]
    simp only [List.mem_cons, List.not_mem_nil, or_false] at hc
    rcases hc with rfl | rfl | rfl
    · exact setter_of_accepted hasks hr (hostMemoryWrite_ignoresRunning a v) hpass fun _ => rfl
    · exact setter_of_accepted hasks hr (hostMicrocodeWrite_ignoresRunning a v) hpass fun _ => rfl
    · exact setter_of_accepted hasks hr (hostSetInstructionName_ignoresRunning a n) hpass fun _ => rfl

/-- A command that only answers. -/
def AnswersOnly (f : State → State) : Prop := ∀ s, ∃ r, f s = s.answer r ∧ r ≠ .rejectedWhileRunning

theorem AnswersOnly.of_eq {f : State → State} {r : State → Response} (h : ∀ s, f s = s.answer (r s))
    (hr : ∀ s, r s ≠ .rejectedWhileRunning) : AnswersOnly f :=
  fun s => ⟨r s, h s, hr s⟩

theorem hostMemoryRead_answersOnly (a : HostNum) : AnswersOnly (hostMemoryRead a) := by
  unfold hostMemoryRead
  split <;> exact .of_eq (fun _ => rfl) fun _ => by simp

theorem hostMicrocodeRead_answersOnly (a : HostNum) : AnswersOnly (hostMicrocodeRead a) := by
  unfold hostMicrocodeRead
  split <;> exact .of_eq (fun _ => rfl) fun _ => by simp

theorem hostInstructionName_answersOnly (k : HostNum) : AnswersOnly (hostInstructionName k) := by
  unfold hostInstructionName
  split <;> exact .of_eq (fun _ => rfl) fun _ => by simp

/-- A read passes the gate and changes nothing but the response (R241, R242). -/
theorem read_of_answersOnly {s : State} {c : Command} {f : State → State} (h : s.asks c) (hf : AnswersOnly f)
    (hc : acceptedWhileRunning Config.params c = true) (hperform : ∀ u, perform Config.params c u = .next (f u)) :
    ∃ t, step s = .next t ∧ t.toArch = s.toArch ∧ t.events = [] ∧ t.response.isSome = true ∧
      t.response ≠ some .rejectedWhileRunning := by
  obtain ⟨r, hr, hne⟩ := hf (s.clearOutputs.withInbox s.inbox.tail)
  refine ⟨(s.clearOutputs.withInbox s.inbox.tail).answer r, ?_, rfl, rfl, rfl, fun hrej => hne (Option.some.inj hrej)⟩
  rw [step_of_asks h, issue_of_accepted hc, hperform, hr]

/-- Settles O44, read by read. -/
theorem readsChangeNothing : Obligations.ReadsChangeNothing := by
  intro s c a hasks hc
  simp only [List.mem_cons, List.not_mem_nil, or_false] at hc
  rcases hc with rfl | rfl | rfl | rfl | rfl | rfl | rfl | rfl
  · exact read_of_answersOnly hasks (hostMemoryRead_answersOnly a) rfl fun _ => rfl
  · exact read_of_answersOnly hasks (hostMicrocodeRead_answersOnly a) rfl fun _ => rfl
  · exact read_of_answersOnly hasks (hostInstructionName_answersOnly a) rfl fun _ => rfl
  · exact read_of_answersOnly hasks (.of_eq (f := hostLastUsedAddress) (fun _ => rfl) (fun _ => by simp)) rfl
      fun _ => rfl
  · exact read_of_answersOnly hasks (.of_eq (f := hostReadState) (fun _ => rfl) (fun _ => by simp)) rfl fun _ => rfl
  · exact read_of_answersOnly hasks (.of_eq (f := hostExport) (fun _ => rfl) (fun _ => by simp)) rfl fun _ => rfl
  · exact read_of_answersOnly hasks (.of_eq (f := hostExportRam) (fun _ => rfl) (fun _ => by simp)) rfl fun _ => rfl
  · exact read_of_answersOnly hasks (.of_eq (f := hostExportMc) (fun _ => rfl) (fun _ => by simp)) rfl fun _ => rfl

end Sys2Proof.Machine
end

