-- ==== Sys2Proof/Proofs/Recorder.lean ====
section
/-! SUPPORT. The Recorder and `manualStep`: an equation per case for each, and the statements on them. -/

namespace Sys2Proof.Machine

/-! ## Recording (R261) -/

theorem State.record_of_inactive {s : State} (h : s.recCursor = none) (x : HostNum) : s.record x = .ok s := by
  simp only [State.record, h]

theorem State.record_of_lt {s : State} {c : Cursor} (h : s.recCursor = some c) (hc : c.val < 200) {id : Nat}
    (hid : legalId id = true) :
    s.record (.int id) = .ok ((s.mcWrite c.val id).withCursor (some (Fin.ofNat 201 (c.val + 1)))) := by
  simp only [State.record, h, State.portMicrocodeWrite_of_legal hc hid]

theorem State.record_illegal {s : State} {c : Cursor} (h : s.recCursor = some c) (hc : c.val < 200) {x : HostNum}
    (hx : ∀ id : Nat, legalId id = true → x ≠ .int id) : s.record x = .error (.invalidMicroOp x) := by
  simp only [State.record, h, State.portMicrocodeWrite_illegal hc hx]

theorem State.record_full {s : State} {c : Cursor} (h : s.recCursor = some c) (hc : c.val = 200) (x : HostNum) :
    s.record x = .error (.addressOutOfRange (.int 200)) := by
  have hout : ∀ n : Nat, n < 200 → HostNum.int (200 : Nat) ≠ .int n := fun n hn heq => by
    rw [HostNum.int.injEq, Nat.cast_inj] at heq
    omega
  simp only [State.record, h, hc, State.portMicrocodeWrite_outside hout]
  rfl

/-- The cursor after a recording is the next one (R261). -/
theorem Cursor.next_val {c : Cursor} (hc : c.val < 200) : (Fin.ofNat 201 (c.val + 1)).val = c.val + 1 :=
  Nat.mod_eq_of_lt (by omega)

/-- Settles O56: the cases of a recording, on the state without the outputs and the command. -/
theorem recorderWritesAtItsCursor : Obligations.RecorderWritesAtItsCursor := by
  intro s x hasks hr hwf
  refine ⟨hostRecorderRecord x (s.clearOutputs.withInbox s.inbox.tail), step_of_asks_not_running hasks hr,
    ?_, ?_, ?_, ?_⟩
  all_goals rw [hostRecorderRecord]
  · rintro c id h hc rfl hid
    rw [State.record_of_lt (s := s.clearOutputs.withInbox s.inbox.tail) h hc hid]
    exact ⟨rfl, congrArg some (Cursor.next_val hc), fun y => State.mcRead_mcWrite hwf c.val y id, rfl⟩
  · intro c h hc hx
    rw [State.record_illegal (s := s.clearOutputs.withInbox s.inbox.tail) h hc hx]
    exact ⟨rfl, rfl⟩
  · intro c h hc
    rw [State.record_full (s := s.clearOutputs.withInbox s.inbox.tail) h hc]
    exact ⟨rfl, rfl⟩
  · intro h
    rw [State.record_of_inactive (s := s.clearOutputs.withInbox s.inbox.tail) h]
    exact ⟨rfl, rfl⟩

/-! ## Starting and stopping (R260, R263) -/

theorem hostRecorderStart_valid {k : Nat} (hk : k < 20) {n : Text} (hn : validName n = true) (s : State) :
    hostRecorderStart (.int (10 * k : Nat)) n s =
      ((s.nameWrite k (some n)).withCursor (some (Fin.ofNat 201 (10 * k)))).answer .ok := by
  have hmod : 10 * k % 10 = 0 := Nat.mul_mod_right 10 k
  have hdiv : 10 * k / 10 = k := Nat.mul_div_cancel_left k (by decide)
  simp only [hostRecorderStart, HostNum.upTo_of_lt (show 10 * k < 190 + 1 by omega), hmod, hn, and_self, if_true, hdiv]

theorem hostRecorderStart_invalid {a : HostNum} {n : Text}
    (h : (∀ k : Nat, k < 20 → a ≠ .int (10 * k : Nat)) ∨ n.length = 0 ∨ 5 < n.length) (s : State) :
    hostRecorderStart a n s = s.answer (.failed .recordingConfigError) := by
  unfold hostRecorderStart
  split
  case h_1 => rfl
  case h_2 m hm =>
    obtain ⟨rfl, hle⟩ := HostNum.upTo_eq_some.mp hm
    refine if_neg ?_
    rintro ⟨hmod, hn⟩
    rcases h with hblock | hlen
    · refine hblock (m / 10) (by omega) ?_
      rw [Nat.mul_div_cancel' (Nat.dvd_of_mod_eq_zero hmod)]
    · simp [validName_eq_false hlen] at hn

/-- Settles O57: the cases of a start, and the one write of a stop. -/
theorem recorderStartsAndStops : Obligations.RecorderStartsAndStops := by
  refine ⟨fun s a n hasks hr hwf => ?start, fun s hasks hr => ?stop⟩
  case start =>
    refine ⟨_, step_of_asks_not_running hasks hr, ?_, fun hbad => ?_⟩
    · rintro k hk rfl h1 h5
      have hcursor : (Fin.ofNat 201 (10 * k)).val = 10 * k := Nat.mod_eq_of_lt (by omega)
      rw [hostRecorderStart_valid hk (validName_iff.mpr ⟨h1, h5⟩)]
      exact ⟨rfl, congrArg some hcursor, fun x => State.nameRead_nameWrite hwf k x (some n), rfl⟩
    · rw [hostRecorderStart_invalid hbad]
      exact ⟨rfl, rfl⟩
  case stop => exact ⟨_, step_of_asks_not_running hasks hr, rfl, rfl⟩

/-! ## Manual steps (R133 to R135) -/

theorem apply_ite_toArch {c : Prop} [Decidable c] {s s' u u' : State} (hs : s'.toArch = s.toArch)
    (hu : u'.toArch = u.toArch) : (if c then s' else u').toArch = (if c then s else u).toArch := by
  split
  · exact hs
  · exact hu

/-- An effect goes by the architectural state and nothing else. -/
theorem effect_toArch_congr {s u : State} (h : u.toArch = s.toArch) (id : Nat) :
    (effect id u).toArch = (effect id s).toArch := by
  obtain ⟨arch, _⟩ := s
  obtain ⟨_, _⟩ := u
  obtain rfl := h
  unfold effect
  split
  case h_6 => unfold effIr2mc; exact apply_ite_toArch rfl rfl
  case h_10 => unfold effSkipz; exact apply_ite_toArch rfl rfl
  all_goals rfl

/-- A number that is no id of the dispatch table is a fault (R133, R192). -/
theorem hostManualStep_unknown {x : HostNum} (h : ∀ id : Nat, legalId id = true → x ≠ .int id) (s : State) :
    hostManualStep x s = s.takeFault (.invalidMicroOp x s.mc) := by
  have hnone : x.dispatchId = none := HostNum.microId_eq_none h
  simp only [hostManualStep, hnone]

/-- The dispatch on opcode 0 is a fault and is not recorded (R134). -/
theorem hostManualStep_fetchFault {s : State} (h : s.irOpcode = 0) :
    hostManualStep (.int (5 : Nat)) s = s.takeFault (.fetchFault s.ir s.pc s.mc) := by
  have hid : (HostNum.int (5 : Nat)).dispatchId = some 5 := HostNum.microId_of_legal rfl
  simp only [hostManualStep, hid, h, and_self, if_true]

/-- The effect of an id of the dispatch table is recorded (R134). -/
theorem hostManualStep_recorded {s t : State} {id : Nat} (hid : legalId id = true)
    (hir : ¬ (id = 5 ∧ s.irOpcode = 0)) (h : (effect id s).record (.int id) = .ok t) :
    hostManualStep (.int id) s = t.answer .ok := by
  have hsome : (HostNum.int id).dispatchId = some id := HostNum.microId_of_legal hid
  simp only [hostManualStep, hsome, if_neg hir, h]

/-- Where the recording fails, its fault is the response (R134). -/
theorem hostManualStep_notRecorded {s : State} {f : HostFault} {id : Nat} (hid : legalId id = true)
    (hir : ¬ (id = 5 ∧ s.irOpcode = 0)) (h : (effect id s).record (.int id) = .error f) :
    hostManualStep (.int id) s = (s.recordFailed (effect id s)).answer (.failed f) := by
  have hsome : (HostNum.int id).dispatchId = some id := HostNum.microId_of_legal hid
  simp only [hostManualStep, hsome, if_neg hir, h]

/-- No effect touches the recorder's cursor (R201). -/
theorem effect_recCursor {id : Nat} (hid : legalId id = true) (s : State) :
    (effect id s).recCursor = s.recCursor := by
  obtain ⟨-, hcur, -⟩ := (effect_coreStep hid s).host
  exact hcur

/-- With the recorder off a manual step is the effect (R133). -/
theorem hostManualStep_unrecorded {s : State} {id : Nat} (hid : legalId id = true)
    (hir : ¬ (id = 5 ∧ s.irOpcode = 0)) (hcur : s.recCursor = none) :
    hostManualStep (.int id) s = (effect id s).answer .ok :=
  hostManualStep_recorded hid hir (State.record_of_inactive ((effect_recCursor hid s).trans hcur) _)

theorem legalId_of_increments {id : Nat} (h : increments id = true) : legalId id = true := by
  simp only [increments, Bool.and_eq_true] at h
  exact h.1

theorem runId_counted {id : Nat} (h : increments id = true) (s : State) :
    runId id s = (effect id s).autoIncrement := by
  have hzero : id ≠ 0 := by
    rintro rfl
    cases h
  simp [runId, legalId_of_increments h, hzero, h]

theorem runId_uncounted {id : Nat} (hid : legalId id = true) (hzero : id ≠ 0) (h : increments id = false) (s : State) :
    runId id s = effect id s := by
  simp [runId, hid, hzero, h]

/-- Settles O41. -/
theorem manualStepOfUnknownIdHalts : Obligations.ManualStepOfUnknownIdHalts := by
  intro s x hasks hr hx
  refine ⟨hostManualStep x (s.clearOutputs.withInbox s.inbox.tail), step_of_asks_not_running hasks hr, ?_⟩
  rw [hostManualStep_unknown hx]
  exact ⟨rfl, rfl, rfl, rfl⟩

/-- Without its auto-increment a counted id leaves the machine as its effect does (R124, R133). -/
theorem effect_autoIncrement_toArch {id : Nat} (h : increments id = true) (s : State) :
    { (effect id s).autoIncrement.toArch with mc := s.mc } = (effect id s).toArch := by
  rw [← effect_mc h s]
  rfl

/-- Settles O40: with the recorder off the step is the effect, which the kinds of id relate to `exec`; a dispatch on
opcode 0 takes its fault. -/
theorem manualStepIsTheEffectWithoutIncrement : Obligations.ManualStepIsTheEffectWithoutIncrement := by
  intro s u id i hasks hr hdecode hexec
  obtain rfl : runId id s = u := Host.Outcome.next.inj ((exec_of_decodeSlot hdecode s).symm.trans hexec)
  have hunrecorded (hcur : s.recCursor = none) (hid : legalId id = true) (hir : ¬ (id = 5 ∧ s.irOpcode = 0)) :
      (hostManualStep (.int id) (s.clearOutputs.withInbox s.inbox.tail)).toArch = (effect id s).toArch ∧
      (hostManualStep (.int id) (s.clearOutputs.withInbox s.inbox.tail)).response = some .ok := by
    rw [hostManualStep_unrecorded (s := s.clearOutputs.withInbox s.inbox.tail) hid hir hcur]
    have harch := effect_toArch_congr (s := s) (u := s.clearOutputs.withInbox s.inbox.tail) rfl id
    exact ⟨harch, rfl⟩
  refine ⟨hostManualStep (.int id) (s.clearOutputs.withInbox s.inbox.tail), step_of_asks_not_running hasks hr,
    fun hcur => ⟨fun hinc => ?counted, ?nop, fun hid => ?others⟩, ?fetchFault⟩
  case counted =>
    have hir : ¬ (id = 5 ∧ s.irOpcode = 0) := by
      rintro ⟨rfl, -⟩
      cases hinc
    rw [runId_counted hinc, effect_autoIncrement_toArch hinc]
    exact hunrecorded hcur (legalId_of_increments hinc) hir
  case nop =>
    rintro rfl
    exact hunrecorded hcur rfl nofun
  case others =>
    have hir : ¬ (id = 5 ∧ s.irOpcode = 0) := by
      rw [State.irOpcode_eq_zero_iff]
      omega
    have hkind : legalId id = true ∧ id ≠ 0 ∧ increments id = false := by
      rcases hid with rfl | rfl | ⟨rfl, -⟩ <;> decide
    obtain ⟨hlegal, hzero, hinc⟩ := hkind
    rw [runId_uncounted hlegal hzero hinc]
    exact hunrecorded hcur hlegal hir
  case fetchFault =>
    rintro rfl hir
    rw [hostManualStep_fetchFault (s := s.clearOutputs.withInbox s.inbox.tail) (s.irOpcode_eq_zero_iff.mpr hir)]
    exact ⟨rfl, rfl, rfl, rfl⟩

/-- Registers are of the architectural state. -/
theorem State.reg_toArch_congr {s u : State} (h : u.toArch = s.toArch) (r : Reg) : u.reg r = s.reg r := by
  cases r with
  | ab => exact congrArg (fun a => a.ab.val) h
  | db => exact congrArg (fun a => a.db.val) h
  | acc => exact congrArg (fun a => a.acc.val) h
  | pc => exact congrArg (fun a => a.pc.val) h
  | ir => exact congrArg (fun a => a.ir.val) h
  | mc => exact congrArg (fun a => a.mc.val) h

/-- No effect touches Microcode (R201). -/
theorem effect_microcode {id : Nat} (hid : legalId id = true) (s : State) :
    (effect id s).microcode = s.microcode := by
  obtain ⟨-, -, hcode, -⟩ := (effect_coreStep hid s).host
  exact hcode

theorem State.mcRead_congr {s u : State} (h : u.microcode = s.microcode) (x : Nat) : u.mcRead x = s.mcRead x :=
  congrArg (fun m => Store.read 0 m x) h

/-- Settles O42: what is recorded is the effect's state, below cursor 200 and at it. -/
theorem manualStepIsRecordedAfterItsEffect : Obligations.ManualStepIsRecordedAfterItsEffect := by
  intro s id c hasks hr hwf hcur hid hir
  have hstep := step_of_asks_not_running hasks hr
  have harch := effect_toArch_congr (s := s) (u := s.clearOutputs.withInbox s.inbox.tail) rfl id
  have hmem := congrArg Arch.memory harch
  have hhalted := congrArg Arch.halted harch
  have hir' : ¬ (id = 5 ∧ (s.clearOutputs.withInbox s.inbox.tail).irOpcode = 0) := by
    rwa [State.irOpcode_eq_zero_iff]
  have hcode := effect_microcode hid (s.clearOutputs.withInbox s.inbox.tail)
  have hcur' := (effect_recCursor hid (s.clearOutputs.withInbox s.inbox.tail)).trans hcur
  rcases Nat.lt_or_ge c.val 200 with hc | hc
  · refine ⟨_, hstep.trans (congrArg Host.Outcome.next
      (hostManualStep_recorded hid hir' (State.record_of_lt hcur' hc hid))),
      fun r => State.reg_toArch_congr harch r, hmem, hhalted,
      fun _ => ⟨rfl, congrArg some (Cursor.next_val hc), fun x => ?_⟩, fun h => absurd h (by omega)⟩
    have hwf' : Microcode.wf (effect id (s.clearOutputs.withInbox s.inbox.tail)).microcode = true := hcode ▸ hwf
    exact (State.mcRead_mcWrite hwf' c.val x id).trans (by rw [State.mcRead_congr hcode]; rfl)
  · have hfull : c.val = 200 := by omega
    refine ⟨_, hstep.trans (congrArg Host.Outcome.next
      (hostManualStep_notRecorded hid hir' (State.record_full hcur' hfull _))),
      fun r => State.reg_toArch_congr harch r, hmem, hhalted,
      fun h => absurd h (by omega), fun _ => ⟨rfl, hcur', hcode, ?_⟩⟩
    rintro rfl hh
    simp [State.endedNormally, State.endedByFault, hh, effect, effHalt]

end Sys2Proof.Machine
end

