-- ==== Sys2Proof/Proofs/Rows.lean ====
section
/-! SUPPORT. The RamEditor, word by word: the shifts, the fix-up and its notifications, and the statements on the two
row commands. -/

namespace Sys2Proof.Machine

/-! ## The fix-up (R254) -/

theorem fixUpSelects_iff {hlt : Opcode} {sel : Nat} {w : Word} :
    fixUpSelects hlt sel w.val ↔ opcodeOf w ≠ 0 ∧ opcodeOf w ≠ hlt ∧ sel ≤ (operandOf w).val := by
  simp only [fixUpSelects, ne_eq, ← Fin.val_inj, opcodeOf_val, operandOf_val, Fin.val_zero]

theorem fixedWord_of_not_selects {hlt : Opcode} {sel : Nat} {w : Word} (h : ¬ fixUpSelects hlt sel w.val)
    (delta : Int) : fixedWord hlt sel delta w = .ok none :=
  if_neg (mt fixUpSelects_iff.mpr h)

theorem fixedWord_of_not_fits {hlt : Opcode} {sel : Nat} {delta : Int} {w : Word} (h : fixUpSelects hlt sel w.val)
    (hfits : ¬ fixUpFits delta w.val) : fixedWord hlt sel delta w = .error () :=
  (if_pos (fixUpSelects_iff.mp h)).trans (if_neg hfits)

theorem fixedWord_of_fits {hlt : Opcode} {sel : Nat} {delta : Int} {w : Word} (h : fixUpSelects hlt sel w.val)
    (hfits : fixUpFits delta w.val) :
    ∃ w', fixedWord hlt sel delta w = .ok (some w') ∧ w'.val = fixedUp hlt sel delta w.val := by
  refine ⟨_, (if_pos (fixUpSelects_iff.mp h)).trans (if_pos hfits), ?_⟩
  have hval : (packWord (opcodeOf w) (clampAddr ((operandOf w).val + delta))).val =
      (opcodeOf w).val * 1000 + (clampAddr ((operandOf w).val + delta)).val := rfl
  rw [hval, clampAddr_val, fixedUp, if_pos ⟨h, hfits⟩, opcodeOf_val, operandOf_val]
  obtain ⟨-, hle⟩ := hfits
  omega

theorem fixedUp_of_not {hlt : Opcode} {sel : Nat} {delta : Int} {w : Nat}
    (h : ¬ (fixUpSelects hlt sel w ∧ fixUpFits delta w)) : fixedUp hlt sel delta w = w := if_neg h

/-- A word of opcode 0 is not looked at (R254). -/
theorem not_fixUpSelects_zero (hlt : Opcode) (sel : Nat) : ¬ fixUpSelects hlt sel 0 := fun h => h.1 rfl

/-- The fix-up has to skip the word `w` (R254). -/
def fixUpSkips (hlt : Opcode) (sel : Nat) (delta : Int) (w : Nat) : Prop := fixUpSelects hlt sel w ∧ ¬ fixUpFits delta w

/-- From `s` to `t` the words at the addresses of `l` are fixed up, or their skipping is notified (R254). -/
structure FixesUp (hlt : Opcode) (sel : Nat) (delta : Int) (l : List Nat) (s t : State) : Prop where
  word : ∀ y, (t.memRead y).val = if y ∈ l then fixedUp hlt sel delta (s.memRead y).val else (s.memRead y).val
  skipped : ∀ y, Event.fixUpSkipped y ∈ t.events ↔
    Event.fixUpSkipped y ∈ s.events ∨ y ∈ l ∧ fixUpSkips hlt sel delta (s.memRead y).val

section

variable {hlt : Opcode} {sel : Nat} {delta : Int} {x : Nat} {l : List Nat} {s t u : State}

theorem FixesUp.single (hword : (t.memRead x).val = fixedUp hlt sel delta (s.memRead x).val)
    (hother : ∀ y, y ≠ x → t.memRead y = s.memRead y)
    (hskipped : ∀ y, Event.fixUpSkipped y ∈ t.events ↔
      Event.fixUpSkipped y ∈ s.events ∨ y = x ∧ fixUpSkips hlt sel delta (s.memRead x).val) :
    FixesUp hlt sel delta [x] s t := by
  constructor <;> intro y <;> by_cases hy : y = x
  · simpa [hy] using hword
  · simp [hy, hother y hy]
  · simpa [hy] using hskipped x
  · simpa [hy] using hskipped y

theorem FixesUp.cons (h : FixesUp hlt sel delta [x] s t) (h' : FixesUp hlt sel delta l t u) (hx : x ∉ l) :
    FixesUp hlt sel delta (x :: l) s u := by
  have hother : ∀ y, y ≠ x → t.memRead y = s.memRead y := fun y hy => Fin.ext (by simpa [hy] using h.word y)
  constructor
  · intro y
    rw [h'.word]
    by_cases hy : y = x
    · subst hy
      simpa [hx] using h.word y
    · simp [hy, hother y hy]
  · intro y
    rw [h'.skipped, h.skipped]
    by_cases hy : y = x
    · subst hy
      simp [hx]
    · simp [hy, hother y hy]

end

theorem fixUpAt_fixesUp {s : State} (hwf : Memory.wf s.memory = true) (hlt : Opcode) (sel : Nat) (delta : Int)
    (x : Nat) : FixesUp hlt sel delta [x] s (fixUpAt hlt sel delta s x) := by
  unfold fixUpAt
  by_cases hsel : fixUpSelects hlt sel (s.memRead x).val
  · by_cases hfits : fixUpFits delta (s.memRead x).val
    · obtain ⟨w, hw, hval⟩ := fixedWord_of_fits hsel hfits
      have hskips : ¬ fixUpSkips hlt sel delta (s.memRead x).val := fun h => h.2 hfits
      rw [hw]
      exact .single (by simpa [State.memRead_memWrite hwf] using hval)
        (fun y hy => by simp [State.memRead_memWrite hwf, hy]) (by simp [hskips])
    · have hskips : fixUpSkips hlt sel delta (s.memRead x).val := ⟨hsel, hfits⟩
      rw [fixedWord_of_not_fits hsel hfits]
      exact .single (fixedUp_of_not fun h => hfits h.2).symm (fun _ _ => rfl) (by simp [hskips])
  · have hskips : ¬ fixUpSkips hlt sel delta (s.memRead x).val := fun h => hsel h.1
    rw [fixedWord_of_not_selects hsel]
    exact .single (fixedUp_of_not fun h => hsel h.1).symm (fun _ _ => rfl) (by simp [hskips])

theorem foldl_fixUpAt_fixesUp (hlt : Opcode) (sel : Nat) (delta : Int) {l : List Nat} (hl : ∀ x ∈ l, x < 1000)
    (hnodup : l.Nodup) {s : State} (hwf : Memory.wf s.memory = true) :
    FixesUp hlt sel delta l s (l.foldl (fixUpAt hlt sel delta) s) := by
  induction l generalizing s with
  | nil => exact ⟨by simp, by simp⟩
  | cons x l ih =>
    obtain ⟨hx, hl⟩ := List.forall_mem_cons.mp hl
    obtain ⟨hnotin, hnodup⟩ := List.nodup_cons.mp hnodup
    exact (fixUpAt_fixesUp hwf hlt sel delta x).cons (ih hl hnodup (fixUpAt_wf hx hwf)) hnotin

theorem fixUp_fixesUp {s : State} (hwf : Memory.wf s.memory = true) (hlt : Opcode) (sel : Nat) (delta : Int) :
    FixesUp hlt sel delta (List.range 1000) s (fixUp hlt sel delta s) :=
  foldl_fixUpAt_fixesUp hlt sel delta (fun _ => List.mem_range.mp) List.nodup_range hwf

/-- Past the end of Memory every word is 0. -/
theorem State.memRead_outside {s : State} (hwf : Memory.wf s.memory = true) {x : Nat} (hx : 1000 ≤ x) :
    s.memRead x = 0 := Store.read_outside 0 hwf hx

/-- Settles O55. -/
theorem fixUpMovesOperandsFromTheRowOn : Obligations.FixUpMovesOperandsFromTheRowOn := by
  intro s hlt sel delta x hwf hx _
  rw [(fixUp_fixesUp hwf hlt sel delta).word, if_pos (List.mem_range.mpr hx)]
  simp only [fixedUp, fixUpSelects, fixUpFits, and_assoc]

/-! ## The shifts (R250, R252) -/

/-- From `s` to `t` no skipping of a fix-up is notified. -/
def SkipsNothing (s t : State) : Prop := ∀ y, Event.fixUpSkipped y ∈ t.events ↔ Event.fixUpSkipped y ∈ s.events

theorem State.memWrite_skipsNothing (s : State) (a : Nat) (v : Word) : SkipsNothing s (s.memWrite a v) := by
  simp [SkipsNothing]

theorem SkipsNothing.trans {s t u : State} (h : SkipsNothing s t) (h' : SkipsNothing t u) : SkipsNothing s u :=
  fun y => (h' y).trans (h y)

theorem shiftRowsUp_skipsNothing (sel n : Nat) (s : State) : SkipsNothing s (shiftRowsUp sel n s) := by
  induction n generalizing s with
  | zero => exact fun _ => Iff.rfl
  | succ n ih => exact (s.memWrite_skipsNothing _ _).trans (ih _)

theorem shiftRowsDown_skipsNothing (sel n : Nat) (s : State) : SkipsNothing s (shiftRowsDown sel n s) := by
  induction n generalizing sel s with
  | zero => exact fun _ => Iff.rfl
  | succ n ih => exact (s.memWrite_skipsNothing _ _).trans (ih _ _)

theorem shiftRowsUp_memRead {sel n : Nat} (hn : sel + n < 1000) {s : State} (hwf : Memory.wf s.memory = true)
    (x : Nat) :
    (shiftRowsUp sel n s).memRead x = if sel < x ∧ x ≤ sel + n then s.memRead (x - 1) else s.memRead x := by
  induction n generalizing s with
  | zero => exact (if_neg (by omega)).symm
  | succ n ih =>
    rw [shiftRowsUp, ih (by omega) (State.memWrite_wf hwf (by omega) _)]
    simp only [State.memRead_memWrite hwf]
    by_cases hx : x = sel + n + 1
    · subst hx
      rw [if_neg (by omega), if_pos rfl, if_pos (by omega)]
      rfl
    · by_cases hin : sel < x ∧ x ≤ sel + n
      · rw [if_pos hin, if_neg (by omega), if_pos (by omega)]
      · rw [if_neg hin, if_neg hx, if_neg (by omega)]

theorem shiftRowsDown_memRead {sel n : Nat} (hn : sel + n ≤ 1000) {s : State} (hwf : Memory.wf s.memory = true)
    (x : Nat) :
    (shiftRowsDown sel n s).memRead x = if sel ≤ x ∧ x < sel + n then s.memRead (x + 1) else s.memRead x := by
  induction n generalizing sel s with
  | zero => exact (if_neg (by omega)).symm
  | succ n ih =>
    rw [shiftRowsDown, ih (by omega) (State.memWrite_wf hwf (by omega) _)]
    simp only [State.memRead_memWrite hwf]
    by_cases hx : x = sel
    · subst hx
      rw [if_neg (by omega), if_pos rfl, if_pos (by omega)]
    · by_cases hin : sel + 1 ≤ x ∧ x < sel + 1 + n
      · rw [if_pos hin, if_neg (by omega), if_pos (by omega)]
      · rw [if_neg hin, if_neg hx, if_neg (by omega)]

/-! ## The row commands (R250, R252) -/

/-- Above the last used address every word is 0 (R64). -/
theorem State.memRead_above_last {s : State} (hwf : Memory.wf s.memory = true) {last : Nat}
    (hlast : s.lastUsedAddress = some last) {x : Nat} (hx : last < x) : s.memRead x = 0 :=
  (Store.highest_of_lastUsed 0 hwf hlast).2 x hx

theorem State.memRead_last {s : State} (hwf : Memory.wf s.memory = true) {last : Nat}
    (hlast : s.lastUsedAddress = some last) : s.memRead last ≠ 0 :=
  (Store.highest_of_lastUsed 0 hwf hlast).1

theorem State.memRead_of_unused {s : State} (hwf : Memory.wf s.memory = true) (hlast : s.lastUsedAddress = none)
    (x : Nat) : s.memRead x = 0 :=
  (Store.lastUsed_eq_none_iff 0 hwf).mp hlast x

/-- An opened row is what R250 says, word by word. -/
theorem openRow_memRead {s : State} (hwf : Memory.wf s.memory = true) {sel last : Nat} (hsel : sel < 1000)
    (hlast : s.lastUsedAddress = some last) (hlt : last < 999) (x : Nat) :
    (openRow sel last s).memRead x = s.rowInserted sel x := by
  rw [openRow, State.memRead_memWrite (shiftRowsUp_wf (by omega) hwf), shiftRowsUp_memRead (by omega) hwf,
    State.rowInserted]
  by_cases hx : x = sel
  · rw [if_pos hx, if_neg (by omega), if_pos hx]
  · rw [if_neg hx, if_neg hx]
    by_cases hbelow : x < sel
    · rw [if_neg (by omega), if_pos hbelow]
    · rw [if_neg hbelow]
      by_cases hin : x ≤ sel + (last + 1 - sel)
      · rw [if_pos (by omega)]
      · rw [if_neg (by omega), s.memRead_above_last hwf hlast (by omega), s.memRead_above_last hwf hlast (by omega)]

/-- A closed row is what R252 says, word by word. -/
theorem closeRow_memRead {s : State} (hwf : Memory.wf s.memory = true) {sel last : Nat}
    (hlast : s.lastUsedAddress = some last) (hle : sel ≤ last) (x : Nat) :
    (closeRow sel last s).memRead x = s.rowDeleted sel x := by
  have hlt := State.lastUsedAddress_lt hwf hlast
  rw [closeRow, State.memRead_memWrite (shiftRowsDown_wf (by omega) hwf), shiftRowsDown_memRead (by omega) hwf,
    State.rowDeleted]
  by_cases hx : x = last
  · rw [if_pos hx, if_neg (by omega), s.memRead_above_last hwf hlast (by omega)]
  · rw [if_neg hx]
    by_cases hbelow : x < sel
    · rw [if_neg (by omega), if_pos hbelow]
    · rw [if_neg hbelow]
      by_cases hin : x < last
      · rw [if_pos (by omega)]
      · rw [if_neg (by omega), s.memRead_above_last hwf hlast (by omega), s.memRead_above_last hwf hlast (by omega)]

/-- Where no word is in use, opening a row leaves every word 0. -/
theorem State.rowInserted_of_unused {s : State} (h : ∀ x, s.memRead x = 0) (sel x : Nat) : s.rowInserted sel x = 0 := by
  simp [State.rowInserted, h]

/-- Where no word is in use from the row on, removing it leaves every word as it is. -/
theorem State.rowDeleted_of_unused {s : State} {sel : Nat} (h : ∀ y, sel ≤ y → s.memRead y = 0) (x : Nat) :
    s.rowDeleted sel x = s.memRead x := by
  rw [State.rowDeleted]
  split
  · rfl
  · rw [h x (by omega), h (x + 1) (by omega)]

/-- Removing the row just opened gives every word back (R255). -/
theorem State.rowDeleted_of_rowInserted {s t : State} {sel : Nat} (h : ∀ x, t.memRead x = s.rowInserted sel x)
    (x : Nat) :
    t.rowDeleted sel x = s.memRead x := by
  rw [State.rowDeleted, h, h, State.rowInserted, State.rowInserted]
  split
  · rfl
  · rw [if_neg (by omega), if_neg (by omega), Nat.add_sub_cancel]

theorem openRow_skipsNothing (sel last : Nat) (s : State) : SkipsNothing s (openRow sel last s) :=
  (shiftRowsUp_skipsNothing _ _ s).trans (State.memWrite_skipsNothing _ _ _)

theorem closeRow_skipsNothing (sel last : Nat) (s : State) : SkipsNothing s (closeRow sel last s) :=
  (shiftRowsDown_skipsNothing _ _ s).trans (State.memWrite_skipsNothing _ _ _)

/-- The words are held with the fix-up applied where it is enabled (R254). -/
theorem holdsRows_fixUpIf {s : State} (hwf : Memory.wf s.memory = true)
    (hevents : ∀ x, Event.fixUpSkipped x ∉ s.events) {word : Nat → Word} (hword : ∀ x, s.memRead x = word x)
    (fixup : Bool) (hlt : Opcode) (sel : Nat) (delta : Int) :
    HoldsRows fixup hlt sel delta word (fixUpIf fixup hlt sel delta s) := by
  intro x
  rw [← hword x]
  cases fixup with
  | false => exact ⟨rfl, iff_of_false (hevents x) nofun⟩
  | true =>
    have hfix := fixUp_fixesUp hwf hlt sel delta
    rw [fixUpIf_true, hfix.word, hfix.skipped, or_iff_right (hevents x)]
    by_cases hx : x ∈ List.range 1000
    · exact ⟨if_pos hx, and_iff_right hx |>.trans (and_iff_right rfl).symm⟩
    · have hzero : (s.memRead x).val = 0 :=
        congrArg Fin.val (State.memRead_outside hwf (not_lt.mp (mt List.mem_range.mpr hx)))
      have hnot := not_fixUpSelects_zero hlt sel
      rw [if_neg hx, hzero, if_pos rfl, fixedUp_of_not fun h => hnot h.1]
      exact ⟨rfl, iff_of_false (fun h => hx h.1) fun h => hnot h.2.1⟩

/-- Where all words are 0 a fix-up has nothing to do (R254). -/
theorem holdsRows_of_zero {s : State} (hevents : ∀ x, Event.fixUpSkipped x ∉ s.events) {word : Nat → Word}
    (hword : ∀ x, word x = 0) (hs : ∀ x, s.memRead x = 0) (fixup : Bool) (hlt : Opcode) (sel : Nat) (delta : Int) :
    HoldsRows fixup hlt sel delta word s := by
  intro x
  have hnot := not_fixUpSelects_zero hlt sel
  have hzero : (word x).val = 0 := congrArg Fin.val (hword x)
  rw [hs x, hzero, fixedUp_of_not fun h => hnot h.1, ite_self]
  exact ⟨rfl, iff_of_false (hevents x) fun h => hnot h.2.1⟩

/-- What a row command that succeeds leaves: a machine changed in Memory only, whose words are those given, with the
fix-up applied where it is enabled. -/
structure LeavesRows (fixup : Bool) (hlt : Opcode) (sel : Nat) (delta : Int) (word : Nat → Word) (s t : State) :
    Prop where
  writes : WritesMemory s t
  wf : Memory.wf t.memory = true
  rows : HoldsRows fixup hlt sel delta word t

theorem hostInsertRowAbove_leavesRows {s : State} (hwf : Memory.wf s.memory = true)
    (hevents : ∀ x, Event.fixUpSkipped x ∉ s.events) {sel : Nat} (hsel : sel < 1000) (hroom : s.memRead 999 = 0)
    (p : Config.Params) (fixup : Bool) :
    ∃ t, hostInsertRowAbove p (.int sel) fixup s = t.answer .ok ∧
      LeavesRows fixup p.hltOpcode sel 1 (s.rowInserted sel) s t := by
  have hselected : (HostNum.int sel).upTo 999 = some sel := HostNum.upTo_of_lt hsel
  cases hlast : s.lastUsedAddress with
  | none =>
    have hzero := State.memRead_of_unused hwf hlast
    exact ⟨s, hostInsertRowAbove_unused hselected hlast p fixup, .refl s, hwf,
      holdsRows_of_zero hevents (State.rowInserted_of_unused hzero sel) hzero _ _ _ _⟩
  | some last =>
    have hne : last ≠ 999 := by
      rintro rfl
      exact State.memRead_last hwf hlast hroom
    have hlt : last < 999 := by
      have := State.lastUsedAddress_lt hwf hlast
      omega
    have hwf' := openRow_wf hwf hsel hlt
    exact ⟨_, hostInsertRowAbove_opens hselected hlast hne p fixup,
      (openRow_writesMemory sel last s).trans (fixUpIf_writesMemory _ _ _ _ _), fixUpIf_wf hwf' _ _ _ _,
      holdsRows_fixUpIf hwf' (fun x => mt (openRow_skipsNothing sel last s x).mp (hevents x))
        (openRow_memRead hwf hsel hlast hlt) _ _ _ _⟩

theorem hostDeleteRow_leavesRows {s : State} (hwf : Memory.wf s.memory = true)
    (hevents : ∀ x, Event.fixUpSkipped x ∉ s.events) {sel : Nat} (hsel : sel < 1000)
    (hused : ∃ y, sel ≤ y ∧ s.memRead y ≠ 0) (p : Config.Params) (fixup : Bool) :
    ∃ t, hostDeleteRow p (.int sel) fixup s = t.answer .ok ∧
      LeavesRows fixup p.hltOpcode sel (-1) (s.rowDeleted sel) s t := by
  obtain ⟨y, hy, hread⟩ := hused
  have hselected : (HostNum.int sel).upTo 999 = some sel := HostNum.upTo_of_lt hsel
  cases hlast : s.lastUsedAddress with
  | none => exact absurd (State.memRead_of_unused hwf hlast y) hread
  | some last =>
    have hle : sel ≤ last := by
      by_contra hgt
      exact hread (State.memRead_above_last hwf hlast (by omega))
    have hwf' := closeRow_wf hwf hle (State.lastUsedAddress_lt hwf hlast)
    exact ⟨_, hostDeleteRow_closes hselected hlast hle p fixup,
      (closeRow_writesMemory sel last s).trans (fixUpIf_writesMemory _ _ _ _ _), fixUpIf_wf hwf' _ _ _ _,
      holdsRows_fixUpIf hwf' (fun x => mt (closeRow_skipsNothing sel last s x).mp (hevents x))
        (closeRow_memRead hwf hlast hle) _ _ _ _⟩

theorem hostDeleteRow_of_unused {s : State} (hwf : Memory.wf s.memory = true) {sel : Nat} (hsel : sel < 1000)
    (hunused : ∀ y, sel ≤ y → s.memRead y = 0) (p : Config.Params) (fixup : Bool) :
    hostDeleteRow p (.int sel) fixup s = s.answer .ok := by
  refine hostDeleteRow_unused (HostNum.upTo_of_lt hsel) (fun last hlast => ?_) p fixup
  by_contra hge
  exact State.memRead_last hwf hlast (hunused last (not_lt.mp hge))

theorem hostInsertRowAbove_of_full {s : State} (hwf : Memory.wf s.memory = true) {sel : Nat} (hsel : sel < 1000)
    (hfull : s.memRead 999 ≠ 0) (p : Config.Params) (fixup : Bool) :
    hostInsertRowAbove p (.int sel) fixup s = s.answer (.failed .memoryFull) :=
  hostInsertRowAbove_full (HostNum.upTo_of_lt hsel)
    ((Store.lastUsed_eq_some_iff 0 hwf 999).mpr ⟨hfull, fun _ hx => State.memRead_outside hwf hx⟩) p fixup

theorem WritesMemory.arch {s t : State} (h : WritesMemory s t) : { t.toArch with memory := s.memory } = s.toArch := by
  obtain ⟨m, es, rfl⟩ := h
  rfl

/-- Settles O53: the cases of the two commands, on the state without the outputs and the command. -/
theorem rowCommandsShiftTheUsedRows : Obligations.RowCommandsShiftTheUsedRows := by
  intro p s fixup hr hwf
  have hevents : ∀ x, Event.fixUpSkipped x ∉ (s.clearOutputs.withInbox s.inbox.tail).events := fun _ => List.not_mem_nil
  refine ⟨fun sel hsel => ⟨fun hasks hroom => ?insert, fun hasks hfull => ?full, fun hasks hused => ?delete,
    fun hasks hunused => ?unused⟩, fun a hout hasks => ?outside⟩
  case insert =>
    obtain ⟨t, ht, hleaves⟩ := hostInsertRowAbove_leavesRows (s := s.clearOutputs.withInbox s.inbox.tail) hwf hevents
      hsel hroom p fixup
    exact ⟨_, (stepWith_of_asks_not_running hasks hr p).trans (congrArg Host.Outcome.next ht), rfl, hleaves.writes.arch,
      hleaves.rows⟩
  case full =>
    exact ⟨_, (stepWith_of_asks_not_running hasks hr p).trans (congrArg Host.Outcome.next
      (hostInsertRowAbove_of_full (s := s.clearOutputs.withInbox s.inbox.tail) hwf hsel hfull p fixup)), rfl, rfl⟩
  case delete =>
    obtain ⟨t, ht, hleaves⟩ := hostDeleteRow_leavesRows (s := s.clearOutputs.withInbox s.inbox.tail) hwf hevents
      hsel hused p fixup
    exact ⟨_, (stepWith_of_asks_not_running hasks hr p).trans (congrArg Host.Outcome.next ht), rfl, hleaves.writes.arch,
      hleaves.rows⟩
  case unused =>
    exact ⟨_, (stepWith_of_asks_not_running hasks hr p).trans (congrArg Host.Outcome.next
      (hostDeleteRow_of_unused (s := s.clearOutputs.withInbox s.inbox.tail) hwf hsel hunused p fixup)), rfl, rfl⟩
  case outside =>
    have hnone : a.upTo 999 = none := HostNum.upTo_eq_none_iff.mpr hout
    rcases hasks with hasks | hasks
    · exact ⟨_, (stepWith_of_asks_not_running hasks hr p).trans (congrArg Host.Outcome.next
        (hostInsertRowAbove_outside hnone p fixup _)), rfl, rfl⟩
    · exact ⟨_, (stepWith_of_asks_not_running hasks hr p).trans (congrArg Host.Outcome.next
        (hostDeleteRow_outside hnone p fixup _)), rfl, rfl⟩

/-- Deleting the row just inserted gives the Memory before the insert (R255). -/
theorem hostDeleteRow_restores {s u : State} (hwf : Memory.wf s.memory = true) (hwfU : Memory.wf u.memory = true)
    (hevents : ∀ x, Event.fixUpSkipped x ∉ u.events) {sel : Nat} (hsel : sel < 1000)
    (hrows : ∀ x, u.memRead x = s.rowInserted sel x) (p : Config.Params) :
    ∃ v, hostDeleteRow p (.int sel) false u = v.answer .ok ∧ WritesMemory u v ∧ v.memory = s.memory := by
  have hback := State.rowDeleted_of_rowInserted hrows
  by_cases hused : ∃ y, sel ≤ y ∧ u.memRead y ≠ 0
  · obtain ⟨v, hv, hwrites, hwfV, hwords⟩ := hostDeleteRow_leavesRows hwfU hevents hsel hused p false
    exact ⟨v, hv, hwrites, Store.ext_of_wf 0 hwfV hwf fun x => (Fin.ext (hwords x).1).trans (hback x)⟩
  · have hunused : ∀ y, sel ≤ y → u.memRead y = 0 := fun y hy => by_contra fun hne => hused ⟨y, hy, hne⟩
    exact ⟨u, hostDeleteRow_of_unused hwfU hsel hunused p false, .refl u, Store.ext_of_wf 0 hwfU hwf fun x =>
      (State.rowDeleted_of_unused hunused x).symm.trans (hback x)⟩

/-- Settles O54: the insert leaves the words of R250, and the delete the words of R252 of those. -/
theorem insertThenDeleteRestoresMemory : Obligations.InsertThenDeleteRestoresMemory := by
  intro s sel hsel hwf hroom hidle hr hinbox
  have hasks : s.asks (.insertRowAbove (.int sel) false) := ⟨hidle, by simp [hinbox]⟩
  obtain ⟨t, ht, hwrites, hwfT, hwords⟩ := hostInsertRowAbove_leavesRows (s := s.clearOutputs.withInbox s.inbox.tail)
    hwf (fun _ => List.not_mem_nil) hsel hroom Config.params false
  have hrows : ∀ x, t.memRead x = s.rowInserted sel x := fun x => Fin.ext (hwords x).1
  obtain ⟨m, es, rfl⟩ := hwrites
  generalize hu : State.answer _ .ok = u at ht
  have hasksU : u.asks (.deleteRow (.int sel) false) := by
    subst hu
    exact ⟨hidle, by simp [hinbox]⟩
  have hrU : u.running = false := hu ▸ hr
  have hinboxU : u.inbox.tail = [] := by simp [← hu, hinbox]
  obtain ⟨v, hv, hwritesV, hmemory⟩ := hostDeleteRow_restores (s := s) (u := u.clearOutputs.withInbox u.inbox.tail) hwf
    (hu ▸ hwfT) (fun _ => List.not_mem_nil) hsel (hu ▸ hrows) Config.params
  refine ⟨u, _, (step_of_asks_not_running hasks hr).trans (congrArg Host.Outcome.next ht),
    (step_of_asks_not_running hasksU hrU).trans (congrArg Host.Outcome.next hv), hu ▸ rfl, rfl, ?_⟩
  obtain ⟨m', es', rfl⟩ := hwritesV
  obtain rfl : m' = s.memory := hmemory
  subst hu
  rfl

end Sys2Proof.Machine
end

