-- ==== Sys2Proof/Proofs/ProjectStore.lean ====
section
/-! SUPPORT. Exports and imports: what a trimmed array and a table of entries hold, the decimal texts, and the
statements on the snapshots and the legacy texts. -/

namespace Sys2Proof.Machine

section Store

variable {α : Type} (d : α)

theorem Store.getElem?_toList (m : Store α) (n a : Nat) :
    (Store.toList d m n)[a]? = if a < n then some (Store.read d m a) else none := by
  rw [Store.toList, List.getElem?_map]
  split
  · rw [List.getElem?_range ‹_›, Option.map_some]
  · rw [List.getElem?_eq_none (by simpa using ‹¬ a < n›), Option.map_none]

theorem Store.mem_toList {m : Store α} {n : Nat} {v : α} (h : v ∈ Store.toList d m n) : ∃ a, Store.read d m a = v := by
  obtain ⟨a, -, ha⟩ := List.mem_map.mp h
  exact ⟨a, ha⟩

theorem Store.length_toList (m : Store α) (n : Nat) : (Store.toList d m n).length = n := by
  simp [Store.toList]

theorem Store.mem_trimmed {m : Store α} {v : α} (h : v ∈ Store.trimmed d m) : ∃ a, Store.read d m a = v := by
  unfold Store.trimmed at h
  split at h
  · cases h
  · exact Store.mem_toList d h

theorem Store.mem_of_read {m : Store α} {a : Nat} (h : Store.read d m a ≠ d) : (a, Store.read d m a) ∈ m := by
  induction m with
  | nil => exact absurd rfl h
  | cons e rest ih =>
    obtain ⟨k, v⟩ := e
    by_cases hk : k = a
    · simp [Store.read, hk]
    · simp only [Store.read, if_neg hk] at h ⊢
      exact List.mem_cons_of_mem _ (ih h)

variable [DecidableEq α]

/-- The trimmed array reads as the store, and as the filler past its end (R268). -/
theorem Store.getD_trimmed {size : Nat} {m : Store α} (h : Store.wf d size m = true) (a : Nat) :
    (Store.trimmed d m).getD a d = Store.read d m a := by
  cases hlast : Store.lastUsed m with
  | none => simp [Store.trimmed, hlast, (Store.lastUsed_eq_none_iff d h).mp hlast a]
  | some last =>
    obtain ⟨-, habove⟩ := Store.highest_of_lastUsed d h hlast
    simp only [Store.trimmed, hlast, List.getD_eq_getElem?_getD, Store.getElem?_toList]
    split
    · rfl
    · exact (habove a (by omega)).symm

/-- The trimmed array does not end in the filler (R268). -/
theorem Store.getLast?_trimmed {size : Nat} {m : Store α} (h : Store.wf d size m = true) :
    (Store.trimmed d m).getLast? ≠ some d := by
  cases hlast : Store.lastUsed m with
  | none => simp [Store.trimmed, hlast]
  | some last =>
    obtain ⟨hread, -⟩ := Store.highest_of_lastUsed d h hlast
    simpa [Store.trimmed, hlast, Store.toList, List.getLast?_range] using hread

theorem Store.length_trimmed {size : Nat} {m : Store α} (h : Store.wf d size m = true) :
    (Store.trimmed d m).length ≤ size := by
  cases hlast : Store.lastUsed m with
  | none => simp [Store.trimmed, hlast]
  | some last =>
    obtain ⟨hread, -⟩ := Store.highest_of_lastUsed d h hlast
    have hlt : last < size := by
      by_contra hge
      exact hread (Store.read_outside d h (not_lt.mp hge))
    simpa [Store.trimmed, hlast, Store.length_toList] using hlt

/-- A canonical store is that of any list that is short enough and reads as it does. -/
theorem Store.ofList_eq {size : Nat} {m : Store α} (h : Store.wf d size m = true) {l : List α} (hl : l.length ≤ size)
    (hread : ∀ a, l.getD a d = Store.read d m a) : Store.ofList d l = m :=
  Store.ext_of_wf d (Store.ofList_wf d l hl) h fun a => (Store.read_ofList d l a).trans (hread a)

/-- Trimming loses nothing (R268, R270). -/
theorem Store.ofList_trimmed {size : Nat} {m : Store α} (h : Store.wf d size m = true) :
    Store.ofList d (Store.trimmed d m) = m :=
  Store.ofList_eq d h (Store.length_trimmed d h) (Store.getD_trimmed d h)

/-- The list of all its elements gives a canonical store back. -/
theorem Store.ofList_toList {size : Nat} {m : Store α} (h : Store.wf d size m = true) :
    Store.ofList d (Store.toList d m size) = m := by
  refine Store.ofList_eq d h (Store.length_toList d m size).le fun a => ?_
  rw [List.getD_eq_getElem?_getD, Store.getElem?_toList]
  split
  · rfl
  · exact (Store.read_outside d h (not_lt.mp ‹_›)).symm

end Store

/-! ## The names of a snapshot (R268, R270) -/

theorem NameTable.storeWf {m : NameTable} (h : NameTable.wf m = true) : Store.wf none 20 m = true := by
  simp only [NameTable.wf, Bool.and_eq_true] at h
  exact h.1

theorem NameTable.mem_entries {m : NameTable} (h : NameTable.wf m = true) {k : Nat} {n : Text} :
    (k, n) ∈ NameTable.entries m ↔ Store.read none m k = some n := by
  simp only [NameTable.entries, List.mem_filterMap, List.mem_range, Option.map_eq_some_iff, Prod.mk.injEq]
  constructor
  · rintro ⟨k', -, n', hread, rfl, rfl⟩
    exact hread
  · intro hread
    refine ⟨k, ?_, n, hread, rfl, rfl⟩
    by_contra hge
    rw [Store.read_outside none (NameTable.storeWf h) (not_lt.mp hge)] at hread
    cases hread

/-- Every name of the table is a valid one, of an opcode (R40). -/
theorem NameTable.valid_of_mem_entries {m : NameTable} (h : NameTable.wf m = true) {e : Nat × Text}
    (he : e ∈ NameTable.entries m) : e.1 < 20 ∧ validName e.2 = true := by
  obtain ⟨k, n⟩ := e
  have hread := (NameTable.mem_entries h).mp he
  constructor
  · by_contra hge
    rw [Store.read_outside none (NameTable.storeWf h) (not_lt.mp hge)] at hread
    cases hread
  · have hmem := Store.mem_of_read none (m := m) (a := k) (by simp [hread])
    simp only [NameTable.wf, Bool.and_eq_true, List.all_eq_true] at h
    simpa [hread] using h.2 _ hmem

/-- Entries that agree with a table, written into another, leave the first one's names at their keys. -/
theorem NameTable.read_foldl_entries {m acc : NameTable} {es : List (Nat × Text)}
    (hes : ∀ e ∈ es, e.1 < 20 ∧ Store.read none m e.1 = some e.2) (hacc : Store.wf none 20 acc = true) (k : Nat) :
    Store.read none (es.foldl (fun m e => Store.write none m e.1 (some e.2)) acc) k =
      if k ∈ es.map Prod.fst then Store.read none m k else Store.read none acc k := by
  induction es generalizing acc with
  | nil => rfl
  | cons e es ih =>
    obtain ⟨⟨hlt, hread⟩, hes⟩ := List.forall_mem_cons.mp hes
    rw [List.foldl_cons, ih hes (Store.wf_write none hacc hlt _), Store.wf_read_write none hacc]
    by_cases hk : k = e.1
    · simp [hk, hread]
    · rw [if_neg hk]
      exact if_congr (by simp [hk]) rfl rfl

/-- The entries of a table give it back (R268, R270). -/
theorem NameTable.ofEntries_entries {m : NameTable} (h : NameTable.wf m = true) :
    NameTable.ofEntries (NameTable.entries m) = m := by
  have hvalid := fun e => NameTable.valid_of_mem_entries h (e := e)
  refine Store.ext_of_wf none (NameTable.storeWf (NameTable.ofEntries_wf hvalid)) (NameTable.storeWf h) fun k => ?_
  rw [NameTable.ofEntries, NameTable.read_foldl_entries (m := m)
    (fun e he => ⟨(hvalid e he).1, (NameTable.mem_entries h).mp he⟩) rfl]
  by_cases hk : k ∈ (NameTable.entries m).map Prod.fst
  · rw [if_pos hk]
  · rw [if_neg hk]
    cases hread : Store.read none m k with
    | none => rfl
    | some n => exact absurd (List.mem_map_of_mem (f := Prod.fst) ((NameTable.mem_entries h).mpr hread)) hk

/-! ## Snapshots (R268 to R271) -/

theorem hostImport_of_none {x : RawSnapshot} (h : x.check = none) (s : State) :
    hostImport x s = s.answer (.failed .malformedSnapshot) := by
  simp only [hostImport, h]

theorem hostImport_of_some {x : RawSnapshot} {m : Memory} {code : Microcode} {names : NameTable}
    (h : x.check = some (m, code, names)) (s : State) :
    hostImport x s = (((s.setMemory m).setMicrocode code).setNames names).answer .ok := by
  simp only [hostImport, h]

/-- A presented array passes the checks where each of its elements does. -/
theorem mapM_map_eq_some {α β : Type} {f : β → Option α} {g : α → β} {l : List α} (h : ∀ x ∈ l, f (g x) = some x) :
    (l.map g).mapM f = some l :=
  mapM_eq_some_iff.mpr (by simpa using h)

/-- What a snapshot whose elements all pass the checks gives (R270). -/
theorem RawSnapshot.check_of_mapM {x : RawSnapshot} {ram mc : List HostNum} {entries : List (HostNum × Text)}
    {words : List Word} {ids : List Nat} {checked : List (Nat × Text)} (hram : x.ram = some ram)
    (hmc : x.microCode = some mc) (hentries : x.instructionNames = some entries)
    (hlen : ram.length ≤ 1000 ∧ mc.length ≤ 200) (hwords : ram.mapM HostNum.word = some words)
    (hids : mc.mapM HostNum.microId = some ids) (hchecked : entries.mapM checkName = some checked) :
    x.check = some (Store.ofList 0 words, Store.ofList 0 ids, NameTable.ofEntries checked) := by
  simp only [RawSnapshot.check, hram, hmc, hentries, if_pos hlen, hwords, hids, hchecked]

theorem Snapshot.toRaw_microCode (x : Snapshot) :
    x.toRaw.microCode = some (x.microCode.map fun n : Nat => HostNum.int n) := by
  have hflat : x.microCode.flatMap (fun n : Nat => [HostNum.int n]) = x.microCode.map fun n : Nat => HostNum.int n :=
    List.map_eq_flatMap.symm
  simpa [Snapshot.toRaw, List.map_flatMap] using hflat

/-- An exported snapshot passes the checks and gives the stores it was made from (R268, R270). -/
theorem State.check_snapshot {s : State} (hmem : Memory.wf s.memory = true) (hcode : Microcode.wf s.microcode = true)
    (hnames : NameTable.wf s.names = true) :
    s.snapshot.toRaw.check = some (s.memory, s.microcode, s.names) := by
  have hcodeWf : Store.wf 0 200 s.microcode = true := by
    simp only [Microcode.wf, Bool.and_eq_true] at hcode
    exact hcode.1
  have hwords : ((Store.trimmed 0 s.memory).map fun w : Word => HostNum.int w.val).mapM HostNum.word =
      some (Store.trimmed 0 s.memory) :=
    mapM_map_eq_some fun w _ => HostNum.word_of_lt w.isLt
  have hids : ((Store.trimmed 0 s.microcode).map fun n : Nat => HostNum.int n).mapM HostNum.microId =
      some (Store.trimmed 0 s.microcode) := by
    refine mapM_map_eq_some fun id hid => HostNum.microId_of_legal ?_
    obtain ⟨a, rfl⟩ := Store.mem_trimmed 0 hid
    exact State.mcRead_legal hcode a
  have hentries : ((NameTable.entries s.names).map fun e => (HostNum.int e.1, e.2)).mapM checkName =
      some (NameTable.entries s.names) :=
    mapM_map_eq_some fun e he => checkName_eq_some.mpr ⟨rfl, NameTable.valid_of_mem_entries hnames he⟩
  have hlengths : ((Store.trimmed 0 s.memory).map fun w : Word => HostNum.int w.val).length ≤ 1000 ∧
      ((Store.trimmed 0 s.microcode).map fun n : Nat => HostNum.int n).length ≤ 200 := by
    rw [List.length_map, List.length_map]
    exact ⟨Store.length_trimmed 0 hmem, Store.length_trimmed 0 hcodeWf⟩
  rw [RawSnapshot.check_of_mapM rfl (Snapshot.toRaw_microCode _) rfl hlengths hwords hids hentries,
    Store.ofList_trimmed 0 hmem, Store.ofList_trimmed 0 hcodeWf, NameTable.ofEntries_entries hnames]

/-- Settles O58. -/
theorem importOfExportCopiesTheStores : Obligations.ImportOfExportCopiesTheStores := by
  intro s hmem hcode hnames hasks
  have hcodeWf : Store.wf 0 200 s.microcode = true := by
    simp only [Microcode.wf, Bool.and_eq_true] at hcode
    exact hcode.1
  refine ⟨_, s.snapshot, (step_of_asks hasks).trans (issue_of_accepted rfl _), rfl, rfl, Store.getD_trimmed 0 hmem,
    Store.getLast?_trimmed 0 hmem, Store.getD_trimmed 0 hcodeWf, Store.getLast?_trimmed 0 hcodeWf,
    fun k n => NameTable.mem_entries hnames, fun u hasksU hr => ?_⟩
  exact ⟨_, (step_of_asks_not_running hasksU hr).trans (congrArg Host.Outcome.next
    (hostImport_of_some (State.check_snapshot hmem hcode hnames) _)), rfl, rfl⟩

/-! ## Strict imports (R270, R275) -/

theorem hostImportMc_of_none {ls : List Text} (h : checkMc ls = none) (s : State) :
    hostImportMc ls s = s.answer (.failed .malformedSnapshot) := by
  simp only [hostImportMc, h]

theorem hostImportMc_of_some {ls : List Text} {code : Microcode} {names : NameTable}
    (h : checkMc ls = some (code, names)) (s : State) :
    hostImportMc ls s = ((s.setMicrocode code).setNames names).answer .ok := by
  simp only [hostImportMc, h]

/-- A `.mc` text with too few data lines fails the checks (R275). -/
theorem checkMc_eq_none {ls : List Text} (h : (dataLines ls).length < 200) : checkMc ls = none := by
  cases hcheck : checkMc ls with
  | none => rfl
  | some stores =>
    obtain ⟨-, hlen, -⟩ := checkMc_eq_some hcheck
    omega

/-- A snapshot with too many elements, or one outside its range, fails the checks (R270). -/
theorem RawSnapshot.check_eq_none {x : RawSnapshot} {ram mc : List HostNum} (hram : x.ram = some ram)
    (hmc : x.microCode = some mc)
    (h : 1000 < ram.length ∨ 200 < mc.length ∨ (∃ v ∈ ram, ∀ w : Nat, w < 20000 → v ≠ .int w) ∨
      (∃ v ∈ mc, ∀ id : Nat, legalId id = true → v ≠ .int id)) : x.check = none := by
  cases hcheck : x.check with
  | none => rfl
  | some stores =>
    obtain ⟨ram', mc', -, words, ids, -, hram', hmc', -, hlen, hlen', hwords, hids, -⟩ :=
      RawSnapshot.check_eq_some hcheck
    obtain rfl : ram = ram' := Option.some.inj (hram.symm.trans hram')
    obtain rfl : mc = mc' := Option.some.inj (hmc.symm.trans hmc')
    rcases h with h | h | ⟨v, hv, hout⟩ | ⟨v, hv, hout⟩
    · omega
    · omega
    · rw [mapM_eq_none_of_mem hv (HostNum.word_eq_none hout)] at hwords
      cases hwords
    · rw [mapM_eq_none_of_mem hv (HostNum.microId_eq_none hout)] at hids
      cases hids

/-- An import answers Ok, or fails and changes nothing but the response (R270, R275). -/
def AllOrNothing (s t : State) : Prop :=
  t.response = some .ok ∨ t = s.answer (.failed .malformedSnapshot)

theorem hostImport_allOrNothing (x : RawSnapshot) (s : State) : AllOrNothing s (hostImport x s) := by
  cases h : x.check with
  | none => exact .inr (hostImport_of_none h s)
  | some stores => exact .inl (by rw [hostImport_of_some h]; rfl)

theorem hostImportMc_allOrNothing (ls : List Text) (s : State) : AllOrNothing s (hostImportMc ls s) := by
  cases h : checkMc ls with
  | none => exact .inr (hostImportMc_of_none h s)
  | some stores => exact .inl (by rw [hostImportMc_of_some h]; rfl)

theorem AllOrNothing.response {s t : State} (h : AllOrNothing s t) :
    t.response = some .ok ∨ t.response = some (.failed .malformedSnapshot) :=
  h.imp_right fun ht => by rw [ht]; rfl

theorem AllOrNothing.arch {s t : State} (h : AllOrNothing s t)
    (hfailed : t.response = some (.failed .malformedSnapshot)) :
    t.toArch = s.toArch := by
  rcases h with hok | rfl
  · simp [hok] at hfailed
  · rfl

/-- Settles O60: what passes the checks is imported with Ok, and what does not fails. -/
theorem failedImportsChangeNothing : Obligations.FailedImportsChangeNothing := by
  intro s x ls c hasks hr hc
  rcases hc with rfl | rfl
  · have hstep := hostImport_allOrNothing x (s.clearOutputs.withInbox s.inbox.tail)
    refine ⟨_, step_of_asks_not_running hasks hr, hstep.response, hstep.arch, nofun, fun ram mc _ hram hmc hbad => ?_⟩
    rw [hostImport_of_none (RawSnapshot.check_eq_none hram hmc hbad)]
    rfl
  · have hstep := hostImportMc_allOrNothing ls (s.clearOutputs.withInbox s.inbox.tail)
    refine ⟨_, step_of_asks_not_running hasks hr, hstep.response, hstep.arch, fun _ hlen => ?_, nofun⟩
    rw [hostImportMc_of_none (checkMc_eq_none hlen)]
    rfl

/-! ## Decimal texts (R272, R273) -/

theorem digitValue_of_isDigit {c : Char} (h : c.isDigit = true) : digitValue c = some (c.toNat - '0'.toNat) := by
  simp only [Char.isDigit, Bool.and_eq_true, decide_eq_true_eq] at h
  exact if_pos h

theorem isDigit_of_mem_decimalText {n : Nat} {c : Char} (h : c ∈ decimalText n) : c.isDigit = true :=
  Nat.isDigit_of_mem_toDigits (by decide) (by decide) h

theorem decimalText_ne_nil (n : Nat) : decimalText n ≠ [] := Nat.toDigits_ne_nil

/-- A text of digits, of one at least, stands for the number of its digits. -/
theorem parseDecimal_of_digits {t : Text} (hne : t ≠ []) (h : ∀ c ∈ t, c.isDigit = true) :
    parseDecimal t = some (Nat.ofDigitChars 10 t 0) := by
  have hdigits : t.mapM digitValue = some (t.map fun c => c.toNat - '0'.toNat) :=
    mapM_eq_some_iff.mpr (by simpa using fun c hc => digitValue_of_isDigit (h c hc))
  cases t with
  | nil => exact absurd rfl hne
  | cons c t => rw [parseDecimal, hdigits, Option.map_some, List.foldl_map, Nat.ofDigitChars]

theorem parseDecimal_decimalText (n : Nat) : parseDecimal (decimalText n) = some n := by
  rw [parseDecimal_of_digits (decimalText_ne_nil n) fun _ => isDigit_of_mem_decimalText]
  exact congrArg some (Nat.ofDigitChars_toDigits (by decide) (by decide))

/-- The decimal text of a Word is a valid token for it (R272, R273). -/
theorem ramToken_decimalText (w : Word) : ramToken (decimalText w.val) = some w := by
  rw [ramToken, parseDecimal_decimalText]
  exact (if_pos (Nat.le_of_lt_succ w.isLt)).trans (congrArg some (Fin.ext (Nat.mod_eq_of_lt w.isLt)))

/-- A digit begins no comment and is no space (R272). -/
theorem digit_plain {c : Char} (h : c.isDigit = true) : (c != '#') = true ∧ (c == ' ') = false := by
  have hne : ∀ d : Char, d.isDigit = false → c ≠ d := by
    rintro d hd rfl
    cases h.symm.trans hd
  exact ⟨bne_iff_ne.mpr (hne '#' rfl), beq_eq_false_iff_ne.mpr (hne ' ' rfl)⟩

theorem dropWhile_space_of_digits {t : Text} (h : ∀ c ∈ t, c.isDigit = true) : t.dropWhile (fun c => c == ' ') = t := by
  rw [List.dropWhile_eq_self_iff]
  intro hlen hspace
  have hplain := (digit_plain (h _ (List.getElem_mem hlen))).2
  cases hplain.symm.trans hspace

/-- A line of digits has no comment and no spaces around it (R272). -/
theorem stripLine_of_digits {t : Text} (h : ∀ c ∈ t, c.isDigit = true) : stripLine t = t := by
  have hcut : t.takeWhile (fun c => c != '#') = t := List.takeWhile_eq_self_iff.mpr fun c hc => (digit_plain (h c hc)).1
  have hrev : ∀ c ∈ t.reverse, c.isDigit = true := fun c hc => h c (List.mem_reverse.mp hc)
  simp only [stripLine, hcut, dropWhile_space_of_digits h, dropWhile_space_of_digits hrev, List.reverse_reverse]

/-- A text of decimal numbers is its data lines (R272). -/
theorem dataLines_map_decimalText (ns : List Nat) :
    (dataLines (ns.map decimalText)).map Prod.snd = ns.map decimalText := by
  have hstrip : ∀ t ∈ ns.map decimalText, stripLine t = t := by
    intro t ht
    obtain ⟨n, -, rfl⟩ := List.mem_map.mp ht
    exact stripLine_of_digits fun _ => isDigit_of_mem_decimalText
  have hne : ∀ t ∈ ns.map decimalText, t ≠ [] := by
    intro t ht
    obtain ⟨n, -, rfl⟩ := List.mem_map.mp ht
    exact decimalText_ne_nil n
  generalize ns.map decimalText = lines at hstrip hne
  have hmap : (lines.zipIdx.map fun x => (x.2, stripLine x.1)) = lines.zipIdx.map fun x => (x.2, x.1) :=
    List.map_congr_left fun x hx => by rw [hstrip x.1 (List.fst_mem_of_mem_zipIdx hx)]
  have hkeep : ∀ x ∈ lines.zipIdx.map (fun x => (x.2, x.1)), (!x.2.isEmpty) = true := by
    intro x hx
    obtain ⟨y, hy, rfl⟩ := List.mem_map.mp hx
    simpa using hne y.1 (List.fst_mem_of_mem_zipIdx hy)
  rw [dataLines, hmap, List.filter_eq_self.mpr hkeep, List.map_map]
  exact List.zipIdx_map_fst 0 lines

/-- Where every data line is a valid token, the Words are imported with no warning (R272). -/
theorem hostImportRam_of_tokens {lines : List Text} {words : List Word} (hlen : words.length ≤ 1000)
    (h : ((dataLines lines).map Prod.snd).map ramToken = words.map some) (s : State) :
    hostImportRam lines s = (s.setMemory (Store.ofList 0 words)).answer .ok := by
  have hwarnings : (dataLines lines).filter (fun x => (ramToken x.2).isNone) = [] := by
    rw [List.filter_eq_nil_iff]
    intro x hx hnone
    have hmem : ramToken x.2 ∈ words.map some :=
      h ▸ List.mem_map_of_mem (f := ramToken) (List.mem_map_of_mem (f := Prod.snd) hx)
    obtain ⟨w, -, hw⟩ := List.mem_map.mp hmem
    simp [← hw] at hnone
  have hwords : ((dataLines lines).map fun x => (ramToken x.2).getD 0) = words := by
    simpa [Function.comp_def] using congrArg (List.map fun o => o.getD 0) h
  simp [hostImportRam, hwarnings, hwords, List.take_of_length_le hlen, State.emitAll]

/-- An exported text is imported as the Memory it was made from (R272, R273). -/
theorem hostImportRam_export {m : Memory} (h : Memory.wf m = true) (s : State) :
    hostImportRam ((Store.toList 0 m 1000).map fun w => decimalText w.val) s = (s.setMemory m).answer .ok := by
  have hlines : ((Store.toList 0 m 1000).map fun w => decimalText w.val) =
      ((Store.toList 0 m 1000).map Fin.val).map decimalText := by
    rw [List.map_map]
    rfl
  rw [hostImportRam_of_tokens (Store.length_toList 0 m 1000).le, Store.ofList_toList 0 h]
  rw [hlines, dataLines_map_decimalText, List.map_map, List.map_map]
  exact List.map_congr_left fun w _ => ramToken_decimalText w

/-- Settles O59: the exported text is the one of the machine's Memory, and it is imported as that Memory. -/
theorem ramTextCarriesMemory : Obligations.RamTextCarriesMemory := by
  intro s v u ls hwf hasks hv hls hasksU hr
  have hexport : step s = .next (hostExportRam (s.clearOutputs.withInbox s.inbox.tail)) :=
    (step_of_asks hasks).trans (issue_of_accepted rfl _)
  obtain rfl := Host.Outcome.next.inj (hexport.symm.trans hv)
  obtain rfl := Response.lines.inj (Option.some.inj hls)
  refine ⟨_, (step_of_asks_not_running hasksU hr).trans (congrArg Host.Outcome.next (hostImportRam_export hwf _)), rfl,
    rfl, fun n => ?_⟩
  simp [State.setMemory, bulkEvents]

end Sys2Proof.Machine
end
